-- ==== Sys2Proof/Word.lean ====
section
/-! DEFINITION. The word types of the block (00_scope.md R9 to R11). -/

namespace Sys2Proof

/-- A byte of the memory port or of a stream (R61, R64). -/
abbrev Byte := BitVec 8

/-- A register of the register block, or an address of the memory port (R21, R61). -/
abbrev Word := BitVec 32

/-- A bit string (R11), first bit first. -/
abbrev Bits := List Bool

end Sys2Proof
end

