-- ==== Sys2Proof/Syntax.lean ====
section
/-! DEFINITION. The instructions: one constructor per row of spec/opcode_table.json (30_encoding.md R80): the two
command words and the five elements of a compressed stream. -/

namespace Sys2Proof

/-- The instructions of the opcode table. -/
inductive Instr where
  /-- Command word 0x00000001 (R81, R170). -/
  | compress
  /-- Command word 0x00000002 (R81, R190). -/
  | decompress
  /-- INTERNAL token `0` of a serialized tree (R86, R152, R156). -/
  | tokenInternal
  /-- LEAF token `1 ssssssss` of a serialized tree (R86, R151, R158). -/
  | tokenLeaf (sym : Byte)
  /-- The 32-bit symbol count field (R83, R175, R192). -/
  | count (n : Word)
  /-- Payload bit `0` (R88, R195). -/
  | payloadLeft
  /-- Payload bit `1` (R88, R196). -/
  | payloadRight
deriving DecidableEq, Repr

/-- The formats of the opcode table: where an instruction is found. -/
inductive Format where
  /-- CMD: the word written to the command register (R81). -/
  | cmd
  /-- TREE_TOKEN: one token of the serialized tree (R86). -/
  | treeToken
  /-- COUNT32: the symbol count field (R83). -/
  | count32
  /-- PAYLOAD_BIT: one bit of the payload (R88). -/
  | payloadBit
deriving DecidableEq, Repr

/-- The format of an instruction's row in the opcode table. -/
def Instr.format : Instr → Format
  | .compress => .cmd
  | .decompress => .cmd
  | .tokenInternal => .treeToken
  | .tokenLeaf _ => .treeToken
  | .count _ => .count32
  | .payloadLeft => .payloadBit
  | .payloadRight => .payloadBit

end Sys2Proof
end

