-- ==== Sys2Proof/WellFormed.lean ====
section
/-! DEFINITION. Well-formedness. Every operand value of every row is legal (R86 "Every value of s is legal", R192), and
the operand types hold exactly those values; what can be ill-formed is an instruction found in a place of another
format (R90). -/

namespace Sys2Proof

/-- The instruction may stand where format `f` is read. -/
def Instr.wellFormed (f : Format) (i : Instr) : Bool :=
  i.format == f

end Sys2Proof
end

