-- ==== Sys2Proof/Decode.lean ====
section
/-! DEFINITION. Encodings (30_encoding.md): bit strings, the decoder of each format, total and rejecting by name, and
the encoder. -/

namespace Sys2Proof

/-- `msb_bits(v, n)` (R11): the low n bits of v, most significant first. -/
def msbBits (v : Nat) : Nat → Bits
  | 0 => []
  | n + 1 => v.testBit n :: msbBits v n

/-- The unsigned value of a bit string, first bit most significant (R107). -/
def natOfBits (bs : Bits) : Nat :=
  bs.foldl (fun v b => 2 * v + b.toNat) 0

/-- The bits of bytes in stream order: stream bit k is bit 7 − (k mod 8) of byte ⌊k/8⌋ (R65, R83). -/
def bitsOfBytes : List Byte → Bits
  | [] => []
  | b :: bs => msbBits b.toNat 8 ++ bitsOfBytes bs

/-- The bytes of a bit string, the last one padded with zero bits (R83). -/
def bytesOfBits : Bits → List Byte
  | [] => []
  | b0 :: b1 :: b2 :: b3 :: b4 :: b5 :: b6 :: b7 :: rest =>
    BitVec.ofNat 8 (natOfBits [b0, b1, b2, b3, b4, b5, b6, b7]) :: bytesOfBits rest
  | bs => [BitVec.ofNat 8 (natOfBits bs * 2 ^ (8 - bs.length))]

/-- Why a decoder refuses. -/
inductive DecodeError where
  /-- CMD[31:4] is not zero (R81, R212 (a)). -/
  | reservedBitsSet
  /-- CMD[3:0] is not 1 or 2 (R81, R212 (a)). -/
  | reservedOperation
  /-- The bits end before the element does (R91). -/
  | endOfBits
deriving DecidableEq, Repr

/-- The command word (R81). -/
def decodeCmd (w : Word) : Except DecodeError Instr :=
  if w.extractLsb' 4 28 ≠ 0#28 then .error .reservedBitsSet
  else if w.extractLsb' 0 4 = 1#4 then .ok .compress
  else if w.extractLsb' 0 4 = 2#4 then .ok .decompress
  else .error .reservedOperation

/-- The next n bits as a number, and the bits after them. -/
def splitBits (n : Nat) (bs : Bits) : Except DecodeError (Nat × Bits) :=
  if bs.length < n then .error .endOfBits else .ok (natOfBits (bs.take n), bs.drop n)

/-- A command word laid out as a bit string, most significant bit first. -/
def decodeCmdBits (bs : Bits) : Except DecodeError (Instr × Bits) :=
  match splitBits 32 bs with
  | .error e => .error e
  | .ok (v, rest) =>
    match decodeCmd (BitVec.ofNat 32 v) with
    | .error e => .error e
    | .ok i => .ok (i, rest)

/-- A token of the serialized tree, told by its first bit (R86). -/
def decodeToken : Bits → Except DecodeError (Instr × Bits)
  | [] => .error .endOfBits
  | false :: rest => .ok (.tokenInternal, rest)
  | true :: rest =>
    match splitBits 8 rest with
    | .error e => .error e
    | .ok (v, rest') => .ok (.tokenLeaf (BitVec.ofNat 8 v), rest')

/-- The symbol count field (R83, R90). -/
def decodeCount (bs : Bits) : Except DecodeError (Instr × Bits) :=
  match splitBits 32 bs with
  | .error e => .error e
  | .ok (v, rest) => .ok (.count (BitVec.ofNat 32 v), rest)

/-- A payload bit (R88, R195, R196). -/
def decodePayload : Bits → Except DecodeError (Instr × Bits)
  | [] => .error .endOfBits
  | false :: rest => .ok (.payloadLeft, rest)
  | true :: rest => .ok (.payloadRight, rest)

/-- The decoder: the instruction of format `f` at the head of the bits, and the rest. -/
def decode (f : Format) (bs : Bits) : Except DecodeError (Instr × Bits) :=
  match f with
  | .cmd => decodeCmdBits bs
  | .treeToken => decodeToken bs
  | .count32 => decodeCount bs
  | .payloadBit => decodePayload bs

/-- The decoder on bytes in stream order. -/
def decodeBytes (f : Format) (bytes : List Byte) : Except DecodeError (Instr × Bits) :=
  decode f (bitsOfBytes bytes)

/-- The encoder, from the encoding tables R81, R83, R86 and R88. -/
def encode : Instr → Bits
  | .compress => msbBits 0x00000001 32
  | .decompress => msbBits 0x00000002 32
  | .tokenInternal => [false]
  | .tokenLeaf sym => true :: msbBits sym.toNat 8
  | .count n => msbBits n.toNat 32
  | .payloadLeft => [false]
  | .payloadRight => [true]

/-- The instruction a decoded result names, if any. -/
def decodedInstr : Except DecodeError (Instr × Bits) → Option Instr
  | .ok (i, _) => some i
  | .error _ => none

/-- The instruction of a row's bits as spec/opcode_table.json numbers them. The table has three widths: one bit (tokens
tried before payload bits, the table's order), nine bits, and 32 bits (the command format before the count field):
equal words of two formats are told apart by the machine's phase only (log 19). -/
def decodeTableWord (nbits w : Nat) : Option Instr :=
  if nbits ≤ 8 then
    match decodedInstr (decode .treeToken (msbBits w 1)) with
    | some i => some i
    | none => decodedInstr (decode .payloadBit (msbBits w 1))
  else if nbits ≤ 16 then
    decodedInstr (decode .treeToken (msbBits w 9))
  else if nbits ≤ 32 then
    match decodedInstr (decode .cmd (msbBits w 32)) with
    | some i => some i
    | none => decodedInstr (decode .count32 (msbBits w 32))
  else none

end Sys2Proof
end

