-- ==== Sys2Proof/Config.lean ====
section
/-! DEFINITION. What the spec fixes once (00_scope.md R7) and the free values it leaves open
(93_implementation_defined.md). A free value is an opaque constant applied to State's counter of draws: nothing in
Lean can say what it is. -/

namespace Sys2Proof.Config

/-- NODE_POOL, the number of node slots (R7, R42). -/
abbrev nodePool : Nat := 511

/-- STACK_DEPTH, the most entries the walk stack holds (R7, R46). R142 and R157 derive that no walk needs more, so no
operation has a case for an overflow; `TreeInv.stackFits` is the bound. -/
abbrev stackDepth : Nat := 511

/-- The number of bits of a node index (R42, R43). Every index in State is below NODE_POOL (`IndicesIn`), and so fits. -/
abbrev indexWidth : Nat := 9

/-- WSET's most members (R44). -/
abbrev wsetSize : Nat := 256

/-- MAX_CODE_LEN, the most bits a code has (R7, R45). -/
abbrev maxCodeLen : Nat := 255

/-- The number of bytes of the address space (R61). -/
abbrev addressSpace : Nat := 2 ^ 32

/-- The constant the ID register reads (R38). -/
abbrev idValue : Word := 0x48554631#32

/-- Free value: STATUS.PHASE read while BUSY = 1 (R40, U12; log 6). -/
opaque freePhase : Nat → BitVec 4

/-- Free value: a result register read while BUSY = 1 (R40, U13; log 6). -/
opaque freeWord : Nat → Word

/-- Free value: the byte a faulting write leaves (R63, U15; log 7), and each byte of the destination window after a
reset while BUSY = 1 (R261, U18; log 8). -/
opaque freeByte : Nat → Byte

/-- Free value: NACC after a `put_bit` whose byte's write returned a bus error, where R100 has set it to 8 and R47 gives
it 3 bits (log 12). -/
opaque freeFill : Nat → BitVec 3

/-- Free value: the bits of a CODE entry that is not valid (R104, R176; log 11). -/
opaque freeCode : Nat → Bits

end Sys2Proof.Config
end

