-- ==== Sys2Proof/Machine/State.lean ====
section
/-! DEFINITION. The state of the block (10_state.md), of the platform it works on (20_memory.md) and of the host that
drives it (46_host_interface.md R210), as plain data; the faults and the refusals; the state after reset (R260). -/

namespace Sys2Proof.Machine

/-- STATUS.PHASE (R28). Values 13 to 15 are never produced (U25). -/
inductive Phase where
  | idle | check | freq | build | codes | size | serTree | wrCount | encode | final | deserTree | rdCount | decode
deriving DecidableEq, Repr

/-- STATUS.ERRCODE (R27, R230). Values 6 to 15 are never produced (U25). -/
inductive ErrCode where
  | noError | truncatedInput | invalidArgument | outputOverflow | treeOverflow | busError
deriving DecidableEq, Repr

/-- The stored fields of STATUS (R23); ERR has no storage (R26). -/
structure Status where
  busy : Bool
  done : Bool
  errcode : ErrCode
  phase : Phase
deriving DecidableEq, Repr

/-- The four window registers (R29 to R32), also the form of their latched copy (R211). -/
structure Windows where
  srcAddr : Word
  srcLen : Word
  dstAddr : Word
  dstCap : Word
deriving DecidableEq, Repr

/-- The result registers (R33 to R36). -/
structure Results where
  outLen : Word
  symCount : Word
  leafCount : Word
  treeBits : Word
deriving DecidableEq, Repr

/-- The kind of a node (R42). -/
inductive NodeKind where
  | leaf | internal
deriving DecidableEq, Repr

/-- A slot of the node pool (R42). `left` and `right` are node indices of 9 bits: below NODE_POOL (`IndicesIn`, log 23). -/
structure Node where
  kind : NodeKind
  sym : Byte
  freq : Word
  left : Nat
  right : Nat
deriving DecidableEq, Repr

/-- What a slot of the node pool holds before anything has written it (R260: unspecified; log 9). -/
def Node.unwritten : Node := ⟨.leaf, 0#8, 0#32, 0, 0⟩

/-- An entry of the code table (R45); `len` is the length of `bits`. -/
structure CodeEntry where
  valid : Bool
  bits : Bits
deriving DecidableEq, Repr

/-- A cleared entry of the code table (R211). -/
def CodeEntry.cleared : CodeEntry := ⟨false, []⟩

/-- The 2-state progress mark of a walk-stack entry (R46): which child's subtree is being walked. -/
inductive Mark where
  | left | right
deriving DecidableEq, Repr

/-- An entry of the walk stack (R46): a node index and a progress mark. -/
structure Frame where
  node : Nat
  mark : Mark
deriving DecidableEq, Repr

/-- The tables of R41 to R46. FREQ, NODE and CODE are lists of (index, entry) pairs in one canonical form (log 10);
STACK has its top first and never more than STACK_DEPTH entries (`TreeInv.stackFits`), and SP is its length. WSET has at
most 256 members (`TreeInv.wsetFits`). NNODES is at most, and every node index below, NODE_POOL (log 23). -/
structure Work where
  freq : List (Nat × Word)
  nodes : List (Nat × Node)
  nnodes : Nat
  root : Nat
  wset : List Nat
  code : List (Nat × CodeEntry)
  stack : List Frame
deriving DecidableEq, Repr

/-- The bit writer (R47). -/
structure Writer where
  acc : Byte
  nacc : BitVec 3
  outpos : Nat
  wbits : Nat
deriving DecidableEq, Repr

/-- The bit reader (R48). -/
structure Reader where
  rdpos : Nat
  rdlimit : Nat
deriving DecidableEq, Repr

/-- The loop indices of R50: the source index of R120 and R176, what write_code has still to write (R102), the node of
the walk of R194 (log 13). -/
structure Loop where
  idx : Nat
  codeRest : Bits
  cursor : Nat
deriving DecidableEq, Repr

/-- The kind of a memory access (R7, BUS_FAULT's second argument). -/
inductive AccessKind where
  | read | write
deriving DecidableEq, Repr

/-- A range of addresses whose accesses of one kind return a bus error (log 3). -/
structure FaultRange where
  kind : AccessKind
  lo : Nat
  hi : Nat
deriving DecidableEq, Repr

/-- The OPEN parameters of R7: REG_BASE, 64-byte aligned, by its upper 26 bits, and BUS_FAULT (log 3, log 4). -/
structure Platform where
  regBase : BitVec 26
  faults : List FaultRange
deriving DecidableEq, Repr

/-- A move of the host (R210), or its passing the turn to the engine (log 2). -/
inductive HostMove where
  /-- The host does nothing: the engine moves. -/
  | pass
  /-- A register read of `bytes` bytes at a bus address. -/
  | read (addr : Word) (bytes : Nat)
  /-- A register write of `bytes` bytes at a bus address. -/
  | write (addr : Word) (bytes : Nat) (value : Word)
  /-- The host reads a byte of platform memory. -/
  | memRead (addr : Word)
  /-- The host writes a byte of platform memory. -/
  | memWrite (addr : Word) (value : Byte)
  /-- The platform asserts reset (R260). -/
  | reset
deriving DecidableEq, Repr

/-- The whole state. `host`, `rdata` and `draws` are the model's own fields (log 2, log 21, log 6). -/
structure State where
  cmd : Word
  status : Status
  win : Windows
  results : Results
  irqEn : Bool
  latched : Windows
  work : Work
  writer : Writer
  reader : Reader
  loop : Loop
  platform : Platform
  mem : List Host.Cell
  host : List HostMove
  rdata : Word
  draws : Nat
deriving DecidableEq, Repr

/-- Where a step stops for good. The block's own errors are no faults: they are command ends (R235). -/
inductive Fault where
  /-- Raised by the engine's step in a state with BUSY = 1 and PHASE = IDLE, which no command can be in (R24, R28).
  Safe: no run reaches it, and the machine stops. -/
  | sequencerLost
deriving DecidableEq, Repr

/-- What has no meaning. -/
inductive Refusal where
  /-- Raised by an arm of exec whose instruction has no meaning yet. Safe: the machine stops. -/
  | notModelled (mnemonic : String)
  /-- Raised by a stream element executed in a phase in which no rule reads or writes such an element (R172, R191;
  log 14). Safe: no step fetches one there. -/
  | elementOutOfPhase
  /-- Raised by a host access to the register port that is not a 32-bit access at a multiple of 4 inside the register
  block (R71, R266 (c), U20; log 15). Safe: the host has no such move. -/
  | registerAccess
  /-- Raised by a host access to a running command's windows that the host's duties forbid (R266 (a), (b), U14, U21;
  log 16). Unsafe for a host that breaks its duties: the model has no run in which it does. -/
  | hostDuty
deriving DecidableEq, Repr

/-- The outcome of an instruction or a step. -/
abbrev Out := Host.Outcome State Fault Refusal

/-- The register block after reset: every window register 0 (R21, R260). -/
def Windows.zero : Windows := ⟨0#32, 0#32, 0#32, 0#32⟩

/-- The tables after reset (R260: unspecified; log 9). -/
def Work.empty : Work := ⟨[], [], 0, 0, [], [], []⟩

/-- The machine right after reset (R260), on a platform whose memory nothing has written (log 5), with no move of the
host pending (log 2). -/
def State.reset : State where
  cmd := 0#32
  status := ⟨false, false, .noError, .idle⟩
  win := Windows.zero
  results := ⟨0#32, 0#32, 0#32, 0#32⟩
  irqEn := false
  latched := Windows.zero
  work := Work.empty
  writer := ⟨0#8, 0#3, 0, 0⟩
  reader := ⟨0, 0⟩
  loop := ⟨0, [], 0⟩
  platform := ⟨0#26, []⟩
  mem := []
  host := []
  rdata := 0#32
  draws := 0

end Sys2Proof.Machine
end

