-- ==== Sys2Proof/Machine/Ops.lean ====
section
/-! DEFINITION. The named operations: indexed stores, platform memory (20_memory.md), the register file's shared
updates, the bit writer (40_bitstream.md), the command start (R211) and the command end (R235), which is how this block
takes an error and how it returns to service. -/

namespace Sys2Proof.Machine

/-! ### Indexed stores: sorted lists of (index, entry) pairs that list no default entry -/

/-- The entry at index `k`; an unlisted index holds `d`. -/
def storeGet {α : Type} (d : α) (k : Nat) : List (Nat × α) → α
  | [] => d
  | e :: rest => if k = e.1 then e.2 else storeGet d k rest

/-- Insert an entry before the first greater index. -/
def storeInsert {α : Type} (k : Nat) (v : α) : List (Nat × α) → List (Nat × α)
  | [] => [(k, v)]
  | e :: rest => if k < e.1 then (k, v) :: e :: rest else e :: storeInsert k v rest

/-- Drop the entry at index `k`. -/
def storeRemove {α : Type} (k : Nat) (l : List (Nat × α)) : List (Nat × α) :=
  l.filter fun e => e.1 != k

/-- Write the entry at index `k`; writing the default entry removes the pair. -/
def storeSet {α : Type} [DecidableEq α] (d : α) (k : Nat) (v : α) (l : List (Nat × α)) : List (Nat × α) :=
  if v = d then storeRemove k l else storeInsert k v (storeRemove k l)

/-- The canonical form: indices strictly rising, no default entry, every index below `n`. -/
abbrev storeWf {α : Type} (d : α) (n : Nat) (l : List (Nat × α)) : Prop :=
  (l.map Prod.fst).Pairwise (· < ·) ∧ ∀ e ∈ l, e.2 ≠ d ∧ e.1 < n

/-! ### Platform memory -/

/-- The canonical form of platform memory (R61). -/
abbrev Memory.wf (m : List Host.Cell) : Prop :=
  storeWf 0#8 Config.addressSpace m

/-- The byte platform memory holds at an address; an unlisted address reads 0x00 (log 5). -/
def readByte (a : Nat) (m : List Host.Cell) : Byte :=
  storeGet 0#8 a m

/-- Platform memory with a byte written. -/
def writeByte (a : Nat) (v : Byte) (m : List Host.Cell) : List Host.Cell :=
  storeSet 0#8 a v m

/-- BUS_FAULT(addr, kind) (R7, D19). -/
def busFault (p : Platform) (k : AccessKind) (a : Word) : Bool :=
  p.faults.any fun r => r.kind == k && decide (r.lo ≤ a.toNat) && decide (a.toNat ≤ r.hi)

/-- `MemRead(addr, 1)` (R62). -/
def memRead (a : Word) (s : State) : Except ErrCode Byte :=
  if busFault s.platform .read a then .error .busError
  else .ok (readByte a.toNat s.mem)

/-- `MemWrite(addr, 1, v)` (R63): the state after, in `error` when the write returns a bus error, whose byte is then
free (log 7). -/
def memWrite (a : Word) (v : Byte) (s : State) : Except State State :=
  if busFault s.platform .write a then
    .error { s with mem := writeByte a.toNat (Config.freeByte s.draws) s.mem, draws := s.draws + 1 }
  else .ok { s with mem := writeByte a.toNat v s.mem }

/-! ### Registers and tables -/

/-- `PHASE <- p`. -/
def State.toPhase (p : Phase) (s : State) : State :=
  { s with status := { s.status with phase := p } }

/-- The phase of a running command; none while BUSY = 0 (R60). -/
def State.active (s : State) : Option Phase :=
  if s.status.busy then some s.status.phase else none

/-- `NODE[n]` (R12, R42). -/
def nodeAt (nodes : List (Nat × Node)) (n : Nat) : Node :=
  storeGet Node.unwritten n nodes

/-- `NODE[n] <- v`. -/
def setNode (n : Nat) (v : Node) (nodes : List (Nat × Node)) : List (Nat × Node) :=
  storeSet Node.unwritten n v nodes

/-- `NODE[n] <- { kind: LEAF, sym, freq }`; the other fields keep what they held (log 22). -/
def setLeaf (n : Nat) (sym : Byte) (freq : Word) (nodes : List (Nat × Node)) : List (Nat × Node) :=
  setNode n { nodeAt nodes n with kind := .leaf, sym := sym, freq := freq } nodes

/-- `FREQ[s]` (R41). -/
def freqAt (freq : List (Nat × Word)) (sym : Byte) : Word :=
  storeGet 0#32 sym.toNat freq

/-- `CODE[s]` (R12, R45). -/
def codeAt (code : List (Nat × CodeEntry)) (sym : Byte) : CodeEntry :=
  storeGet CodeEntry.cleared sym.toNat code

/-- `CODE[s] <- { valid: 1, len: |bits|, bits }`. -/
def setCode (sym : Byte) (bits : Bits) (code : List (Nat × CodeEntry)) : List (Nat × CodeEntry) :=
  storeSet CodeEntry.cleared sym.toNat ⟨true, bits⟩ code

/-! ### The walk stack (R46): a depth-first walk, left before right, whose top entry is the node being visited -/

/-- The bit a progress mark stands for: a descent left is 0, right is 1 (R140). -/
def Mark.bit : Mark → Bool
  | .left => false
  | .right => true

/-- The root-to-node path of the node above these entries: their marks, the root's first (R140). -/
def pathOf (stack : List Frame) : Bits :=
  (stack.map fun f => f.mark.bit).reverse

/-- The stack once the subtree above these entries is finished: go on with the nearest right sibling not yet walked. -/
def nextSubtree (nodes : List (Nat × Node)) : List Frame → List Frame
  | [] => []
  | ⟨p, .left⟩ :: rest => ⟨(nodeAt nodes p).right, .left⟩ :: ⟨p, .right⟩ :: rest
  | ⟨_, .right⟩ :: rest => nextSubtree nodes rest

/-- The stack after visiting its top node: into an internal node's left child, past a leaf. -/
def walkOn (nodes : List (Nat × Node)) : List Frame → List Frame
  | [] => []
  | f :: rest =>
    match (nodeAt nodes f.node).kind with
    | .leaf => nextSubtree nodes rest
    | .internal => ⟨(nodeAt nodes f.node).left, .left⟩ :: ⟨f.node, .left⟩ :: rest

/-- The stack at the start of a walk from ROOT. -/
def walkFrom (root : Nat) : List Frame :=
  [⟨root, .left⟩]

/-! ### The command start and the command end -/

/-- The command start (R211) with CMD word `w`: what a host write of CMD does while BUSY = 0. -/
def startCommand (w : Word) (s : State) : State :=
  { s with
    cmd := w
    status := ⟨true, false, .noError, .check⟩
    results := ⟨0#32, 0#32, 0#32, 0#32⟩
    latched := s.win
    work := { s.work with freq := [], code := [], nnodes := 0, wset := [], stack := [] }
    writer := ⟨0#8, 0#3, 0, 0⟩
    reader := ⟨0, 8 * s.win.srcLen.toNat⟩
    loop := ⟨0, [], 0⟩ }

/-- `end_command(code)` (R235), the one way a command ends. -/
def endCommand (code : ErrCode) (s : State) : State :=
  { s with
    status := { s.status with busy := false, done := true, errcode := code }
    results := { s.results with
      outLen := if code = .outputOverflow then s.results.outLen else BitVec.ofNat 32 s.writer.outpos } }

/-- `raise <Error>` (R12): end the command, abandoning the rest of it. -/
def raise (e : ErrCode) (s : State) : Out :=
  .next (endCommand e s)

/-- Go on with `k` after a writer operation, or end the command with BUS_ERROR, the writer's only error (R100). -/
def orBusError (r : Except State State) (k : State → Out) : Out :=
  match r with
  | .ok s => k s
  | .error s => raise .busError s

/-! ### The bit writer -/

/-- The address of destination byte `j` (R65, R66; log 17). -/
def dstByteAddr (s : State) (j : Nat) : Word :=
  s.latched.dstAddr + BitVec.ofNat 32 j

/-- `v[k] <- b` (R10). -/
def assignBit (v : Byte) (k : Nat) (b : Bool) : Byte :=
  if b then v ||| (1#8 <<< k) else v &&& ~~~(1#8 <<< k)

/-- Write the byte in ACC and empty ACC, the guard dropping a byte past the window (R100, R103). A bus error comes before
the updates of the writer, which stays as it is. -/
def flushByte (s : State) : Except State State :=
  let w := s.writer
  if w.outpos < s.latched.dstCap.toNat then
    match memWrite (dstByteAddr s w.outpos) w.acc s with
    | .ok s' => .ok { s' with writer := ⟨0#8, 0#3, w.outpos + 1, w.wbits⟩ }
    | .error s' => .error s'
  else .ok { s with writer := ⟨0#8, 0#3, w.outpos, w.wbits⟩ }

/-- `ACC[7 − NACC] <- b ; NACC <- NACC + 1 ; WBITS <- WBITS + 1` (R100). A NACC of 8 does not fit its 3 bits (R47), and is
free; it remains only where the byte's write returns a bus error (log 12). -/
def fillBit (b : Bool) (s : State) : State :=
  let w := s.writer
  { s with writer :=
    { w with
      acc := assignBit w.acc (7 - w.nacc.toNat) b
      nacc := if w.nacc = 7#3 then Config.freeFill s.draws else w.nacc + 1#3
      wbits := w.wbits + 1 } }

/-- `put_bit(b)` (R100): the bit is filled in and counted, and a byte it completes is written. -/
def putBit (b : Bool) (s : State) : Except State State :=
  if s.writer.nacc = 7#3 then flushByte (fillBit b s) else .ok (fillBit b s)

/-- `put_bit` of each bit in turn: `write_code(c)` (R102). -/
def putBits : Bits → State → Except State State
  | [], s => .ok s
  | b :: bs, s =>
    match putBit b s with
    | .ok s' => putBits bs s'
    | .error s' => .error s'

/-- `write_bits(v, n)` (R101). -/
def writeBits (v : Word) (n : Nat) (s : State) : Except State State :=
  putBits (msbBits v.toNat n) s

/-- `finalize()` (R103); the stream length it returns is OUTPOS after it. -/
def finalize (s : State) : Except State State :=
  if s.writer.nacc = 0#3 then .ok s
  else flushByte s

end Sys2Proof.Machine
end

