-- ==== Sys2Proof/Machine/Operands.lean ====
section
/-! DEFINITION. The operand forms: the windows a command works on (R66, R82, R212), source bytes (R65), and stream bits
read through the bit reader (40_bitstream.md section 2). -/

namespace Sys2Proof.Machine

/-- The window [addr, addr + len) passes the top of the address space (R212 (b), (c)). -/
def passesTop (addr len : Word) : Bool :=
  decide (Config.addressSpace < addr.toNat + len.toNat)

/-- The two windows overlap (R212 (d)). -/
def overlap (w : Windows) : Bool :=
  decide (0 < w.srcLen.toNat) && decide (0 < w.dstCap.toNat)
    && decide (w.srcAddr.toNat < w.dstAddr.toNat + w.dstCap.toNat)
    && decide (w.dstAddr.toNat < w.srcAddr.toNat + w.srcLen.toNat)

/-- The windows pass CHECK's clauses (b), (c) and (d) (R212). -/
def windowsLegal (w : Windows) : Bool :=
  !passesTop w.srcAddr w.srcLen && !passesTop w.dstAddr w.dstCap && !overlap w

/-- The byte address `a` lies in the source window (R66). -/
def inSource (w : Windows) (a : Nat) : Bool :=
  decide (w.srcAddr.toNat ≤ a) && decide (a < w.srcAddr.toNat + w.srcLen.toNat)

/-- The byte address `a` lies in the destination window (R66). -/
def inDest (w : Windows) (a : Nat) : Bool :=
  decide (w.dstAddr.toNat ≤ a) && decide (a < w.dstAddr.toNat + w.dstCap.toNat)

/-- The address of source byte `i` (R65; log 17). -/
def srcByteAddr (s : State) (i : Nat) : Word :=
  s.latched.srcAddr + BitVec.ofNat 32 i

/-- Source byte `i` (R120, R176). -/
def readSource (s : State) (i : Nat) : Except ErrCode Byte :=
  memRead (srcByteAddr s i) s

/-- The value `read_bit()` gives at stream bit `pos` (R106): TRUNCATED_INPUT comes before the memory read. -/
def peekBit (s : State) (pos : Nat) : Except ErrCode Bool :=
  if s.reader.rdlimit ≤ pos then .error .truncatedInput
  else
    match memRead (srcByteAddr s (pos / 8)) s with
    | .error e => .error e
    | .ok byte => .ok (byte.getLsbD (7 - pos % 8))

/-- The bits `n` calls of `read_bit()` give from stream bit `pos` on (R107), or the first error. -/
def peekBits (s : State) (pos : Nat) : Nat → Except ErrCode Bits
  | 0 => .ok []
  | n + 1 =>
    match peekBit s pos with
    | .error e => .error e
    | .ok b =>
      match peekBits s (pos + 1) n with
      | .error e => .error e
      | .ok bs => .ok (b :: bs)

/-- How many of `n` calls of `read_bit()` from stream bit `pos` on succeed before the first error (R106, R107). -/
def bitsRead (s : State) (pos : Nat) : Nat → Nat
  | 0 => 0
  | n + 1 =>
    match peekBit s pos with
    | .error _ => 0
    | .ok _ => bitsRead s (pos + 1) n + 1

/-- Consume `n` stream bits: RDPOS after `read_bits(n)` (R106, R107). -/
def State.advance (n : Nat) (s : State) : State :=
  { s with reader := { s.reader with rdpos := s.reader.rdpos + n } }

/-- The state a failing `read_bits(n)` leaves: the bits before the failing one are consumed (R106, R107). -/
def readStop (n : Nat) (s : State) : State :=
  s.advance (bitsRead s s.reader.rdpos n)

/-- `from_bytes()` (R105). -/
def fromBytes (s : State) : State :=
  { s with reader := ⟨0, 8 * s.latched.srcLen.toNat⟩ }

end Sys2Proof.Machine
end

