-- ==== Sys2Proof/Machine/Flags.lean ====
section
/-! DEFINITION. The block has no arithmetic flags (R51); its status bits are the fields of STATUS (R23 to R28), and its
one interrupt is a function of them (R53, R240). -/

namespace Sys2Proof.Machine

/-- The value of STATUS.PHASE (R28). -/
def Phase.value : Phase → Nat
  | .idle => 0
  | .check => 1
  | .freq => 2
  | .build => 3
  | .codes => 4
  | .size => 5
  | .serTree => 6
  | .wrCount => 7
  | .encode => 8
  | .final => 9
  | .deserTree => 10
  | .rdCount => 11
  | .decode => 12

/-- The value of STATUS.ERRCODE (R230). -/
def ErrCode.value : ErrCode → Nat
  | .noError => 0
  | .truncatedInput => 1
  | .invalidArgument => 2
  | .outputOverflow => 3
  | .treeOverflow => 4
  | .busError => 5

/-- STATUS.ERR (R26). -/
def errBit (s : State) : Bool :=
  s.status.errcode != .noError

/-- The `irq` output (R53). -/
def irq (s : State) : Bool :=
  s.status.done && s.irqEn

/-- The STATUS word of its fields (R23). -/
def packStatus (busy done err : Bool) (errcode phase : Nat) : Word :=
  BitVec.ofNat 32 (busy.toNat + 2 * done.toNat + 4 * err.toNat + 16 * errcode + 256 * phase)

/-- The STATUS word a host reads while BUSY = 0 (R23). -/
def statusWord (s : State) : Word :=
  packStatus s.status.busy s.status.done (errBit s) s.status.errcode.value s.status.phase.value

/-- The STATUS word a host reads while BUSY = 1: an unspecified PHASE, here `p` (R40). -/
def busyStatusWord (p : BitVec 4) : Word :=
  packStatus true false false 0 p.toNat

end Sys2Proof.Machine
end

