-- ==== Sys2Proof/Machine/CodeTable.lean ====
section
/-! DEFINITION. The CODES phase (42_code_table.md R140): one node of the walk visited in a step. -/

namespace Sys2Proof.Machine

/-- Visiting the top node of the walk (R140): a leaf's code is the path to it. -/
def visitCode (top : Frame) (rest : List Frame) (s : State) : State :=
  let node := nodeAt s.work.nodes top.node
  let code := match node.kind with
    | .leaf => setCode node.sym (pathOf rest) s.work.code
    | .internal => s.work.code
  { s with work := { s.work with code := code, stack := walkOn s.work.nodes (top :: rest) } }

/-- A step of CODES. -/
def codesStep (s : State) : Out :=
  match s.work.stack with
  | [] => .next (s.toPhase .size)
  | top :: rest => .next (visitCode top rest s)

end Sys2Proof.Machine
end

