-- ==== Sys2Proof/Machine/Command.lean ====
section
/-! DEFINITION. The two commands (44_encoder.md R170, 45_decoder.md R190): the instruction is the host's write of the
command word (R80, R211, R213); the engine's steps carry the command through its phases (R217; log 1). -/

namespace Sys2Proof.Machine

/-- A host write of `w` to CMD: a command start with BUSY = 0 (R211), ignored with BUSY = 1 (R213). -/
def commandWrite (w : Word) (s : State) : State :=
  if s.status.busy then s else startCommand w s

/-- COMPRESS (R170, R211). -/
def execCompress (s : State) : Out :=
  .next (commandWrite 0x00000001#32 s)

/-- DECOMPRESS (R190, R211). -/
def execDecompress (s : State) : Out :=
  .next (commandWrite 0x00000002#32 s)

end Sys2Proof.Machine
end

