-- ==== Sys2Proof/Machine/Count.lean ====
section
/-! DEFINITION. The symbol count field: written in WR_COUNT (R175), read in RD_COUNT with the capacity check at its end
(R192, R193). -/

namespace Sys2Proof.Machine

/-- The phase after WR_COUNT (R172): ENCODE from its first source byte, or FINAL for an empty source. -/
def afterCount (s : State) : State :=
  if s.latched.srcLen = 0#32 then s.toPhase .final
  else State.toPhase .encode { s with loop := ⟨0, [], s.loop.cursor⟩ }

/-- `N <- read_bits(32) ; SYM_COUNT <- N` (R192). -/
def takeCount (n : Word) (s : State) : State :=
  State.advance 32 { s with results := { s.results with symCount := n } }

/-- The start of DECODE (R194). -/
def startDecode (s : State) : State :=
  State.toPhase .decode { s with loop := { s.loop with cursor := s.work.root } }

/-- The capacity check (R193). -/
def checkCapacity (n : Word) (s : State) : Out :=
  if s.latched.dstCap.toNat < n.toNat then
    raise .outputOverflow { s with results := { s.results with outLen := n } }
  else .next (startDecode s)

/-- COUNT (R175 when written, R192 and R193 when read). -/
def execCount (n : Word) (s : State) : Out :=
  match s.active with
  | some .wrCount => orBusError (writeBits n 32 s) fun s' => .next (afterCount s')
  | some .rdCount => checkCapacity n (takeCount n s)
  | _ => .refused .elementOutOfPhase

end Sys2Proof.Machine
end

