-- ==== Sys2Proof/Machine/Payload.lean ====
section
/-! DEFINITION. The payload bits: appended in ENCODE, one bit of a code at a time (R102, R176), and a walk step in DECODE
(R194 to R196). -/

namespace Sys2Proof.Machine

/-- One round of write_code's loop (R102): append the bit, and go on with the rest of the code. -/
def emitPayload (b : Bool) (s : State) : Out :=
  orBusError (putBit b s) fun s' => .next { s' with loop := { s'.loop with codeRest := s'.loop.codeRest.tail } }

/-- A walk step to `n` (R195, R196). -/
def walkStep (n : Nat) (s : State) : State :=
  State.advance 1 { s with loop := { s.loop with cursor := n } }

/-- PAYLOAD_LEFT: bit 0 of a code (R140, R176), or a descent left (R195). -/
def execPayloadLeft (s : State) : Out :=
  match s.active with
  | some .encode => emitPayload false s
  | some .decode => .next (walkStep (nodeAt s.work.nodes s.loop.cursor).left s)
  | _ => .refused .elementOutOfPhase

/-- PAYLOAD_RIGHT: bit 1 of a code (R140, R176), or a descent right (R196). -/
def execPayloadRight (s : State) : Out :=
  match s.active with
  | some .encode => emitPayload true s
  | some .decode => .next (walkStep (nodeAt s.work.nodes s.loop.cursor).right s)
  | _ => .refused .elementOutOfPhase

end Sys2Proof.Machine
end

