-- ==== Sys2Proof/Machine/Token.lean ====
section
/-! DEFINITION. The tokens of a serialized tree (43_tree_codec.md): written in SER_TREE (R150 to R152), read in
DESER_TREE (R155 to R158). -/

namespace Sys2Proof.Machine

/-! ### Writing -/

/-- `emit_leaf(s)` (R151). -/
def emitLeaf (sym : Byte) (s : State) : Except State State :=
  match writeBits 1#32 1 s with
  | .ok s' => writeBits (sym.setWidth 32) 8 s'
  | .error s' => .error s'

/-- `emit_internal()` (R152). -/
def emitInternal (s : State) : Except State State :=
  writeBits 0#32 1 s

/-- The serializer's walk goes on from the node whose token has been written (R150). -/
def serNext (s : State) : State :=
  { s with work := { s.work with stack := walkOn s.work.nodes s.work.stack } }

/-! ### Reading -/

/-- The node pool has no slot left for another node (R157). -/
def poolFull (s : State) : Bool :=
  decide (Config.nodePool ≤ s.work.nnodes)

/-- The number of LEAF slots among the first `n` (R155). -/
def countLeaves (nodes : List (Nat × Node)) : Nat → Nat
  | 0 => 0
  | n + 1 => countLeaves nodes n + (if (nodeAt nodes n).kind = .leaf then 1 else 0)

/-- A finished subtree `n` becomes the child its parent awaits, and a parent it finishes becomes the next (R156): the
stack left, the node pool, and the root once nothing awaits a child. -/
def attach (n : Nat) : List Frame → List (Nat × Node) → List Frame × List (Nat × Node) × Option Nat
  | [], nodes => ([], nodes, some n)
  | ⟨p, .left⟩ :: rest, nodes =>
    (⟨p, .right⟩ :: rest, setNode p { nodeAt nodes p with left := n } nodes, none)
  | ⟨p, .right⟩ :: rest, nodes =>
    attach p rest (setNode p { nodeAt nodes p with right := n } nodes)

/-- The end of DESER_TREE (R155): ROOT, LEAF_COUNT, TREE_BITS, then RD_COUNT. -/
def deserDone (root : Nat) (s : State) : State :=
  State.toPhase .rdCount
    { s with
      work := { s.work with root := root }
      results := { s.results with
        leafCount := BitVec.ofNat 32 (countLeaves s.work.nodes s.work.nnodes)
        treeBits := BitVec.ofNat 32 s.reader.rdpos } }

/-- `take_leaf(n)` at the next slot, and the returns that follow it (R155, R158). -/
def takeLeaf (sym : Byte) (s : State) : State :=
  let n := s.work.nnodes
  let r := attach n s.work.stack (setLeaf n sym 0#32 s.work.nodes)
  let s' := State.advance 9
    { s with work := { s.work with nodes := r.2.1, nnodes := n + 1, stack := r.1 } }
  match r.2.2 with
  | none => s'
  | some root => deserDone root s'

/-- `take_internal(n)` at the next slot, up to the read of its left subtree (R155, R156). -/
def takeInternal (s : State) : State :=
  let n := s.work.nnodes
  let node := { nodeAt s.work.nodes n with kind := .internal, freq := 0#32 }
  State.advance 1
    { s with work := { s.work with
        nodes := setNode n node s.work.nodes, nnodes := n + 1, stack := ⟨n, .left⟩ :: s.work.stack } }

/-! ### The instructions -/

/-- TOKEN_LEAF (R151 when written, R155, R157 and R158 when read). -/
def execTokenLeaf (sym : Byte) (s : State) : Out :=
  match s.active with
  | some .serTree => orBusError (emitLeaf sym s) fun s' => .next (serNext s')
  | some .deserTree => if poolFull s then raise .treeOverflow (s.advance 1) else .next (takeLeaf sym s)
  | _ => .refused .elementOutOfPhase

/-- TOKEN_INTERNAL (R152 when written, R155 to R157 when read). -/
def execTokenInternal (s : State) : Out :=
  match s.active with
  | some .serTree => orBusError (emitInternal s) fun s' => .next (serNext s')
  | some .deserTree => if poolFull s then raise .treeOverflow (s.advance 1) else .next (takeInternal s)
  | _ => .refused .elementOutOfPhase

end Sys2Proof.Machine
end

