-- ==== Sys2Proof/Machine/Dispatch.lean ====
section
/-! DEFINITION. The meaning of every instruction of the opcode table, one arm each. -/

namespace Sys2Proof.Machine

def exec (i : Instr) (s : State) : Host.Outcome State Fault Refusal :=
  match i with
  | .compress => Sys2Proof.Machine.execCompress s
  | .decompress => Sys2Proof.Machine.execDecompress s
  | .tokenInternal => Sys2Proof.Machine.execTokenInternal s
  | .tokenLeaf sym => Sys2Proof.Machine.execTokenLeaf sym s
  | .count n => Sys2Proof.Machine.execCount n s
  | .payloadLeft => Sys2Proof.Machine.execPayloadLeft s
  | .payloadRight => Sys2Proof.Machine.execPayloadRight s

end Sys2Proof.Machine
end

