-- ==== Sys2Proof/Machine/Decoder.lean ====
section
/-! DEFINITION. The phases of DECOMPRESS (45_decoder.md): DESER_TREE, RD_COUNT and DECODE. The elements of the stream are
fetched through the bit reader, decoded and executed. -/

namespace Sys2Proof.Machine

/-- The bits of the next token (R155): the flag, then the pool check (R157), then the symbol of a LEAF. -/
def fetchToken (s : State) : Except ErrCode Bits :=
  match peekBit s s.reader.rdpos with
  | .error e => .error e
  | .ok flag =>
    if poolFull s then .error .treeOverflow
    else
      match flag with
      | false => .ok [false]
      | true =>
        match peekBits s (s.reader.rdpos + 1) 8 with
        | .error e => .error e
        | .ok bs => .ok (true :: bs)

/-- The state a failing token leaves (R155): as it was if the flag read fails; past the flag on TREE_OVERFLOW (R157);
if the symbol read fails (R158), past the flag and the symbol bits before the failing one, the slot allocated. -/
def tokenStop (s : State) : State :=
  match peekBit s s.reader.rdpos with
  | .error _ => s
  | .ok _ =>
    if poolFull s then s.advance 1
    else
      State.advance (1 + bitsRead s (s.reader.rdpos + 1) 8)
        { s with work := { s.work with nnodes := s.work.nnodes + 1 } }

/-- The bits of the count field (R192). -/
def fetchCount (s : State) : Except ErrCode Bits :=
  peekBits s s.reader.rdpos 32

/-- The next payload bit (R195, R196). -/
def fetchPayload (s : State) : Except ErrCode Bits :=
  peekBits s s.reader.rdpos 1

/-- Execute the element of format `f` that the fetched bits are, or end the command with the fetch's error in the state
`stop` it leaves; bits that end early are a truncated stream (R91). -/
def execFetched (f : Format) (bits : Except ErrCode Bits) (stop s : State) : Out :=
  match bits with
  | .error e => raise e stop
  | .ok bs =>
    match decode f bs with
    | .error _ => raise .truncatedInput stop
    | .ok (i, _) => exec i s

/-- A step of DESER_TREE (R155). -/
def deserTreeStep (s : State) : Out :=
  execFetched .treeToken (fetchToken s) (tokenStop s) s

/-- The step of RD_COUNT (R192). -/
def rdCountStep (s : State) : Out :=
  execFetched .count32 (fetchCount s) (readStop 32 s) s

/-- `MemWrite(DST_ADDR + i, 1, NODE[n].sym) ; OUTPOS <- i + 1`, and back to the root (R194). -/
def emitSymbol (s : State) : Out :=
  orBusError (memWrite (dstByteAddr s s.writer.outpos) (nodeAt s.work.nodes s.loop.cursor).sym s) fun s' =>
    .next { s' with
      writer := { s'.writer with outpos := s'.writer.outpos + 1 }
      loop := { s'.loop with cursor := s'.work.root } }

/-- A step of DECODE (R194): N symbols written ends the command; at a leaf its symbol is written; at an internal node
the next payload bit is executed. N is SYM_COUNT (R192). -/
def decodeStep (s : State) : Out :=
  if s.results.symCount.toNat ≤ s.writer.outpos then
    raise .noError { s with results := { s.results with outLen := s.results.symCount } }
  else
    match (nodeAt s.work.nodes s.loop.cursor).kind with
    | .leaf => emitSymbol s
    | .internal => execFetched .payloadBit (fetchPayload s) (readStop 1 s) s

end Sys2Proof.Machine
end

