-- ==== Sys2Proof/Machine/Encoder.lean ====
section
/-! DEFINITION. The phases of COMPRESS after CODES (44_encoder.md): SIZE, SER_TREE, WR_COUNT, ENCODE and FINAL. The
elements of the stream are written by executing them. -/

namespace Sys2Proof.Machine

/-- The sum of R173: Σ over s with CODE[s].valid of FREQ[s] · CODE[s].len. -/
def payloadBits (freq : List (Nat × Word)) : List (Nat × CodeEntry) → Nat
  | [] => 0
  | e :: rest =>
    (if e.2.valid then (storeGet 0#32 e.1 freq).toNat * e.2.bits.length else 0) + payloadBits freq rest

/-- The bytes of a stream of `n` bits (R173). -/
def bytesFor (n : Nat) : Nat :=
  (n + 7) / 8

/-- TB of R173: the bits of a serialized tree of `k` leaves (R85). -/
def treeBitsOf (k : Nat) : Nat :=
  10 * k - 1

/-- `need` of R173. -/
def streamBytes (s : State) : Nat :=
  bytesFor (treeBitsOf s.results.leafCount.toNat + 32 + payloadBits s.work.freq s.work.code)

/-- TREE_BITS and the capacity check of SIZE (R173, R171), then SER_TREE. -/
def sizeCheck (tb need : Nat) (stack : List Frame) (s : State) : Out :=
  let s' := { s with results := { s.results with treeBits := BitVec.ofNat 32 tb } }
  if s.latched.dstCap.toNat < need then
    raise .outputOverflow
      { s' with results := { s'.results with outLen := BitVec.ofNat 32 (min need 0xFFFFFFFF) } }
  else .next (State.toPhase .serTree { s' with work := { s'.work with stack := stack } })

/-- The step of SIZE: `empty_stream()` for an empty source (R171), else R173. -/
def sizeStep (s : State) : Out :=
  if s.latched.srcLen = 0#32 then sizeCheck 9 6 [] s
  else sizeCheck (treeBitsOf s.results.leafCount.toNat) (streamBytes s) (walkFrom s.work.root) s

/-- The token SER_TREE writes next (R150); for an empty source the marker, LEAF 0x00, once (R87, R171). -/
def serToken (s : State) : Option Instr :=
  if s.latched.srcLen = 0#32 then
    if s.writer.wbits = 0 then some (.tokenLeaf 0x00#8) else none
  else
    match s.work.stack with
    | [] => none
    | top :: _ =>
      match (nodeAt s.work.nodes top.node).kind with
      | .leaf => some (.tokenLeaf (nodeAt s.work.nodes top.node).sym)
      | .internal => some .tokenInternal

/-- A step of SER_TREE. -/
def serTreeStep (s : State) : Out :=
  match serToken s with
  | some i => exec i s
  | none => .next (s.toPhase .wrCount)

/-- The step of WR_COUNT (R175). -/
def wrCountStep (s : State) : Out :=
  exec (.count s.latched.srcLen) s

/-- The payload element that appends a bit of a code (R140). -/
def payloadInstr : Bool → Instr
  | false => .payloadLeft
  | true => .payloadRight

/-- `CODE[b].bits` for write_code (R176); free, of at most 255 bits, when the entry is not valid (R104; log 11). -/
def loadCode (sym : Byte) (s : State) : State :=
  let c := codeAt s.work.code sym
  if c.valid then { s with loop := { s.loop with codeRest := c.bits } }
  else { s with
    loop := { s.loop with codeRest := (Config.freeCode s.draws).take Config.maxCodeLen }
    draws := s.draws + 1 }

/-- A step of ENCODE (R176): the next bit of the code being written, else the next source byte. -/
def encodeStep (s : State) : Out :=
  match s.loop.codeRest with
  | b :: _ => exec (payloadInstr b) s
  | [] =>
    if s.loop.idx < s.latched.srcLen.toNat then
      match readSource s s.loop.idx with
      | .error e => raise e s
      | .ok sym => .next (loadCode sym { s with loop := { s.loop with idx := s.loop.idx + 1 } })
    else .next (s.toPhase .final)

/-- The step of FINAL (R177): flush, OUT_LEN, and the end of the command (R170). -/
def finalStep (s : State) : Out :=
  orBusError (finalize s) fun s' =>
    raise .noError { s' with results := { s'.results with outLen := BitVec.ofNat 32 s'.writer.outpos } }

end Sys2Proof.Machine
end

