-- ==== Sys2Proof/Machine/Frequency.lean ====
section
/-! DEFINITION. The FREQ phase (41_tree_builder.md section 1): one source byte counted in a step. -/

namespace Sys2Proof.Machine

/-- `FREQ[b] <- FREQ[b] + 1` (R120). -/
def countSymbol (sym : Byte) (freq : List (Nat × Word)) : List (Nat × Word) :=
  storeSet 0#32 sym.toNat (freqAt freq sym + 1#32) freq

/-- The end of FREQ (R120): SYM_COUNT, then BUILD, or SIZE for an empty source (R170, R171). -/
def freqDone (s : State) : State :=
  State.toPhase (if s.latched.srcLen = 0#32 then .size else .build)
    { s with results := { s.results with symCount := s.latched.srcLen } }

/-- A step of FREQ (R120). -/
def freqStep (s : State) : Out :=
  if s.loop.idx < s.latched.srcLen.toNat then
    match readSource s s.loop.idx with
    | .error e => raise e s
    | .ok b =>
      .next { s with
        work := { s.work with freq := countSymbol b s.work.freq }
        loop := { s.loop with idx := s.loop.idx + 1 } }
  else .next (freqDone s)

end Sys2Proof.Machine
end

