-- ==== Sys2Proof/Machine/TreeBuilder.lean ====
section
/-! DEFINITION. The BUILD phase (41_tree_builder.md section 2): the leaves allocated in a step, then one merge a step. -/

namespace Sys2Proof.Machine

/-- The order of the frequency table (R122): count first, then symbol value. -/
def entryBefore (a b : Nat × Word) : Bool :=
  decide (a.2.toNat < b.2.toNat) || (decide (a.2.toNat = b.2.toNat) && decide (a.1 < b.1))

/-- Insert an entry in the order of R122. -/
def insertEntry (e : Nat × Word) : List (Nat × Word) → List (Nat × Word)
  | [] => [e]
  | x :: rest => if entryBefore e x then e :: x :: rest else x :: insertEntry e rest

/-- The entries of the frequency table sorted by the key (FREQ[s], s) (R121, R122). -/
def sortEntries (freq : List (Nat × Word)) : List (Nat × Word) :=
  freq.foldr insertEntry []

/-- `NODE[j] <- { kind: LEAF, sym: s, freq: c }` for the entries in turn, from slot `j` on (R122). -/
def allocLeaves (j : Nat) : List (Nat × Word) → List (Nat × Node) → List (Nat × Node)
  | [], nodes => nodes
  | e :: rest, nodes => allocLeaves (j + 1) rest (setLeaf j (BitVec.ofNat 8 e.1) e.2 nodes)

/-- The extraction order (R126): the key (NODE[n].freq, n) of `a` is below that of `b`. -/
def keyBefore (nodes : List (Nat × Node)) (a b : Nat) : Bool :=
  decide ((nodeAt nodes a).freq.toNat < (nodeAt nodes b).freq.toNat)
    || (decide ((nodeAt nodes a).freq.toNat = (nodeAt nodes b).freq.toNat) && decide (a < b))

/-- The member with the smallest key among `best` and a list. -/
def minMember (nodes : List (Nat × Node)) (best : Nat) : List Nat → Nat
  | [] => best
  | x :: rest => minMember nodes (if keyBefore nodes x best then x else best) rest

/-- `extract_min(WSET)` (R126): the member with the smallest key, and the set without it. -/
def extractMin (nodes : List (Nat × Node)) : List Nat → Option (Nat × List Nat)
  | [] => none
  | x :: rest =>
    let m := minMember nodes x rest
    some (m, (x :: rest).erase m)

/-- The end of BUILD (R123, R125): ROOT, then CODES from it. -/
def buildDone (root : Nat) (s : State) : State :=
  State.toPhase .codes { s with work := { s.work with root := root, stack := walkFrom root } }

/-- BUILD step 1 (R122): the leaves in order, NNODES and LEAF_COUNT; a single leaf ends BUILD (R123), more of them
form the working set (R125). -/
def buildLeaves (s : State) : State :=
  let e := sortEntries s.work.freq
  let k := e.length
  let s' := { s with
    work := { s.work with
      nodes := allocLeaves 0 e s.work.nodes
      nnodes := k
      wset := if 2 ≤ k then List.range k else s.work.wset }
    results := { s.results with leafCount := BitVec.ofNat 32 k } }
  if 2 ≤ k then s' else buildDone 0 s'

/-- One merge (R125, R127): `a`, extracted first, is the left child. -/
def mergeNodes (a b : Nat) (wset : List Nat) (s : State) : State :=
  let n := s.work.nnodes
  let node := { nodeAt s.work.nodes n with
    kind := .internal, left := a, right := b
    freq := (nodeAt s.work.nodes a).freq + (nodeAt s.work.nodes b).freq }
  { s with work := { s.work with
      nodes := setNode n node s.work.nodes, nnodes := n + 1, wset := wset ++ [n] } }

/-- A step of BUILD. -/
def buildStep (s : State) : Out :=
  if s.work.nnodes = 0 then .next (buildLeaves s)
  else
    match extractMin s.work.nodes s.work.wset with
    | none => .next (buildDone s.work.root s)
    | some (a, w) =>
      match extractMin s.work.nodes w with
      | none => .next (buildDone a s)
      | some (b, w') => .next (mergeNodes a b w' s)

end Sys2Proof.Machine
end

