-- ==== Sys2Proof/Machine/Engine.lean ====
section
/-! DEFINITION. The engine (R50, R210): the CHECK phase (46_host_interface.md R212) and the sequencer over the phases. -/

namespace Sys2Proof.Machine

/-- The dispatch at the end of CHECK (R212) to the first phase of the command (R170, R190). -/
def startPhases (i : Instr) (s : State) : State :=
  match i with
  | .decompress => State.toPhase .deserTree (fromBytes s)
  | _ => s.toPhase .freq

/-- The step of CHECK (R212): clause (a) on the command word, (b), (c) and (d) on the latched windows. -/
def checkStep (s : State) : Out :=
  match decodeCmd s.cmd with
  | .error _ => raise .invalidArgument s
  | .ok i =>
    if passesTop s.latched.srcAddr s.latched.srcLen then raise .invalidArgument s
    else if passesTop s.latched.dstAddr s.latched.dstCap then raise .invalidArgument s
    else if overlap s.latched then raise .invalidArgument s
    else .next (startPhases i s)

/-- A step of the running command in its phase (R172, R191). -/
def phaseStep (p : Phase) (s : State) : Out :=
  match p with
  | .idle => .fault .sequencerLost
  | .check => checkStep s
  | .freq => freqStep s
  | .build => buildStep s
  | .codes => codesStep s
  | .size => sizeStep s
  | .serTree => serTreeStep s
  | .wrCount => wrCountStep s
  | .encode => encodeStep s
  | .final => finalStep s
  | .deserTree => deserTreeStep s
  | .rdCount => rdCountStep s
  | .decode => decodeStep s

/-- The engine's move: a step of the running command; nothing while BUSY = 0 (R60, R246). -/
def engineStep (s : State) : Out :=
  match s.active with
  | none => .next s
  | some p => phaseStep p s

end Sys2Proof.Machine
end

