-- ==== Sys2Proof/Machine/HostPort.lean ====
section
/-! DEFINITION. The host's moves (46_host_interface.md R210): the register port (R71, R214 to R216), the host's accesses
to platform memory (R266) and reset (R260, R261). -/

namespace Sys2Proof.Machine

/-- The registers of the block (R21). -/
inductive Reg where
  | cmd | status | srcAddr | srcLen | dstAddr | dstCap | outLen | symCount | leafCount | treeBits | irqEn | id
  | reserved
deriving DecidableEq, Repr

/-- The register at a word offset (R21): offset 4·w. -/
def regAt : Nat → Reg
  | 0 => .cmd
  | 1 => .status
  | 2 => .srcAddr
  | 3 => .srcLen
  | 4 => .dstAddr
  | 5 => .dstCap
  | 6 => .outLen
  | 7 => .symCount
  | 8 => .leafCount
  | 9 => .treeBits
  | 10 => .irqEn
  | 11 => .id
  | _ => .reserved

/-- REG_BASE (R7, R72): 64-byte aligned. -/
def regBaseAddr (p : Platform) : Word :=
  p.regBase ++ 0#6

/-- The bus address of the register at word offset `w` (R13). -/
def regAddr (p : Platform) (w : Nat) : Word :=
  regBaseAddr p + BitVec.ofNat 32 (4 * w)

/-- The register a host access reaches (R71): a 32-bit access at a multiple of 4 inside the block; none otherwise. -/
def accessedReg (p : Platform) (addr : Word) (bytes : Nat) : Option Reg :=
  let off := (addr - regBaseAddr p).toNat
  if bytes = 4 ∧ off < 64 ∧ off % 4 = 0 then some (regAt (off / 4)) else none

/-! ### Register reads -/

/-- A register's value while BUSY = 0 (R21 to R39). -/
def readReg (r : Reg) (s : State) : Word :=
  match r with
  | .cmd => s.cmd
  | .status => statusWord s
  | .srcAddr => s.win.srcAddr
  | .srcLen => s.win.srcLen
  | .dstAddr => s.win.dstAddr
  | .dstCap => s.win.dstCap
  | .outLen => s.results.outLen
  | .symCount => s.results.symCount
  | .leafCount => s.results.leafCount
  | .treeBits => s.results.treeBits
  | .irqEn => BitVec.ofNat 32 s.irqEn.toNat
  | .id => Config.idValue
  | .reserved => 0#32

/-- The registers whose value is not fixed while BUSY = 1 (R40). -/
def Reg.openWhileBusy : Reg → Bool
  | .status => true
  | .outLen => true
  | .symCount => true
  | .leafCount => true
  | .treeBits => true
  | _ => false

/-- What a read of such a register returns while BUSY = 1, from draw `n` (R40; log 6). -/
def busyRead (r : Reg) (n : Nat) : Word :=
  match r with
  | .status => busyStatusWord (Config.freePhase n)
  | _ => Config.freeWord n

/-- A host read of a register (R216, R40). -/
def hostRead (r : Reg) (s : State) : State :=
  if s.status.busy && r.openWhileBusy then { s with rdata := busyRead r s.draws, draws := s.draws + 1 }
  else { s with rdata := readReg r s }

/-! ### Register writes -/

/-- A host write of CMD (R211, R213): the word is an instruction, or an illegal word, which starts a command that CHECK
ends (R22, R212). -/
def hostWriteCmd (v : Word) (s : State) : Out :=
  match decodeCmd v with
  | .ok i => exec i s
  | .error _ => .next (commandWrite v s)

/-- A host write of a register other than CMD (R214, R215, R37). -/
def hostWriteReg (r : Reg) (v : Word) (s : State) : State :=
  match r with
  | .irqEn => { s with irqEn := v.getLsbD 0 }
  | .status =>
    if s.status.busy then s
    else if v.getLsbD 1 then { s with status := { s.status with done := false } } else s
  | .srcAddr => if s.status.busy then s else { s with win := { s.win with srcAddr := v } }
  | .srcLen => if s.status.busy then s else { s with win := { s.win with srcLen := v } }
  | .dstAddr => if s.status.busy then s else { s with win := { s.win with dstAddr := v } }
  | .dstCap => if s.status.busy then s else { s with win := { s.win with dstCap := v } }
  | _ => s

/-- A host write of a register. -/
def hostWrite (r : Reg) (v : Word) (s : State) : Out :=
  match r with
  | .cmd => hostWriteCmd v s
  | _ => .next (hostWriteReg r v s)

/-! ### The host's accesses to platform memory (R210, R266) -/

/-- A host read of a byte of platform memory: not inside the destination window while a command runs (R266 (b), U14).
It does not ask BUS_FAULT, which the spec applies to the block's memory port alone: the model's choice (log 30). -/
def hostMemRead (a : Word) (s : State) : Out :=
  if s.status.busy && inDest s.latched a.toNat then .refused .hostDuty
  else .next { s with rdata := (readByte a.toNat s.mem).setWidth 32 }

/-- A host write of a byte of platform memory: not inside either window while a command runs (R266 (a), (b), U21). It
does not ask BUS_FAULT, which the spec applies to the block's memory port alone: the model's choice (log 30). -/
def hostMemWrite (a : Word) (v : Byte) (s : State) : Out :=
  if s.status.busy && (inSource s.latched a.toNat || inDest s.latched a.toNat) then .refused .hostDuty
  else .next { s with mem := writeByte a.toNat v s.mem }

/-! ### Reset -/

/-- Platform memory with every byte of the destination window free, the source window kept (R261, U18; log 8): the
first `n` bytes of the window, byte `j` from draw `draw + j`. -/
def freeDest (w : Windows) (draw : Nat) : Nat → List Host.Cell → List Host.Cell
  | 0, m => m
  | n + 1, m =>
    let a := w.dstAddr.toNat + n
    let m' := freeDest w draw n m
    if a < Config.addressSpace ∧ inSource w a = false then writeByte a (Config.freeByte (draw + n)) m' else m'

/-- Reset (R260, R261): the block as State.reset has it; the platform, its memory, the host and the model's counter are
not the block's. -/
def resetBlock (s : State) : State :=
  let cap := if s.status.busy then s.latched.dstCap.toNat else 0
  { State.reset with
    platform := s.platform
    mem := freeDest s.latched s.draws cap s.mem
    host := s.host
    rdata := s.rdata
    draws := s.draws + cap }

/-! ### One move -/

/-- A move of the host, already taken off its queue; `pass` gives the turn to the engine (log 2). -/
def hostMove (m : HostMove) (s : State) : Out :=
  match m with
  | .pass => engineStep s
  | .read addr bytes =>
    match accessedReg s.platform addr bytes with
    | none => .refused .registerAccess
    | some r => .next (hostRead r s)
  | .write addr bytes v =>
    match accessedReg s.platform addr bytes with
    | none => .refused .registerAccess
    | some r => hostWrite r v s
  | .memRead addr => hostMemRead addr s
  | .memWrite addr v => hostMemWrite addr v s
  | .reset => .next (resetBlock s)

/-- The next move: the host's first pending one, else the engine's (log 2, log 25). -/
def nextMove (s : State) : Out :=
  match s.host with
  | [] => engineStep s
  | m :: rest => hostMove m { s with host := rest }

/-! ### Placing an instruction where the next step fetches it (log 20) -/

/-- A running DECOMPRESS in phase `p` whose stream, at address 0, is `bits`, with room in its destination for every
count the field can hold up to `0xFFFFFF00`. -/
def placeStream (p : Phase) (bits : Bits) (s : State) : State :=
  let bytes := bytesOfBits bits
  let mem := (List.range bytes.length).foldl (fun m j => writeByte j (bytes.getD j 0#8) m) s.mem
  State.toPhase p
    { startCommand 2#32 { s with win := ⟨0#32, BitVec.ofNat 32 bytes.length, 0x100#32, 0xFFFFFF00#32⟩ } with
      mem := mem
      host := []
      platform := { s.platform with faults := [] } }

/-- A two-leaf tree with its walk at the root, and one symbol still to decode. -/
def placeTree (s : State) : State :=
  { s with
    work := { s.work with
      nodes := setNode 0 ⟨.internal, 0#8, 0#32, 1, 2⟩ (setLeaf 1 0#8 0#32 (setLeaf 2 0#8 0#32 s.work.nodes))
      nnodes := 3
      root := 0 }
    results := { s.results with symCount := 1#32 }
    loop := ⟨0, [], 0⟩ }

/-- The state with an instruction placed where the next step fetches it: a command word as the host's next write of
CMD, a stream element as the next bits of a running DECOMPRESS in the phase that reads it. -/
def placeInstr (i : Instr) (w : Nat) (s : State) : State :=
  match i.format with
  | .cmd => { s with host := .write (regAddr s.platform 0) 4 (BitVec.ofNat 32 w) :: s.host }
  | .treeToken => placeStream .deserTree (encode i) s
  | .count32 => placeStream .rdCount (encode i) s
  | .payloadBit => placeTree (placeStream .decode (encode i) s)

end Sys2Proof.Machine
end

