-- ==== Sys2Proof/Machine/Step.lean ====
section
/-! DEFINITION. One step of the machine: the host's next move, or the engine's (R210). -/

namespace Sys2Proof.Machine

/-- One step. -/
def step (s : State) : Host.Outcome State Fault Refusal :=
  nextMove s

/-- `s` with the instruction of the opcode table's numbering placed where the next step fetches it (log 20); a word that
decodes to no instruction changes nothing. -/
def State.withFetchWord (s : State) (nbits w : Nat) : State :=
  match decodeTableWord nbits w with
  | some i => placeInstr i w s
  | none => s

end Sys2Proof.Machine
end

