-- ==== Sys2Proof/Safety.lean ====
section
/-! DEFINITION. The terms claims use: whose turn it is, the written stream, trees and what the node pool says of them,
the invariants, and the work a running command has left. -/

namespace Sys2Proof.Safety

open Sys2Proof.Machine

/-! ### Turns and phases -/

/-- The engine moves in `s`, and `u` is the state it moves from: the host has no move pending, or passes (R210; log 2). -/
def EngineTurn (s u : State) : Prop :=
  (s.host = [] ∧ u = s) ∨ ∃ rest, s.host = .pass :: rest ∧ u = { s with host := rest }

/-- `k` steps, stopping at the first fault or refusal. -/
def run : Nat → State → Out
  | 0, s => .next s
  | k + 1, s =>
    match step s with
    | .next t => run k t
    | .fault r => .fault r
    | .refused r => .refused r

/-- A command runs in phase `p`. -/
abbrev Running (p : Phase) (s : State) : Prop :=
  s.status.busy = true ∧ s.status.phase = p

/-- The phase that may follow a phase of a running command (R172, R191). -/
def phaseFollows : Phase → Phase → Bool
  | .check, .freq => true
  | .freq, .build => true
  | .freq, .size => true
  | .build, .codes => true
  | .codes, .size => true
  | .size, .serTree => true
  | .serTree, .wrCount => true
  | .wrCount, .encode => true
  | .wrCount, .final => true
  | .encode, .final => true
  | .check, .deserTree => true
  | .deserTree, .rdCount => true
  | .rdCount, .decode => true
  | _, _ => false

/-- The phases in which a command may end with a code (the table of R230; R170, R190 for NONE). -/
def codeRaisedIn : ErrCode → Phase → Bool
  | .noError, p => p == .final || p == .decode
  | .truncatedInput, p => p == .deserTree || p == .rdCount || p == .decode
  | .invalidArgument, p => p == .check
  | .outputOverflow, p => p == .size || p == .rdCount
  | .treeOverflow, p => p == .deserTree
  | .busError, p =>
    p == .freq || p == .serTree || p == .wrCount || p == .encode || p == .final
      || p == .deserTree || p == .rdCount || p == .decode

/-! ### The written stream -/

/-- The stream bits of the first `n` destination bytes (R65). -/
def destBits (s : State) (n : Nat) : Bits :=
  (List.range n).flatMap fun j => msbBits (readByte (dstByteAddr s j).toNat s.mem).toNat 8

/-- The stream bits a command has written (R65, R100): the destination bytes so far, then the bits in ACC. -/
def writtenBits (s : State) : Bits :=
  destBits s s.writer.outpos ++ (msbBits s.writer.acc.toNat 8).take s.writer.nacc.toNat

/-- The number of bytes that `n` more bits complete. -/
def bytesCompleted (s : State) (n : Nat) : Nat :=
  (s.writer.nacc.toNat + n) / 8

/-- `n` more bits can be written: the bytes they complete lie in the destination window (R104), which lies in the
address space (R66), and none of their writes returns a bus error (R63). -/
def CanAppend (s : State) (n : Nat) : Prop :=
  passesTop s.latched.dstAddr s.latched.dstCap = false
    ∧ s.writer.outpos + bytesCompleted s n ≤ s.latched.dstCap.toNat
    ∧ ∀ j, s.writer.outpos ≤ j → j < s.writer.outpos + bytesCompleted s n →
        busFault s.platform .write (dstByteAddr s j) = false

/-- From `s` to `t` the bits `bs` were appended to the stream (R100 to R102), and memory changed in no byte but those
they completed. -/
def Appended (s t : State) (bs : Bits) : Prop :=
  writtenBits t = writtenBits s ++ bs
    ∧ t.writer.wbits = s.writer.wbits + bs.length
    ∧ t.writer.outpos = s.writer.outpos + bytesCompleted s bs.length
    ∧ ∀ a, (∀ j, s.writer.outpos ≤ j → j < t.writer.outpos → a ≠ (dstByteAddr s j).toNat) →
        readByte a t.mem = readByte a s.mem

/-- The source bytes of a command, in order (R65), as memory holds them. -/
def sourceBytes (s : State) : List Byte :=
  (List.range s.latched.srcLen.toNat).map fun i => readByte (srcByteAddr s i).toNat s.mem

/-- No read of a source byte returns a bus error (R62). -/
def SourceReadable (s : State) : Prop :=
  ∀ i, i < s.latched.srcLen.toNat → busFault s.platform .read (srcByteAddr s i) = false

/-- No write of one of the first `n` destination bytes returns a bus error (R63). -/
def DestWritable (s : State) (n : Nat) : Prop :=
  ∀ j, j < n → busFault s.platform .write (dstByteAddr s j) = false

/-- `read_bit()` at stream bit `k` succeeds (R106): the bit remains, and the read of its byte returns no bus error. -/
abbrev BitReadable (s : State) (k : Nat) : Prop :=
  k < s.reader.rdlimit ∧ busFault s.platform .read (srcByteAddr s (k / 8)) = false

/-- `read_bit()` at stream bit `k` fails with `e` (R106): no bit remains, whatever BUS_FAULT says, or the read of its
byte returns a bus error. -/
abbrev BitFails (s : State) (k : Nat) (e : ErrCode) : Prop :=
  (s.reader.rdlimit ≤ k ∧ e = .truncatedInput)
    ∨ (k < s.reader.rdlimit ∧ busFault s.platform .read (srcByteAddr s (k / 8)) = true ∧ e = .busError)

/-- From the reader on `j` bits can be read, and the read of the next one fails with `e`. -/
abbrev FailsAfter (s : State) (j : Nat) (e : ErrCode) : Prop :=
  (∀ i, i < j → BitReadable s (s.reader.rdpos + i)) ∧ BitFails s (s.reader.rdpos + j) e

/-- Of the bytes that `n` more bits complete in the destination window, those before destination byte `k` can be
written, and the write of byte `k` returns a bus error (R63, R100). -/
def WriteFaultsAt (s : State) (n k : Nat) : Prop :=
  passesTop s.latched.dstAddr s.latched.dstCap = false
    ∧ s.writer.outpos ≤ k ∧ k < s.writer.outpos + bytesCompleted s n ∧ k < s.latched.dstCap.toNat
    ∧ (∀ j, s.writer.outpos ≤ j → j < k → busFault s.platform .write (dstByteAddr s j) = false)
    ∧ busFault s.platform .write (dstByteAddr s k) = true

/-- A command in `s` was writing the bits `bs` and ended in `t` because the write of destination byte `k` returned a
bus error (R63, R100, R235, R236): the bytes before it hold the stream, OUT_LEN counts them, that byte is unspecified;
ACC holds the byte that could not be written, and WBITS counts its last bit; every other byte of memory and everything
but the writer and the model's counter is as it was. Of NACC nothing is said: R100's 8 does not fit it (log 12). -/
def EndedByWriteOf (s t : State) (bs : Bits) (k : Nat) : Prop :=
  t = { s with
      status := ⟨false, true, .busError, s.status.phase⟩
      results := { s.results with outLen := BitVec.ofNat 32 k }
      mem := t.mem, writer := t.writer, draws := t.draws }
    ∧ t.writer.outpos = k
    ∧ destBits t k = (writtenBits s ++ bs).take (8 * k)
    ∧ msbBits t.writer.acc.toNat 8 = ((writtenBits s ++ bs).drop (8 * k)).take 8
    ∧ t.writer.wbits + (writtenBits s).length = s.writer.wbits + 8 * (k + 1)
    ∧ ∀ a, (∀ j, s.writer.outpos ≤ j → j ≤ k → a ≠ (dstByteAddr s j).toNat) → readByte a t.mem = readByte a s.mem

/-- The bits of the source window, as the reader reads them (R106). -/
def sourceBits (s : State) : Bits :=
  bitsOfBytes (sourceBytes s)

/-! ### Trees (R14) -/

/-- A full binary tree over symbols. -/
inductive FullTree where
  | leaf (sym : Byte)
  | node (l r : FullTree)
deriving DecidableEq, Repr

/-- The number of nodes. -/
def FullTree.size : FullTree → Nat
  | .leaf _ => 1
  | .node l r => l.size + r.size + 1

/-- The number of leaves. -/
def FullTree.leaves : FullTree → Nat
  | .leaf _ => 1
  | .node l r => l.leaves + r.leaves

/-- The serialized tree (R85). -/
def FullTree.serialize : FullTree → Bits
  | .leaf sym => true :: msbBits sym.toNat 8
  | .node l r => false :: (l.serialize ++ r.serialize)

/-- The recursive walk of R140: the code table after walking a tree with path `p` to its root. -/
def FullTree.assignCodes (p : Bits) : FullTree → List (Nat × CodeEntry) → List (Nat × CodeEntry)
  | .leaf sym, code => setCode sym p code
  | .node l r, code => r.assignCodes (p ++ [true]) (l.assignCodes (p ++ [false]) code)

/-- The leaf a path leads to, if the path ends at one (R194 to R196). -/
def FullTree.follow : FullTree → Bits → Option Byte
  | .leaf sym, [] => some sym
  | .leaf _, _ :: _ => none
  | .node _ _, [] => none
  | .node l r, b :: bs => if b then r.follow bs else l.follow bs

/-- A stream without its padding (R83): the serialized tree, the symbol count, and the symbols' codes in order. -/
def FullTree.stream (tree : FullTree) (codes : List Bits) : Bits :=
  tree.serialize ++ (msbBits codes.length 32 ++ codes.flatten)

/-- Slot `n` of the node pool is the root of a tree (R42). -/
def Represents (nodes : List (Nat × Node)) : Nat → FullTree → Prop
  | n, .leaf sym => (nodeAt nodes n).kind = .leaf ∧ (nodeAt nodes n).sym = sym
  | n, .node l r =>
    (nodeAt nodes n).kind = .internal ∧ Represents nodes (nodeAt nodes n).left l
      ∧ Represents nodes (nodeAt nodes n).right r

/-! ### The invariants -/

/-- "ACC bits below the fill point are 0" (R100). -/
def AccClean (w : Writer) : Prop :=
  ∀ i, i < 8 - w.nacc.toNat → w.acc.getLsbD i = false

/-- What holds of registers, memory and the stream positions in every state of a run. -/
structure MachineInv (s : State) : Prop where
  /-- Platform memory keeps its canonical form. -/
  memWf : Memory.wf s.mem
  /-- "DONE and BUSY are never both 1" (R25). -/
  busyDone : ¬(s.status.busy = true ∧ s.status.done = true)
  /-- While BUSY = 1, ERRCODE = 0 (R27, R40). -/
  busyErr : s.status.busy = true → s.status.errcode = .noError
  /-- A running command has a phase (R28). -/
  busyPhase : s.status.busy = true → s.status.phase ≠ .idle
  /-- Past CHECK the windows lie in the address space and are disjoint (R66). -/
  windows : s.status.busy = true → s.status.phase ≠ .check → windowsLegal s.latched = true
  /-- The reader is inside the source window (R48, R108). -/
  readerIn : s.reader.rdpos ≤ s.reader.rdlimit ∧ s.reader.rdlimit = 8 * s.latched.srcLen.toNat
  /-- The source index is inside the source window (R50, R120). -/
  idxIn : s.loop.idx ≤ s.latched.srcLen.toNat
  /-- No more bytes are written than the destination window holds (R32). -/
  outIn : s.writer.outpos ≤ s.latched.dstCap.toNat
  /-- While a command runs the unfilled bits of ACC are 0 (R100, R103); a bus error can end one with ACC full. -/
  accClean : s.status.busy = true → AccClean s.writer
  /-- "NACC = WBITS mod 8 until finalize" (R104). -/
  naccIn : s.status.busy = true → s.writer.nacc.toNat = s.writer.wbits % 8
  /-- In DECODE, N fits the destination (R193). -/
  decodeCap : Running .decode s → s.results.symCount.toNat ≤ s.latched.dstCap.toNat

/-- The sum of the frequency table (R121, R124). -/
def freqTotal (freq : List (Nat × Word)) : Nat :=
  (freq.map fun e => e.2.toNat).sum

/-- The sum of the frequencies of a set of nodes. -/
def nodeTotal (nodes : List (Nat × Node)) (w : List Nat) : Nat :=
  (w.map fun n => (nodeAt nodes n).freq.toNat).sum

/-- Every internal node below `n` has both children below itself (R125: slots are allocated in increasing order). -/
def ChildrenBelow (nodes : List (Nat × Node)) (n : Nat) : Prop :=
  ∀ i, i < n → (nodeAt nodes i).kind = .internal → (nodeAt nodes i).left < i ∧ (nodeAt nodes i).right < i

/-- The walk stack of CODES and SER_TREE holds allocated slots, the ones under its top internal (R46). -/
def StackIn (nodes : List (Nat × Node)) (n : Nat) : List Frame → Prop
  | [] => True
  | f :: rest => f.node < n ∧ ∀ g ∈ rest, g.node < n ∧ (nodeAt nodes g.node).kind = .internal

/-- The children that entries under the top of the deserializer's stack still await (R157). -/
def awaitedBelow : List Frame → Nat
  | [] => 0
  | f :: rest => (if f.mark = .left then 1 else 0) + awaitedBelow rest

/-- The children the deserializer's stack still awaits (R157). -/
def awaited : List Frame → Nat
  | [] => 0
  | f :: rest => (if f.mark = .left then 2 else 1) + awaitedBelow rest

/-- BUILD after its leaves (R125): the leaves have their slots; the working set is not empty, holds allocated slots, and
accounts for every source byte (R124, R129); each merge makes one node and one member fewer. -/
structure Merging (s : State) : Prop where
  leavesIn : s.results.leafCount.toNat ≤ s.work.nnodes
  nonempty : s.work.wset ≠ []
  allocated : ∀ n ∈ s.work.wset, n < s.work.nnodes
  count : s.work.nnodes + s.work.wset.length = 2 * s.results.leafCount.toNat
  total : nodeTotal s.work.nodes s.work.wset = s.latched.srcLen.toNat

/-- Every node index the state holds is that of a slot of the node pool, so it fits the 9 bits of R42 and R43. -/
structure IndicesIn (s : State) : Prop where
  /-- The children of every slot (R42). -/
  children : ∀ n, (nodeAt s.work.nodes n).left < Config.nodePool ∧ (nodeAt s.work.nodes n).right < Config.nodePool
  /-- ROOT (R43). -/
  root : s.work.root < Config.nodePool
  /-- The members of WSET (R44). -/
  members : ∀ n ∈ s.work.wset, n < Config.nodePool
  /-- The nodes on STACK (R46). -/
  frames : ∀ f ∈ s.work.stack, f.node < Config.nodePool
  /-- The node of DECODE's walk (R50, R194). -/
  cursor : s.loop.cursor < Config.nodePool

/-- What holds of the tables of R41 to R46 in every state of a run. -/
structure TreeInv (s : State) : Prop where
  /-- FREQ keeps its canonical form, one counter per symbol (R41). -/
  freqWf : storeWf 0#32 256 s.work.freq
  /-- At most 511 slots are allocated (R43). -/
  slots : s.work.nnodes ≤ Config.nodePool
  /-- "values 0..256 used" (R35). -/
  leaves : s.results.leafCount.toNat ≤ 256
  /-- Before BUILD no slot is allocated and nothing is being walked (R211), and FREQ has counted the bytes read. -/
  early : Running .check s ∨ Running .freq s →
    s.work.nnodes = 0 ∧ s.work.stack = [] ∧ s.loop.idx = freqTotal s.work.freq
  /-- From the end of FREQ to CODES the counters add up to L (R120, R124). -/
  counted : Running .build s ∨ Running .codes s →
    freqTotal s.work.freq = s.latched.srcLen.toNat ∧ s.latched.srcLen ≠ 0#32
  /-- BUILD has allocated nothing yet, or is merging. -/
  building : Running .build s → s.work.nnodes = 0 ∨ Merging s
  /-- The tree of COMPRESS has its children below their parents. -/
  below : Running .build s ∨ Running .codes s ∨ Running .size s ∨ Running .serTree s →
    ChildrenBelow s.work.nodes s.work.nnodes
  /-- ROOT is an allocated slot (R43). -/
  rooted : Running .codes s ∨ Running .size s → s.latched.srcLen ≠ 0#32 → s.work.root < s.work.nnodes
  /-- The walks of CODES and SER_TREE stay in the tree. -/
  walking : Running .codes s ∨ Running .serTree s → StackIn s.work.nodes s.work.nnodes s.work.stack
  /-- In DESER_TREE the leaves, the slots and the awaited children balance (R155, R157). -/
  deser : Running .deserTree s →
    (s.work.stack = [] ∧ s.work.nnodes = 0)
      ∨ (s.work.stack ≠ [] ∧
          2 * countLeaves s.work.nodes s.work.nnodes + awaited s.work.stack = s.work.nnodes + 1)
  /-- CODE keeps its canonical form, one entry per symbol (R45). -/
  codeWf : storeWf CodeEntry.cleared 256 s.work.code
  /-- In DESER_TREE the nodes that await a child are allocated and distinct, the youngest on top (R155). -/
  awaiting : Running .deserTree s →
    (s.work.stack.map Frame.node).Pairwise (· > ·) ∧ ∀ f ∈ s.work.stack, f.node < s.work.nnodes
  /-- NODE keeps its canonical form, one entry per slot (R42). -/
  nodesWf : storeWf Node.unwritten Config.nodePool s.work.nodes
  /-- Every node index fits its 9 bits (R42, R43). -/
  indices : IndicesIn s
  /-- WSET is "a set of at most 256 node indices" (R44). -/
  wsetFits : s.work.wset.length ≤ Config.wsetSize
  /-- In COMPRESS the first slots, LEAF_COUNT of them, are the leaves (R122). -/
  leavesFirst : Running .build s ∨ Running .codes s ∨ Running .size s ∨ Running .serTree s →
    ∀ i, i < s.work.nnodes → i < s.results.leafCount.toNat → (nodeAt s.work.nodes i).kind = .leaf
  /-- BUILD's tree of K leaves has 2·K − 1 nodes (R129). -/
  built : Running .codes s ∨ Running .size s ∨ Running .serTree s → s.latched.srcLen ≠ 0#32 →
    s.work.nnodes + 1 = 2 * s.results.leafCount.toNat
  /-- The walks of CODES and SER_TREE go down: a node stands above its ancestors (R46). -/
  descending : Running .codes s ∨ Running .serTree s → (s.work.stack.map Frame.node).Pairwise (· < ·)
  /-- For an empty source SER_TREE walks nothing (R171). -/
  emptyWalk : Running .serTree s → s.latched.srcLen = 0#32 → s.work.stack = []
  /-- The walks of CODES and SER_TREE have at most LEAF_COUNT entries on the stack, so "at most 256" (R142, R150). -/
  walkDepth : Running .codes s ∨ Running .serTree s → s.work.stack.length ≤ s.results.leafCount.toNat
  /-- No stack has more than STACK_DEPTH entries (R46, R142, R157). -/
  stackFits : s.work.stack.length ≤ Config.stackDepth
  /-- No code is longer than MAX_CODE_LEN (R45, R141). -/
  codesFit : ∀ e ∈ s.work.code, e.2.bits.length ≤ Config.maxCodeLen

/-! ### The work left -/

/-- How many phases may still come. -/
def phaseRank : Phase → Nat
  | .check => 9
  | .freq => 8
  | .build => 7
  | .codes => 6
  | .size => 5
  | .serTree => 4
  | .wrCount => 3
  | .encode => 2
  | .final => 1
  | .deserTree => 3
  | .rdCount => 2
  | .decode => 1
  | .idle => 0

/-- What is still to be walked under the top of the walk stack. -/
def pendingWork (nodes : List (Nat × Node)) : List Frame → Nat
  | [] => 0
  | f :: rest => (if f.mark = .left then 3 ^ (nodeAt nodes f.node).right else 0) + pendingWork nodes rest

/-- What is still to be walked. -/
def walkWork (nodes : List (Nat × Node)) : List Frame → Nat
  | [] => 0
  | f :: rest => 3 ^ f.node + pendingWork nodes rest

/-- The work left inside a phase, in two parts, the first weighing more. -/
def phaseWork (s : State) : Nat × Nat :=
  match s.status.phase with
  | .freq => (s.latched.srcLen.toNat - s.loop.idx, 0)
  | .build => if s.work.nnodes = 0 then (1, 0) else (0, s.work.wset.length)
  | .codes => (walkWork s.work.nodes s.work.stack, 0)
  | .serTree =>
    (if s.latched.srcLen = 0#32 then (if s.writer.wbits = 0 then 1 else 0)
      else walkWork s.work.nodes s.work.stack, 0)
  | .encode => (s.latched.srcLen.toNat - s.loop.idx, s.loop.codeRest.length)
  | .deserTree => (s.reader.rdlimit - s.reader.rdpos, 0)
  | .decode =>
    ((s.results.symCount.toNat - s.writer.outpos) + (s.reader.rdlimit - s.reader.rdpos), 0)
  | _ => (0, 0)

/-- `t` has less work left than `s`: its command has ended, or it is in a later phase, or further in the same phase. -/
def LessWork (t s : State) : Prop :=
  t.status.busy = false
    ∨ phaseRank t.status.phase < phaseRank s.status.phase
    ∨ (t.status.phase = s.status.phase
        ∧ ((phaseWork t).1 < (phaseWork s).1
            ∨ ((phaseWork t).1 = (phaseWork s).1 ∧ (phaseWork t).2 < (phaseWork s).2)))

end Sys2Proof.Safety
end

