-- ==== Sys2Proof/Certificates/Slice0/Obligations.lean ====
section
/-! DEFINITION. The statements for the provers. `EngineTurn s u` says that the engine moves in `s`, from `u` (`u` is
`s` with the host's pass taken off its queue, if there is one). -/

open Sys2Proof Sys2Proof.Machine Sys2Proof.Safety

/-! ## Encodings -/

/-- R81, R83, R86, R88: decoding the encoding of an instruction that may stand in a place gives it back, for every
operand value, and leaves the bits after it. -/
def Obligations.DecodeEncodeRoundTrip : Prop :=
  ∀ (f : Format) (i : Instr) (rest : Bits), i.wellFormed f = true → decode f (encode i ++ rest) = .ok (i, rest)

/-- R81, R83, R86, R88, R90: bits that decode are the encoding of what they decode to, of the format asked for, and the
rest. -/
def Obligations.DecodedBitsAreTheEncoding : Prop :=
  ∀ (f : Format) (bs : Bits) (i : Instr) (rest : Bits), decode f bs = .ok (i, rest) →
    i.wellFormed f = true ∧ bs = encode i ++ rest

/-- R81: which command words select a command, and how every other word's command ends. -/
def Obligations.CommandWordsExact : Prop :=
  (∀ w : Word, (decodeCmd w = .ok .compress ↔ w = 0x00000001#32)
      ∧ (decodeCmd w = .ok .decompress ↔ w = 0x00000002#32))
    ∧ ∀ s u : State, EngineTurn s u → Running .check u → u.cmd ≠ 0x00000001#32 → u.cmd ≠ 0x00000002#32 →
      ∃ t, step s = .next t ∧ t.status = ⟨false, true, .invalidArgument, .check⟩ ∧ t.mem = u.mem

/-- Words written out from R81, R83, R86 and R88 decode to the instructions they stand for. -/
def Obligations.SampleWordsDecode : Prop :=
  decodeCmd 0x00000001#32 = .ok .compress
    ∧ decodeCmd 0x00000002#32 = .ok .decompress
    ∧ decodeCmd 0x00000003#32 = .error .reservedOperation
    ∧ decodeCmd 0x00000011#32 = .error .reservedBitsSet
    ∧ decode .treeToken [true, false, true, false, false, false, false, false, true, true]
        = .ok (.tokenLeaf 0x41#8, [true])
    ∧ decode .treeToken [false, true] = .ok (.tokenInternal, [true])
    ∧ decode .payloadBit [false, true] = .ok (.payloadLeft, [true])
    ∧ decode .payloadBit [true] = .ok (.payloadRight, [])
    ∧ decodeBytes .count32 [0x00#8, 0x00#8, 0x00#8, 0x0A#8] = .ok (.count 10#32, [])

/-! ## A step runs the decoded instruction -/

/-- R80, R211, R155, R192, R194, R150, R175, R176: a host write of a command word is that instruction; in the reading
phases the bits at the reader are fetched, decoded and executed; in the writing phases the next element is executed.
A host's pass adds nothing around the engine's move; that the host's queued move goes first is the model's (log 2). -/
def Obligations.StepRunsTheDecodedInstruction : Prop :=
  (∀ (s : State) (w : Word) (rest : List HostMove) (i : Instr),
      s.host = .write (regAddr s.platform 0) 4 w :: rest → decodeCmd w = .ok i →
        step s = exec i { s with host := rest })
    ∧ ∀ s u : State, EngineTurn s u →
      (∀ bs i r, Running .deserTree u → fetchToken u = .ok bs → decode .treeToken bs = .ok (i, r) → step s = exec i u)
      ∧ (∀ bs i r, Running .rdCount u → fetchCount u = .ok bs → decode .count32 bs = .ok (i, r) → step s = exec i u)
      ∧ (∀ bs i r, Running .decode u → u.writer.outpos < u.results.symCount.toNat →
          (nodeAt u.work.nodes u.loop.cursor).kind = .internal →
          fetchPayload u = .ok bs → decode .payloadBit bs = .ok (i, r) → step s = exec i u)
      ∧ (∀ i, Running .serTree u → serToken u = some i → step s = exec i u)
      ∧ (Running .wrCount u → step s = exec (.count u.latched.srcLen) u)
      ∧ (∀ b bs, Running .encode u → u.loop.codeRest = b :: bs → step s = exec (payloadInstr b) u)

/-! ## The host's moves -/

/-- R211 (R48 for RDLIMIT), R213: COMPRESS, DECOMPRESS and a host write of any word to CMD with BUSY = 0 start a
command: CMD stores the word, STATUS, the results and the internal state are cleared, the windows are latched, `irq`
falls, and nothing else changes. With BUSY = 1 they change nothing. Two clauses are the model's choice: R211 clears the
valid bits of CODE, the model whole entries (log 10), and it clears the loop indices as well (log 13). -/
def Obligations.CommandStart : Prop :=
  let started : Word → State → State := fun w s =>
    { s with
      cmd := w
      status := ⟨true, false, .noError, .check⟩
      results := ⟨0#32, 0#32, 0#32, 0#32⟩
      latched := s.win
      work := { s.work with freq := [], code := [], nnodes := 0, wset := [], stack := [] }
      writer := ⟨0#8, 0#3, 0, 0⟩
      reader := ⟨0, 8 * s.win.srcLen.toNat⟩
      loop := ⟨0, [], 0⟩ }
  ∀ s : State,
    (s.status.busy = false →
      exec .compress s = .next (started 0x00000001#32 s)
        ∧ exec .decompress s = .next (started 0x00000002#32 s)
        ∧ (∀ w : Word, irq (started w s) = false)
        ∧ ∀ (w : Word) (rest : List HostMove), s.host = .write (regAddr s.platform 0) 4 w :: rest →
            step s = .next (started w { s with host := rest }))
    ∧ (s.status.busy = true →
      exec .compress s = .next s
        ∧ exec .decompress s = .next s
        ∧ ∀ (w : Word) (rest : List HostMove), s.host = .write (regAddr s.platform 0) 4 w :: rest →
            step s = .next { s with host := rest })

/-- R214, R37, R39: the window registers store with BUSY = 0 and ignore writes with BUSY = 1; the read-only and reserved
offsets ignore every write; IRQ_EN stores bit 0 whatever BUSY is. -/
def Obligations.RegisterWrites : Prop :=
  ∀ (s : State) (k : Nat) (v : Word) (rest : List HostMove), k < 16 →
    s.host = .write (regAddr s.platform k) 4 v :: rest →
      let u : State := { s with host := rest }
      (s.status.busy = false →
        (k = 2 → step s = .next { u with win := { s.win with srcAddr := v } })
        ∧ (k = 3 → step s = .next { u with win := { s.win with srcLen := v } })
        ∧ (k = 4 → step s = .next { u with win := { s.win with dstAddr := v } })
        ∧ (k = 5 → step s = .next { u with win := { s.win with dstCap := v } }))
      ∧ (s.status.busy = true → (k = 2 ∨ k = 3 ∨ k = 4 ∨ k = 5) → step s = .next u)
      ∧ ((6 ≤ k ∧ k ≤ 9 ∨ 11 ≤ k) → step s = .next u)
      ∧ (k = 10 → step s = .next { u with irqEn := v.getLsbD 0 })

/-- R215: a write of STATUS clears DONE when bit 1 is set and BUSY = 0, and does nothing else. -/
def Obligations.StatusWriteClearsDone : Prop :=
  ∀ (s : State) (v : Word) (rest : List HostMove), s.host = .write (regAddr s.platform 1) 4 v :: rest →
    (s.status.busy = false → v.getLsbD 1 = true →
      step s = .next { s with host := rest, status := { s.status with done := false } })
    ∧ (s.status.busy = false → v.getLsbD 1 = false → step s = .next { s with host := rest })
    ∧ (s.status.busy = true → step s = .next { s with host := rest })

/-- R21, R22, R23, R26, R28 to R39: what a read of each offset returns while BUSY = 0. -/
def Obligations.RegisterMapWhileIdle : Prop :=
  ∀ (s : State) (k : Nat) (rest : List HostMove), k < 16 → s.status.busy = false →
    s.host = .read (regAddr s.platform k) 4 :: rest →
    ∃ d, step s = .next { s with host := rest, rdata := d }
      ∧ (k = 0 → d = s.cmd)
      ∧ (k = 1 → d.getLsbD 0 = false ∧ d.getLsbD 1 = s.status.done
          ∧ d.getLsbD 2 = decide (s.status.errcode ≠ .noError) ∧ d.getLsbD 3 = false
          ∧ (d.extractLsb' 4 4).toNat = s.status.errcode.value ∧ (d.extractLsb' 8 4).toNat = s.status.phase.value
          ∧ d.extractLsb' 12 20 = 0#20)
      ∧ (k = 2 → d = s.win.srcAddr) ∧ (k = 3 → d = s.win.srcLen)
      ∧ (k = 4 → d = s.win.dstAddr) ∧ (k = 5 → d = s.win.dstCap)
      ∧ (k = 6 → d = s.results.outLen) ∧ (k = 7 → d = s.results.symCount)
      ∧ (k = 8 → d = s.results.leafCount) ∧ (k = 9 → d = s.results.treeBits)
      ∧ (k = 10 → d = if s.irqEn then 1#32 else 0#32)
      ∧ (k = 11 → d = 0x48554631#32)
      ∧ (12 ≤ k → d = 0#32)

/-- R40: what a read returns while BUSY = 1, as far as it is fixed: of STATUS every bit but PHASE, and the registers
that read as stored. Nothing is said of PHASE and of the result registers, which are free values (log 6). -/
def Obligations.RegisterReadsWhileBusy : Prop :=
  ∀ (s : State) (k : Nat) (rest : List HostMove), k < 16 → s.status.busy = true →
    s.host = .read (regAddr s.platform k) 4 :: rest →
    ∃ d n, step s = .next { s with host := rest, rdata := d, draws := n }
      ∧ (k = 0 → d = s.cmd)
      ∧ (k = 1 → d.getLsbD 0 = true ∧ d.extractLsb' 1 7 = 0#7 ∧ d.extractLsb' 12 20 = 0#20)
      ∧ (k = 2 → d = s.win.srcAddr) ∧ (k = 3 → d = s.win.srcLen)
      ∧ (k = 4 → d = s.win.dstAddr) ∧ (k = 5 → d = s.win.dstCap)
      ∧ (k = 10 → d = if s.irqEn then 1#32 else 0#32)
      ∧ (k = 11 → d = 0x48554631#32)
      ∧ (12 ≤ k → d = 0#32)

/-- R71: an access to the register port that is narrower or wider than 32 bits or misaligned has no meaning and is
refused. That an access outside the 64 bytes is refused too, and the name of the refusal, are the model's choice
(log 15). -/
def Obligations.OddRegisterAccessesRefused : Prop :=
  ∀ (s : State) (addr : Word) (bytes : Nat) (v : Word) (rest : List HostMove),
    (bytes ≠ 4 ∨ (addr - regBaseAddr s.platform).toNat % 4 ≠ 0 ∨ 64 ≤ (addr - regBaseAddr s.platform).toNat) →
    (s.host = .read addr bytes :: rest → step s = .refused .registerAccess)
      ∧ (s.host = .write addr bytes v :: rest → step s = .refused .registerAccess)

/-- R240, R53: `irq` rises at a command's end exactly if DONE_IE = 1, whatever the code; it falls on a DONE clear, on a
command start and on reset; and with DONE = 1 it follows a write of IRQ_EN at once. -/
def Obligations.InterruptLevel : Prop :=
  (∀ s u t : State, EngineTurn s u → u.status.busy = true → step s = .next t → t.status.busy = false →
      irq t = u.irqEn)
    ∧ ∀ (s : State) (rest : List HostMove) (v : Word),
      (s.status.busy = false → s.host = .write (regAddr s.platform 1) 4 v :: rest → v.getLsbD 1 = true →
        ∃ t, step s = .next t ∧ irq t = false)
      ∧ (s.status.busy = false → s.host = .write (regAddr s.platform 0) 4 v :: rest →
        ∃ t, step s = .next t ∧ irq t = false)
      ∧ (s.host = .reset :: rest → ∃ t, step s = .next t ∧ irq t = false)
      ∧ (s.host = .write (regAddr s.platform 10) 4 v :: rest → s.status.done = true →
        ∃ t, step s = .next t ∧ irq t = v.getLsbD 0)

/-- R24: BUSY is set by a command start, cleared by the command end or by reset, and written by nothing else. -/
def Obligations.BusyChangesOnlyAtStartEndAndReset : Prop :=
  ∀ s t : State, step s = .next t →
    (s.status.busy = false → t.status.busy = true →
      ∃ addr w rest, s.host = .write addr 4 w :: rest ∧ accessedReg s.platform addr 4 = some .cmd ∧ t.cmd = w)
    ∧ (s.status.busy = true → t.status.busy = false →
      (∃ rest, s.host = .reset :: rest) ∨ (∃ u, EngineTurn s u ∧ t.status.done = true))

/-- R25: DONE is set by the command end only, and cleared by a command start, by a host write of STATUS with bit 1 = 1
while BUSY = 0, or by reset only. -/
def Obligations.DoneChangesOnlyWhereTheRulesSay : Prop :=
  ∀ s t : State, step s = .next t →
    (s.status.done = false → t.status.done = true →
      s.status.busy = true ∧ t.status.busy = false ∧ ∃ u, EngineTurn s u)
    ∧ (s.status.done = true → t.status.done = false →
      (∃ rest, s.host = .reset :: rest)
        ∨ (s.status.busy = false ∧ ∃ addr v rest, s.host = .write addr 4 v :: rest
            ∧ ((accessedReg s.platform addr 4 = some .cmd ∧ t.status.busy = true)
              ∨ (accessedReg s.platform addr 4 = some .status ∧ v.getLsbD 1 = true))))

/-- R260, R261: reset gives every host-visible register its reset value and drops `irq`; memory keeps every byte of the
source window and every byte outside the destination window, all of it when no command ran; each other byte of the
destination window is an unspecified value, here one of the model's free values (log 8). -/
def Obligations.ResetReturnsTheBlock : Prop :=
  ∀ (s : State) (rest : List HostMove), s.host = .reset :: rest →
    ∃ t, step s = .next t
      ∧ t.cmd = 0#32 ∧ t.status = ⟨false, false, .noError, .idle⟩ ∧ t.win = ⟨0#32, 0#32, 0#32, 0#32⟩
      ∧ t.results = ⟨0#32, 0#32, 0#32, 0#32⟩ ∧ t.irqEn = false ∧ irq t = false
      ∧ t.host = rest ∧ t.platform = s.platform
      ∧ (s.status.busy = false → t.mem = s.mem)
      ∧ (∀ a, inSource s.latched a = true ∨ inDest s.latched a = false → readByte a t.mem = readByte a s.mem)
      ∧ (s.status.busy = true → ∀ j, j < s.latched.dstCap.toNat →
          s.latched.dstAddr.toNat + j < 2 ^ 32 → inSource s.latched (s.latched.dstAddr.toNat + j) = false →
          readByte (s.latched.dstAddr.toNat + j) t.mem = Config.freeByte (s.draws + j))

/-- R266 (a), (b), R210: while a command runs the host has no move that writes the source window or touches the
destination window; every other memory access of the host has its effect. The name of the refusal is the
model's (log 16), and so is it that BUS_FAULT does not stop a host access (log 30). -/
def Obligations.HostMemoryDuties : Prop :=
  ∀ (s : State) (a : Word) (v : Byte) (rest : List HostMove),
    (s.host = .memWrite a v :: rest →
      (s.status.busy = true ∧ (inSource s.latched a.toNat = true ∨ inDest s.latched a.toNat = true) →
        step s = .refused .hostDuty)
      ∧ (¬(s.status.busy = true ∧ (inSource s.latched a.toNat = true ∨ inDest s.latched a.toNat = true)) →
        ∃ m, step s = .next { s with host := rest, mem := m } ∧ readByte a.toNat m = v
          ∧ ∀ b, b ≠ a.toNat → readByte b m = readByte b s.mem))
    ∧ (s.host = .memRead a :: rest →
      (s.status.busy = true ∧ inDest s.latched a.toNat = true → step s = .refused .hostDuty)
      ∧ (¬(s.status.busy = true ∧ inDest s.latched a.toNat = true) →
        ∃ d, step s = .next { s with host := rest, rdata := d } ∧ d.toNat = (readByte a.toNat s.mem).toNat))

/-- R246, R60: with BUSY = 0 the engine makes no memory access and changes no state. -/
def Obligations.IdleEngineChangesNothing : Prop :=
  ∀ s u : State, EngineTurn s u → u.status.busy = false → step s = .next u

/-! ## CHECK, the order of phases, and the command end -/

/-- R212: CHECK ends the command with INVALID_ARGUMENT exactly on an illegal command word, a window that passes 2^32 or
overlapping windows, touching no memory; otherwise the command's first phase follows. -/
def Obligations.CheckPhase : Prop :=
  ∀ s u : State, EngineTurn s u → Running .check u →
    let w := u.latched
    let bad : Prop := (u.cmd ≠ 0x00000001#32 ∧ u.cmd ≠ 0x00000002#32)
      ∨ 2 ^ 32 < w.srcAddr.toNat + w.srcLen.toNat
      ∨ 2 ^ 32 < w.dstAddr.toNat + w.dstCap.toNat
      ∨ (0 < w.srcLen.toNat ∧ 0 < w.dstCap.toNat ∧ w.srcAddr.toNat < w.dstAddr.toNat + w.dstCap.toNat
          ∧ w.dstAddr.toNat < w.srcAddr.toNat + w.srcLen.toNat)
    (bad → step s = .next { u with
        status := ⟨false, true, .invalidArgument, .check⟩
        results := { u.results with outLen := BitVec.ofNat 32 u.writer.outpos } })
      ∧ (¬bad → u.cmd = 0x00000001#32 → step s = .next { u with status := { u.status with phase := .freq } })
      ∧ (¬bad → u.cmd = 0x00000002#32 → step s = .next { u with
          status := { u.status with phase := .deserTree }
          reader := ⟨0, 8 * w.srcLen.toNat⟩ })

/-- R172, R191, R170: the engine goes from a phase only to itself or to the phase the rules name after it, to BUILD and
ENCODE only for L ≥ 1, to SIZE from FREQ and to FINAL from WR_COUNT only for L = 0. -/
def Obligations.PhaseOrder : Prop :=
  ∀ s u t : State, EngineTurn s u → u.status.busy = true → step s = .next t → t.status.busy = true →
    (t.status.phase = u.status.phase ∨ phaseFollows u.status.phase t.status.phase = true)
      ∧ (u.status.phase = .freq → t.status.phase = .build → u.latched.srcLen ≠ 0#32)
      ∧ (u.status.phase = .freq → t.status.phase = .size → u.latched.srcLen = 0#32)
      ∧ (u.status.phase = .wrCount → t.status.phase = .encode → u.latched.srcLen ≠ 0#32)
      ∧ (u.status.phase = .wrCount → t.status.phase = .final → u.latched.srcLen = 0#32)

/-- R235 (R24, R25, R27, R28, R33, R233): at every command end DONE is set, PHASE keeps the phase it ended in, OUT_LEN
holds OUTPOS unless the code is OUTPUT_OVERFLOW, which touches no memory; CMD, the window registers and IRQ_EN keep
their values. -/
def Obligations.CommandEnd : Prop :=
  ∀ s u t : State, EngineTurn s u → u.status.busy = true → step s = .next t → t.status.busy = false →
    t.status.done = true ∧ t.status.phase = u.status.phase
      ∧ (t.status.errcode ≠ .outputOverflow → t.results.outLen = BitVec.ofNat 32 t.writer.outpos)
      ∧ (t.status.errcode = .outputOverflow → t.mem = u.mem)
      ∧ t.cmd = u.cmd ∧ t.win = u.win ∧ t.irqEn = u.irqEn

/-- R230 (and R170, R190 for NONE): the phases in which a command ends with each code. -/
def Obligations.ErrorCodesByPhase : Prop :=
  ∀ s u t : State, EngineTurn s u → u.status.busy = true → step s = .next t → t.status.busy = false →
    codeRaisedIn t.status.errcode u.status.phase = true

/-- R62, R106, R107, R120, R155, R158, R176, R192, R195, R237: a bus error on the read of a source byte in FREQ and
ENCODE, and every error of a token's, the count's or a payload bit's reads, on whichever of its bits, ends the command
with its code in its phase: OUT_LEN = OUTPOS, the bits before the failing one consumed, the slot of a LEAF allocated
before its symbol fails, and nothing else changed. A stream with no bit left gives TRUNCATED_INPUT whatever BUS_FAULT
says. -/
def Obligations.ReadErrors : Prop :=
  ∀ s u : State, EngineTurn s u →
    let ended : ErrCode → Nat → Nat → State := fun e j slots => { u with
      status := ⟨false, true, e, u.status.phase⟩
      results := { u.results with outLen := BitVec.ofNat 32 u.writer.outpos }
      reader := { u.reader with rdpos := u.reader.rdpos + j }
      work := { u.work with nnodes := u.work.nnodes + slots } }
    ((Running .freq u ∨ (Running .encode u ∧ u.loop.codeRest = [])) → u.loop.idx < u.latched.srcLen.toNat →
        busFault u.platform .read (srcByteAddr u u.loop.idx) = true → step s = .next (ended .busError 0 0))
    ∧ ∀ (e : ErrCode) (j : Nat), FailsAfter u j e →
      (Running .deserTree u → j = 0 → step s = .next (ended e 0 0))
      ∧ (Running .deserTree u → u.work.nnodes < Config.nodePool → peekBit u u.reader.rdpos = .ok true →
          1 ≤ j → j ≤ 8 → step s = .next (ended e j 1))
      ∧ (Running .rdCount u → j < 32 → step s = .next (ended e j 0))
      ∧ (Running .decode u → u.writer.outpos < u.results.symCount.toNat →
          (nodeAt u.work.nodes u.loop.cursor).kind = .internal → j = 0 → step s = .next (ended e 0 0))

/-! ## FREQ and BUILD -/

/-- R120: a step of FREQ counts one source byte, its own counter and no other, and the step after the last byte writes
SYM_COUNT. The counter goes up by one as a 32-bit register; by R124 it never wraps in a run. -/
def Obligations.FreqStepCountsOneByte : Prop :=
  ∀ s u : State, EngineTurn s u → Running .freq u →
    (∀ b, u.loop.idx < u.latched.srcLen.toNat → readSource u u.loop.idx = .ok b →
        ∃ f, step s = .next { u with work := { u.work with freq := f }, loop := { u.loop with idx := u.loop.idx + 1 } }
          ∧ freqAt f b = freqAt u.work.freq b + 1#32
          ∧ ∀ c, c ≠ b → freqAt f c = freqAt u.work.freq c)
    ∧ (u.latched.srcLen.toNat ≤ u.loop.idx →
        step s = .next { u with
          status := { u.status with phase := if u.latched.srcLen = 0#32 then .size else .build }
          results := { u.results with symCount := u.latched.srcLen } })

/-- R120 whole: from the start of FREQ, L + 1 steps count every source byte: FREQ[s] is the number of its occurrences,
SYM_COUNT is L, and BUILD (SIZE for L = 0) follows. -/
def Obligations.FreqCountsTheSource : Prop :=
  ∀ s : State, Running .freq s → s.host = [] → s.loop.idx = 0 → s.work.freq = [] → SourceReadable s →
    ∃ f, run (s.latched.srcLen.toNat + 1) s = .next { s with
        status := { s.status with phase := if s.latched.srcLen = 0#32 then .size else .build }
        results := { s.results with symCount := s.latched.srcLen }
        work := { s.work with freq := f }
        loop := { s.loop with idx := s.latched.srcLen.toNat } }
      ∧ ∀ sym, (freqAt f sym).toNat = (sourceBytes s).count sym

/-- R126: `extract_min` answers exactly when the set is not empty; it returns a member whose key (frequency, index) is
below that of every other member, and removes that one alone. -/
def Obligations.ExtractMinIsLeast : Prop :=
  ∀ (nodes : List (Nat × Node)) (w : List Nat),
    (extractMin nodes w = none ↔ w = [])
      ∧ ∀ m w', extractMin nodes w = some (m, w') →
        m ∈ w ∧ w' = w.erase m
          ∧ ∀ x ∈ w, x ≠ m →
            (nodeAt nodes m).freq.toNat < (nodeAt nodes x).freq.toNat
              ∨ ((nodeAt nodes m).freq.toNat = (nodeAt nodes x).freq.toNat ∧ m < x)

/-- R122, R125 (R121): the leaf step of BUILD gives slots 0 to K−1 the entries of the frequency table, each once, in
ascending order of (count, symbol), leaves every other slot as it was, and writes K to NNODES and LEAF_COUNT; for K ≥ 2
the working set is {0, …, K−1}, BUILD goes on, and nothing else changes. -/
def Obligations.LeavesInOrder : Prop :=
  ∀ s u : State, EngineTurn s u → Running .build u → u.work.nnodes = 0 → storeWf 0#32 256 u.work.freq →
    ∃ t, step s = .next t
      ∧ t.work.nnodes = u.work.freq.length ∧ t.results.leafCount.toNat = u.work.freq.length
      ∧ (∀ j, j < t.work.nnodes → (nodeAt t.work.nodes j).kind = .leaf
          ∧ (nodeAt t.work.nodes j).freq = freqAt u.work.freq (nodeAt t.work.nodes j).sym
          ∧ (nodeAt t.work.nodes j).freq ≠ 0#32)
      ∧ (∀ i j, i < j → j < t.work.nnodes →
          (nodeAt t.work.nodes i).freq.toNat < (nodeAt t.work.nodes j).freq.toNat
            ∨ ((nodeAt t.work.nodes i).freq = (nodeAt t.work.nodes j).freq
                ∧ (nodeAt t.work.nodes i).sym.toNat < (nodeAt t.work.nodes j).sym.toNat))
      ∧ (∀ sym, freqAt u.work.freq sym ≠ 0#32 →
          ∃ j, j < t.work.nnodes ∧ (nodeAt t.work.nodes j).sym = sym)
      ∧ (∀ i, t.work.nnodes ≤ i → nodeAt t.work.nodes i = nodeAt u.work.nodes i)
      ∧ (2 ≤ u.work.freq.length → t = { u with
          work := { u.work with
            nodes := t.work.nodes, nnodes := u.work.freq.length, wset := List.range u.work.freq.length }
          results := { u.results with leafCount := BitVec.ofNat 32 u.work.freq.length } })

/-- R123: with one entry in the frequency table the tree is its single leaf: ROOT is 0, no internal node is made, and
CODES follows. -/
def Obligations.SingleLeafTree : Prop :=
  ∀ (s u : State) (sym : Byte) (c : Word), EngineTurn s u → Running .build u → u.work.nnodes = 0 →
    u.work.freq = [(sym.toNat, c)] →
    ∃ t, step s = .next t ∧ Running .codes t ∧ t.work.root = 0 ∧ t.work.nnodes = 1
      ∧ t.results.leafCount = 1#32
      ∧ (nodeAt t.work.nodes 0).kind = .leaf ∧ (nodeAt t.work.nodes 0).sym = sym ∧ (nodeAt t.work.nodes 0).freq = c

/-- R125, R127: a merge takes the two least members, the first extracted as the left child, into the next slot, whose
frequency is their sum; no other slot changes; with one member left, it is ROOT and CODES follows. The exactness of the
sum is R124: it is a premise here. -/
def Obligations.MergeStep : Prop :=
  ∀ s u : State, EngineTurn s u → Running .build u → u.work.nnodes ≠ 0 →
    (∀ a b w w', extractMin u.work.nodes u.work.wset = some (a, w) → extractMin u.work.nodes w = some (b, w') →
      ∃ t, step s = .next t ∧ t = { u with work := { u.work with
              nodes := t.work.nodes, nnodes := u.work.nnodes + 1, wset := w' ++ [u.work.nnodes] } }
        ∧ (nodeAt t.work.nodes u.work.nnodes).kind = .internal
        ∧ (nodeAt t.work.nodes u.work.nnodes).left = a
        ∧ (nodeAt t.work.nodes u.work.nnodes).right = b
        ∧ ((nodeAt u.work.nodes a).freq.toNat + (nodeAt u.work.nodes b).freq.toNat < 2 ^ 32 →
            (nodeAt t.work.nodes u.work.nnodes).freq.toNat
              = (nodeAt u.work.nodes a).freq.toNat + (nodeAt u.work.nodes b).freq.toNat)
        ∧ ∀ i, i ≠ u.work.nnodes → nodeAt t.work.nodes i = nodeAt u.work.nodes i)
    ∧ (∀ r, u.work.wset = [r] →
      ∃ t, step s = .next t ∧ Running .codes t ∧ t.work.root = r ∧ t.work.nnodes = u.work.nnodes
        ∧ t.work.nodes = u.work.nodes)

/-! ## The walks over a tree -/

/-- R140 (R141 to R143): the walk of CODES over a tree in the node pool, one node a step, gives the code table the
recursive walk gives: every leaf's code is the path to it, a single-leaf root's the empty one. -/
def Obligations.CodesWalkIsRecursiveWalk : Prop :=
  ∀ (tree : FullTree) (s : State) (top : Frame) (rest : List Frame), Running .codes s → s.host = [] →
    s.work.stack = top :: rest → Represents s.work.nodes top.node tree →
    run tree.size s = .next { s with work := { s.work with
      code := tree.assignCodes (pathOf rest) s.work.code
      stack := nextSubtree s.work.nodes rest } }

/-- R150, R153, R85 (R151, R152): the walk of SER_TREE over a tree appends its serialized tree, 10·K − 1 bits, and
nothing else, and changes nothing but the writer, the bytes it completes and the walk stack. -/
def Obligations.SerializerWritesTheTree : Prop :=
  ∀ (tree : FullTree) (s : State) (top : Frame) (rest : List Frame), Running .serTree s → s.host = [] →
    s.latched.srcLen ≠ 0#32 → s.work.stack = top :: rest → Represents s.work.nodes top.node tree →
    CanAppend s (10 * tree.leaves - 1) →
    ∃ t, run tree.size s = .next t
      ∧ t = { s with mem := t.mem, writer := t.writer, work := { s.work with stack := nextSubtree s.work.nodes rest } }
      ∧ Appended s t tree.serialize ∧ tree.serialize.length = 10 * tree.leaves - 1

/-- R155, R156, R158, R159: from the start of DESER_TREE, a stream that begins with the serialized tree of a tree of at
most 511 nodes leaves exactly that tree in the node pool, with ROOT, LEAF_COUNT and TREE_BITS, consuming its 10·K − 1
bits and no more, and writes no memory. -/
def Obligations.DeserializerReadsTheTree : Prop :=
  ∀ (tree : FullTree) (s : State), Running .deserTree s → s.host = [] → s.work.stack = [] → s.work.nnodes = 0 →
    s.reader.rdpos = 0 → tree.size ≤ Config.nodePool →
    peekBits s 0 (10 * tree.leaves - 1) = .ok tree.serialize →
    ∃ t, run tree.size s = .next t ∧ Running .rdCount t
      ∧ Represents t.work.nodes t.work.root tree ∧ t.work.nnodes = tree.size
      ∧ t.results = { s.results with
          leafCount := BitVec.ofNat 32 tree.leaves, treeBits := BitVec.ofNat 32 (10 * tree.leaves - 1) }
      ∧ t.reader = { s.reader with rdpos := 10 * tree.leaves - 1 }
      ∧ t.mem = s.mem ∧ t.writer = s.writer ∧ t.latched = s.latched ∧ t.platform = s.platform ∧ t.host = []
      ∧ t.work.stack = [] ∧ t.cmd = s.cmd ∧ t.win = s.win

/-- R157, R155: with all 511 slots allocated, the next flag bit, whatever it is, is consumed and ends the command with
TREE_OVERFLOW before any symbol bit is read; nothing else changes. -/
def Obligations.TreeOverflow : Prop :=
  ∀ (s u : State) (flag : Bool), EngineTurn s u → Running .deserTree u → Config.nodePool ≤ u.work.nnodes →
    peekBit u u.reader.rdpos = .ok flag →
    step s = .next { u with
      status := ⟨false, true, .treeOverflow, .deserTree⟩
      results := { u.results with outLen := BitVec.ofNat 32 u.writer.outpos }
      reader := { u.reader with rdpos := u.reader.rdpos + 1 } }

/-! ## SIZE, and the stream of an empty source -/

/-- R173: SIZE of a source that is not empty: TREE_BITS is 10·K − 1; a stream that needs more than DST_CAP bytes ends the
command with OUTPUT_OVERFLOW and the bytes needed, saturated, in OUT_LEN; otherwise SER_TREE follows; no memory is
touched. -/
def Obligations.SizePhase : Prop :=
  ∀ s u : State, EngineTurn s u → Running .size u → u.latched.srcLen ≠ 0#32 →
    let tb := 10 * u.results.leafCount.toNat - 1
    let p := (u.work.code.map fun e =>
      if e.2.valid then (freqAt u.work.freq (BitVec.ofNat 8 e.1)).toNat * e.2.bits.length else 0).sum
    let need := (tb + 32 + p + 7) / 8
    storeWf CodeEntry.cleared 256 u.work.code →
    (u.latched.dstCap.toNat < need → step s = .next { u with
        status := ⟨false, true, .outputOverflow, .size⟩
        results := { u.results with
          treeBits := BitVec.ofNat 32 tb, outLen := BitVec.ofNat 32 (min need 0xFFFFFFFF) } })
      ∧ (need ≤ u.latched.dstCap.toNat → step s = .next { u with
        status := { u.status with phase := .serTree }
        results := { u.results with treeBits := BitVec.ofNat 32 tb }
        work := { u.work with stack := [⟨u.work.root, .left⟩] } })

/-- R171, R87: an empty source, from SIZE on, gives the six bytes 80 00 00 00 00 00 and the end of the command without
error; with fewer than six bytes of room it ends with OUTPUT_OVERFLOW and OUT_LEN = 6. -/
def Obligations.EmptySourceStream : Prop :=
  ∀ s : State, Running .size s → s.host = [] → s.latched.srcLen = 0#32 → s.writer = ⟨0#8, 0#3, 0, 0⟩ →
    (s.latched.dstCap.toNat < 6 → step s = .next { s with
        status := ⟨false, true, .outputOverflow, .size⟩
        results := { s.results with treeBits := 9#32, outLen := 6#32 } })
      ∧ (6 ≤ s.latched.dstCap.toNat → passesTop s.latched.dstAddr s.latched.dstCap = false →
        (∀ j, j < 6 → busFault s.platform .write (dstByteAddr s j) = false) →
        ∃ t, run 5 s = .next t ∧ t.status = ⟨false, true, .noError, .final⟩
          ∧ t.results = { s.results with treeBits := 9#32, outLen := 6#32 }
          ∧ readByte (dstByteAddr s 0).toNat t.mem = 0x80#8
          ∧ (∀ j, 1 ≤ j → j < 6 → readByte (dstByteAddr s j).toNat t.mem = 0x00#8)
          ∧ ∀ a, (∀ j, j < 6 → a ≠ (dstByteAddr s j).toNat) → readByte a t.mem = readByte a s.mem)

/-! ## The elements of a stream, written -/

/-- R151: TOKEN_LEAF in SER_TREE completes: it appends `1 ssssssss`, the walk goes on, and nothing else changes (its
frame). -/
def Obligations.TokenLeafWritten : Prop :=
  ∀ (s : State) (sym : Byte), Running .serTree s → CanAppend s 9 →
    ∃ t, exec (.tokenLeaf sym) s = .next t
      ∧ t = { s with
          mem := t.mem, writer := t.writer
          work := { s.work with stack := walkOn s.work.nodes s.work.stack } }
      ∧ Appended s t (true :: msbBits sym.toNat 8)

/-- R152: TOKEN_INTERNAL in SER_TREE completes: it appends `0`, the walk goes on, and nothing else changes. -/
def Obligations.TokenInternalWritten : Prop :=
  ∀ s : State, Running .serTree s → CanAppend s 1 →
    ∃ t, exec .tokenInternal s = .next t
      ∧ t = { s with
          mem := t.mem, writer := t.writer
          work := { s.work with stack := walkOn s.work.nodes s.work.stack } }
      ∧ Appended s t [false]

/-- R175: COUNT in WR_COUNT completes: it appends the 32 bits of n, most significant first, and ENCODE follows from
source byte 0, or FINAL for an empty source; nothing else changes. -/
def Obligations.CountWritten : Prop :=
  ∀ (s : State) (n : Word), Running .wrCount s → CanAppend s 32 →
    ∃ t, exec (.count n) s = .next t ∧ Appended s t (msbBits n.toNat 32)
      ∧ (s.latched.srcLen = 0#32 → t = { s with
          mem := t.mem, writer := t.writer, status := { s.status with phase := .final } })
      ∧ (s.latched.srcLen ≠ 0#32 → t = { s with
          mem := t.mem, writer := t.writer, status := { s.status with phase := .encode }
          loop := { s.loop with idx := 0, codeRest := [] } })

/-- R102, R176 (R140 for the bit values): PAYLOAD_LEFT and PAYLOAD_RIGHT in ENCODE complete: each appends its bit, the
code being written goes on, and nothing else changes. -/
def Obligations.PayloadBitsWritten : Prop :=
  ∀ s : State, Running .encode s → CanAppend s 1 →
    (∃ t, exec .payloadLeft s = .next t
        ∧ t = { s with
            mem := t.mem, writer := t.writer, loop := { s.loop with codeRest := s.loop.codeRest.tail } }
        ∧ Appended s t [false])
    ∧ (∃ t, exec .payloadRight s = .next t
        ∧ t = { s with
            mem := t.mem, writer := t.writer, loop := { s.loop with codeRest := s.loop.codeRest.tail } }
        ∧ Appended s t [true])

/-- R63, R100, R103, R194, R235, R236: a bus error on the write of a destination byte, by a token in SER_TREE, the
count in WR_COUNT, a payload bit in ENCODE, the flush of FINAL or a symbol of DECODE, ends the command with BUS_ERROR
and OUT_LEN = OUTPOS, the bytes completed before it. The failing byte is unspecified; an append leaves that byte in ACC and
its bits counted in WBITS, the flush and a symbol leave the writer as it was; every other byte of memory, and everything
else, is unchanged. -/
def Obligations.WriteBusError : Prop :=
  (∀ (s : State) (i : Instr) (k : Nat), WriteFaultsAt s (encode i).length k →
      (Running .serTree s ∧ i.format = .treeToken ∨ Running .wrCount s ∧ i.format = .count32
        ∨ Running .encode s ∧ i.format = .payloadBit) →
      ∃ t, exec i s = .next t ∧ EndedByWriteOf s t (encode i) k)
    ∧ ∀ s u : State, EngineTurn s u →
      (Running .final u ∧ u.writer.nacc ≠ 0#3 ∧ u.writer.outpos < u.latched.dstCap.toNat
        ∨ Running .decode u ∧ u.writer.outpos < u.results.symCount.toNat
          ∧ (nodeAt u.work.nodes u.loop.cursor).kind = .leaf) →
      busFault u.platform .write (dstByteAddr u u.writer.outpos) = true →
      ∃ t, step s = .next t
        ∧ t = { u with
            status := ⟨false, true, .busError, u.status.phase⟩
            results := { u.results with outLen := BitVec.ofNat 32 u.writer.outpos }
            mem := t.mem, draws := t.draws }
        ∧ ∀ a, a ≠ (dstByteAddr u u.writer.outpos).toNat → readByte a t.mem = readByte a u.mem

/-- R176: a step of ENCODE between two codes takes up the code of the next source byte, whole; after the last source
byte FINAL follows. -/
def Obligations.EncodeTakesUpTheNextCode : Prop :=
  ∀ s u : State, EngineTurn s u → Running .encode u → u.loop.codeRest = [] →
    (∀ b, u.loop.idx < u.latched.srcLen.toNat → readSource u u.loop.idx = .ok b →
        (codeAt u.work.code b).valid = true →
        step s = .next { u with
          loop := { u.loop with idx := u.loop.idx + 1, codeRest := (codeAt u.work.code b).bits } })
    ∧ (u.latched.srcLen.toNat ≤ u.loop.idx →
        step s = .next { u with status := { u.status with phase := .final } })

/-- R103, R177: FINAL writes ACC as the last byte, when it holds bits, and ends the command with code NONE and OUT_LEN
the stream's length in bytes; the stream is the bits written and, the unfilled bits of ACC being 0 (R100, an invariant),
zero padding; the rest of memory is unchanged. -/
def Obligations.FinalFlushes : Prop :=
  ∀ s u : State, EngineTurn s u → Running .final u →
    (u.writer.nacc = 0#3 → ∃ t, step s = .next t ∧ t.status = ⟨false, true, .noError, .final⟩
        ∧ t.results = { u.results with outLen := BitVec.ofNat 32 u.writer.outpos } ∧ t.mem = u.mem)
    ∧ (u.writer.nacc ≠ 0#3 → u.writer.outpos < u.latched.dstCap.toNat →
        busFault u.platform .write (dstByteAddr u u.writer.outpos) = false →
        ∃ t, step s = .next t ∧ t.status = ⟨false, true, .noError, .final⟩
          ∧ t.results = { u.results with outLen := BitVec.ofNat 32 (u.writer.outpos + 1) }
          ∧ readByte (dstByteAddr u u.writer.outpos).toNat t.mem = u.writer.acc
          ∧ (∀ a, a ≠ (dstByteAddr u u.writer.outpos).toNat → readByte a t.mem = readByte a u.mem)
          ∧ (AccClean u.writer → passesTop u.latched.dstAddr u.latched.dstCap = false →
              destBits t (u.writer.outpos + 1)
                = writtenBits u ++ List.replicate (8 - u.writer.nacc.toNat) false))

/-! ## The elements of a stream, read -/

/-- R106: which bit a read gives: bit 7 − (k mod 8) of byte ⌊k/8⌋ of the source window. -/
def Obligations.ReadBitOrder : Prop :=
  ∀ (s : State) (k : Nat), k < s.reader.rdlimit →
    busFault s.platform .read (srcByteAddr s (k / 8)) = false →
    peekBit s k = .ok ((readByte (srcByteAddr s (k / 8)).toNat s.mem).getLsbD (7 - k % 8))

/-- R158, R155, R156: TOKEN_LEAF in DESER_TREE completes with a slot free: it allocates the next slot as a leaf of its
symbol and frequency 0 and consumes nine bits. The nodes on top of the stack that await their right child (`closed`)
are finished one after the other, each by the subtree finished before it. The last finished subtree is the left child of
the node that then awaits its left one, which goes on to await its right; where no node is left it is ROOT, and the
phase ends with LEAF_COUNT and TREE_BITS. Nothing else changes. -/
def Obligations.TokenLeafRead : Prop :=
  ∀ (s : State) (sym : Byte) (closed rest : List Frame), Running .deserTree s → s.work.nnodes < Config.nodePool →
    s.work.stack = closed ++ rest → (∀ f ∈ closed, f.mark = .right) →
    (∀ f rest', rest = f :: rest' → f.mark = .left) →
    (s.work.stack.map Frame.node).Pairwise (· > ·) → (∀ f ∈ s.work.stack, f.node < s.work.nnodes) →
    let n := s.work.nnodes
    let finished := n :: closed.map Frame.node
    let top := (closed.map Frame.node).getLast?.getD n
    ∃ t, exec (.tokenLeaf sym) s = .next t
      ∧ (nodeAt t.work.nodes n).kind = .leaf ∧ (nodeAt t.work.nodes n).sym = sym ∧ (nodeAt t.work.nodes n).freq = 0#32
      ∧ (∀ i p c : Nat, (closed.map Frame.node)[i]? = some p → finished[i]? = some c →
          nodeAt t.work.nodes p = { nodeAt s.work.nodes p with right := c })
      ∧ (∀ i, i ≠ n → (∀ f ∈ closed, i ≠ f.node) → (∀ p rest', rest = ⟨p, .left⟩ :: rest' → i ≠ p) →
          nodeAt t.work.nodes i = nodeAt s.work.nodes i)
      ∧ (∀ p rest', rest = ⟨p, .left⟩ :: rest' →
          nodeAt t.work.nodes p = { nodeAt s.work.nodes p with left := top }
            ∧ t = { s with
              reader := { s.reader with rdpos := s.reader.rdpos + 9 }
              work := { s.work with nodes := t.work.nodes, nnodes := n + 1, stack := ⟨p, .right⟩ :: rest' } })
      ∧ (rest = [] → t = { s with
          status := { s.status with phase := .rdCount }
          results := { s.results with
            leafCount := BitVec.ofNat 32 (countLeaves t.work.nodes (n + 1))
            treeBits := BitVec.ofNat 32 (s.reader.rdpos + 9) }
          reader := { s.reader with rdpos := s.reader.rdpos + 9 }
          work := { s.work with nodes := t.work.nodes, nnodes := n + 1, root := top, stack := [] } })

/-- R156, R155: TOKEN_INTERNAL in DESER_TREE completes with a slot free: it allocates the next slot as an internal node
of frequency 0, consumes one bit, and the node awaits its left child; nothing else changes. -/
def Obligations.TokenInternalRead : Prop :=
  ∀ s : State, Running .deserTree s → s.work.nnodes < Config.nodePool →
    ∃ t, exec .tokenInternal s = .next t
      ∧ t = { s with
          reader := { s.reader with rdpos := s.reader.rdpos + 1 }
          work := { s.work with
            nodes := t.work.nodes, nnodes := s.work.nnodes + 1
            stack := ⟨s.work.nnodes, .left⟩ :: s.work.stack } }
      ∧ (nodeAt t.work.nodes s.work.nnodes).kind = .internal ∧ (nodeAt t.work.nodes s.work.nnodes).freq = 0#32
      ∧ ∀ i, i ≠ s.work.nnodes → nodeAt t.work.nodes i = nodeAt s.work.nodes i

/-- R192, R193: COUNT in RD_COUNT consumes 32 bits and writes SYM_COUNT; with room for N bytes DECODE follows from the
root; otherwise the command ends with OUTPUT_OVERFLOW and OUT_LEN = N. Nothing else changes. -/
def Obligations.CountRead : Prop :=
  ∀ (s : State) (n : Word), Running .rdCount s →
    (n.toNat ≤ s.latched.dstCap.toNat → exec (.count n) s = .next { s with
        status := { s.status with phase := .decode }
        results := { s.results with symCount := n }
        reader := { s.reader with rdpos := s.reader.rdpos + 32 }
        loop := { s.loop with cursor := s.work.root } })
      ∧ (s.latched.dstCap.toNat < n.toNat → exec (.count n) s = .next { s with
        status := ⟨false, true, .outputOverflow, .rdCount⟩
        results := { s.results with symCount := n, outLen := n }
        reader := { s.reader with rdpos := s.reader.rdpos + 32 } })

/-- R195, R196: PAYLOAD_LEFT and PAYLOAD_RIGHT in DECODE consume one bit and go to the left and the right child; nothing
else changes. -/
def Obligations.PayloadBitsWalk : Prop :=
  ∀ s : State, Running .decode s →
    exec .payloadLeft s = .next { s with
        reader := { s.reader with rdpos := s.reader.rdpos + 1 }
        loop := { s.loop with cursor := (nodeAt s.work.nodes s.loop.cursor).left } }
      ∧ exec .payloadRight s = .next { s with
        reader := { s.reader with rdpos := s.reader.rdpos + 1 }
        loop := { s.loop with cursor := (nodeAt s.work.nodes s.loop.cursor).right } }

/-- R172, R191, R50: a stream element executed where no rule reads or writes one is refused by name; no step does so
(the model's choice, log 14). -/
def Obligations.ElementsOutOfPhaseRefused : Prop :=
  ∀ s : State,
    (s.status.busy = false →
      ∀ i : Instr, i.format ≠ .cmd → exec i s = .refused .elementOutOfPhase)
    ∧ (¬Running .serTree s → ¬Running .deserTree s →
        exec .tokenInternal s = .refused .elementOutOfPhase
          ∧ ∀ sym, exec (.tokenLeaf sym) s = .refused .elementOutOfPhase)
    ∧ (¬Running .wrCount s → ¬Running .rdCount s → ∀ n, exec (.count n) s = .refused .elementOutOfPhase)
    ∧ (¬Running .encode s → ¬Running .decode s →
        exec .payloadLeft s = .refused .elementOutOfPhase ∧ exec .payloadRight s = .refused .elementOutOfPhase)

/-- R194 to R196: from the root, the stream bits of a leaf's path and one more step write that leaf's symbol to the next
destination byte and return to the root, consuming exactly the path's bits; with a single-leaf tree no bit is
consumed. Nothing else changes. -/
def Obligations.DecodeFollowsACode : Prop :=
  ∀ (tree : FullTree) (path : Bits) (sym : Byte) (s : State), Running .decode s → s.host = [] →
    s.writer.outpos < s.results.symCount.toNat → s.loop.cursor = s.work.root →
    Represents s.work.nodes s.work.root tree → tree.follow path = some sym →
    peekBits s s.reader.rdpos path.length = .ok path →
    busFault s.platform .write (dstByteAddr s s.writer.outpos) = false →
    run (path.length + 1) s = .next { s with
      mem := writeByte (dstByteAddr s s.writer.outpos).toNat sym s.mem
      writer := { s.writer with outpos := s.writer.outpos + 1 }
      reader := { s.reader with rdpos := s.reader.rdpos + path.length } }

/-- R194, R235: with N symbols written DECODE ends the command with code NONE and OUT_LEN = N, reading nothing more. -/
def Obligations.DecodeEnds : Prop :=
  ∀ s u : State, EngineTurn s u → Running .decode u → u.writer.outpos = u.results.symCount.toNat →
    step s = .next { u with
      status := ⟨false, true, .noError, .decode⟩
      results := { u.results with outLen := u.results.symCount } }

/-! ## Invariants and whole-machine rules -/

/-- The invariants hold right after reset. The values of the internal state at reset, which R260 leaves unspecified, are
the model's choice (log 9), and so is the empty memory (log 5). -/
def Obligations.InvariantsHoldAtReset : Prop :=
  MachineInv State.reset ∧ TreeInv State.reset

/-- Every step keeps the invariant `MachineInv`: canonical memory, BUSY and DONE never both 1 (R25), legal windows past CHECK
(R66), the reader and the writer inside their windows (R32, R108). -/
def Obligations.StepKeepsInv : Prop :=
  ∀ s t : State, MachineInv s → step s = .next t → MachineInv t

/-- Every step keeps the invariant `TreeInv` of the tables: slots within the pool and every node index below it, so that 9
bits hold it (R42, R43); WSET at most 256 members (R44); the walk stack at most STACK_DEPTH entries (R46, R142, R157), in
CODES and SER_TREE at most LEAF_COUNT; counters that add up to L (R120, R124); trees with children below their parents and
2·K − 1 nodes (R125, R129); LEAF_COUNT at most 256 (R35); the code table's form and no code above MAX_CODE_LEN; and in
DESER_TREE the balance of leaves and awaited children (R155, R157). -/
def Obligations.StepKeepsTreeInv : Prop :=
  ∀ s t : State, MachineInv s → TreeInv s → step s = .next t → TreeInv t

/-- R67, R32, R66: an engine move writes only inside the destination window, and so never the source window. -/
def Obligations.WritesStayInTheDestinationWindow : Prop :=
  ∀ s u t : State, MachineInv s → EngineTurn s u → step s = .next t →
    (∀ a, inDest u.latched a = false → readByte a t.mem = readByte a u.mem)
      ∧ (∀ a, inSource u.latched a = true → readByte a t.mem = readByte a u.mem)

/-- R67, R108: an engine move reads only inside the source window: in two states whose memories agree on the source
window it does the same to everything but memory, completes the same destination bytes, and each byte of memory is the
same in both after it or is left as it was in each; no byte is changed but the completed ones and the one after them
(whose write may return a bus error). -/
def Obligations.ReadsStayInTheSourceWindow : Prop :=
  ∀ (s u t : State) (m : List Host.Cell), MachineInv s → EngineTurn s u →
    (∀ a, inSource s.latched a = true → readByte a m = readByte a s.mem) →
    step s = .next t →
    ∃ m', step { s with mem := m } = .next { t with mem := m' }
      ∧ (∀ a, readByte a m' = readByte a t.mem
          ∨ (readByte a m' = readByte a m ∧ readByte a t.mem = readByte a s.mem))
      ∧ (∀ j, s.writer.outpos ≤ j → j < t.writer.outpos →
          readByte (dstByteAddr s j).toNat m' = readByte (dstByteAddr s j).toNat t.mem)
      ∧ ∀ a, (∀ j, s.writer.outpos ≤ j → j ≤ t.writer.outpos → a ≠ (dstByteAddr s j).toNat) →
          readByte a m' = readByte a m ∧ readByte a t.mem = readByte a s.mem

/-- The engine never stops: from every state with the invariant its move answers a next state. -/
def Obligations.EngineAlwaysMoves : Prop :=
  ∀ s u : State, MachineInv s → EngineTurn s u → ∃ t, step s = .next t

/-- R160, R197, R270: every engine move of a running command leaves less work: the command has ended, or is in a later
phase, or further on in the same phase. -/
def Obligations.EngineMovesLeaveLessWork : Prop :=
  ∀ s u t : State, MachineInv s → TreeInv s → EngineTurn s u → u.status.busy = true → step s = .next t → LessWork t u

/-- R270: a running command ends after finitely many engine steps. -/
def Obligations.EveryCommandEnds : Prop :=
  ∀ s : State, MachineInv s → TreeInv s → s.host = [] → s.status.busy = true →
    ∃ k t, run k s = .next t ∧ t.status.busy = false ∧ t.status.done = true

/-! ## Whole commands -/

/-- R177, R171, R83, R173: COMPRESS of any source in legal windows, with readable bytes, has a tree and codes that its
paths give every source byte; it writes their stream with zero padding, and nothing else, and ends without error, or,
where that stream does not fit, ends with OUTPUT_OVERFLOW and the bytes needed, no memory touched. -/
def Obligations.CompressWritesTheStream : Prop :=
  ∀ s0 s : State, s0.status.busy = false → exec .compress s0 = .next s → s.host = [] →
    windowsLegal s.latched = true → SourceReadable s →
    ∃ (tree : FullTree) (code : Byte → Bits), tree.size ≤ Config.nodePool
      ∧ (∀ b ∈ sourceBytes s, tree.follow (code b) = some b)
      ∧ let stream := tree.stream ((sourceBytes s).map code)
        let need := (stream.length + 7) / 8
        (s.latched.dstCap.toNat < need →
          ∃ k t, run k s = .next t ∧ t.status = ⟨false, true, .outputOverflow, .size⟩
            ∧ t.results.outLen = BitVec.ofNat 32 (min need 0xFFFFFFFF) ∧ t.mem = s.mem)
        ∧ (need ≤ s.latched.dstCap.toNat → DestWritable s need →
          ∃ k t, run k s = .next t ∧ t.status = ⟨false, true, .noError, .final⟩
            ∧ t.results.outLen.toNat = need ∧ t.results.symCount = s.latched.srcLen
            ∧ t.results.treeBits.toNat = tree.serialize.length
            ∧ (s.latched.srcLen ≠ 0#32 → t.results.leafCount.toNat = tree.leaves)
            ∧ t.latched = s.latched
            ∧ destBits t need = stream ++ List.replicate (8 * need - stream.length) false
            ∧ ∀ a, (∀ j, j < need → a ≠ (dstByteAddr s j).toNat) → readByte a t.mem = readByte a s.mem)

/-- R194, R198, R91: DECOMPRESS of the stream of a tree of at most 511 nodes, a symbol count and paths of the tree,
whatever bits follow, writes exactly the symbols those paths lead to and nothing else, reads exactly the stream's bits,
and ends without error with all four results. Two leaves may hold one symbol. -/
def Obligations.DecompressDecodesTheStream : Prop :=
  ∀ (s0 s : State) (tree : FullTree) (paths : List Bits) (syms : List Byte) (pad : Bits),
    s0.status.busy = false → exec .decompress s0 = .next s → s.host = [] → windowsLegal s.latched = true →
    SourceReadable s → DestWritable s syms.length → tree.size ≤ Config.nodePool →
    paths.map tree.follow = syms.map some → syms.length ≤ s.latched.dstCap.toNat →
    sourceBits s = tree.stream paths ++ pad →
    ∃ k t, run k s = .next t ∧ t.status = ⟨false, true, .noError, .decode⟩
      ∧ t.results = ⟨BitVec.ofNat 32 syms.length, BitVec.ofNat 32 syms.length, BitVec.ofNat 32 tree.leaves,
          BitVec.ofNat 32 tree.serialize.length⟩
      ∧ t.reader.rdpos = (tree.stream paths).length
      ∧ (∀ j, (h : j < syms.length) → readByte (dstByteAddr s j).toNat t.mem = syms[j])
      ∧ ∀ a, (∀ j, j < syms.length → a ≠ (dstByteAddr s j).toNat) → readByte a t.mem = readByte a s.mem

/-- R178 (R2): what a COMPRESS that ended without error wrote, its OUT_LEN bytes given to a later DECOMPRESS with
DST_CAP ≥ L, decompresses without error to the source, for every source. Of the COMPRESS nothing is assumed but its end
without error. -/
def Obligations.RoundTrip : Prop :=
  ∀ (s0 s t s0' s' : State) (k : Nat),
    s0.status.busy = false → exec .compress s0 = .next s → s.host = [] →
    run k s = .next t → t.status = ⟨false, true, .noError, .final⟩ →
    s0'.status.busy = false → exec .decompress s0' = .next s' → s'.host = [] → windowsLegal s'.latched = true →
    SourceReadable s' → DestWritable s' s.latched.srcLen.toNat →
    s'.latched.srcLen = t.results.outLen →
    (∀ j, j < t.results.outLen.toNat →
      readByte (srcByteAddr s' j).toNat s'.mem = readByte (dstByteAddr s j).toNat t.mem) →
    s.latched.srcLen.toNat ≤ s'.latched.dstCap.toNat →
    ∃ k' t', run k' s' = .next t' ∧ t'.status = ⟨false, true, .noError, .decode⟩
      ∧ t'.results.outLen = s.latched.srcLen
      ∧ ∀ j, (h : j < (sourceBytes s).length) → readByte (dstByteAddr s' j).toNat t'.mem = (sourceBytes s)[j]
end

