-- ==== Sys2Proof/Laws/State.lean ====
section
/-! SUPPORT. One lemma per field for each named update of State, so that no proof unfolds a record update. -/

namespace Sys2Proof.Machine

/-- 9 bits number the slots of the node pool (R42). -/
theorem nodePool_le : Config.nodePool ≤ 2 ^ Config.indexWidth := by decide

variable (s : State)

@[simp] theorem toPhase_cmd (p : Phase) : (State.toPhase p s).cmd = s.cmd := rfl
@[simp] theorem toPhase_status_busy (p : Phase) : (State.toPhase p s).status.busy = s.status.busy := rfl
@[simp] theorem toPhase_status_done (p : Phase) : (State.toPhase p s).status.done = s.status.done := rfl
@[simp] theorem toPhase_status_errcode (p : Phase) : (State.toPhase p s).status.errcode = s.status.errcode := rfl
@[simp] theorem toPhase_status_phase (p : Phase) : (State.toPhase p s).status.phase = p := rfl
@[simp] theorem toPhase_win (p : Phase) : (State.toPhase p s).win = s.win := rfl
@[simp] theorem toPhase_results (p : Phase) : (State.toPhase p s).results = s.results := rfl
@[simp] theorem toPhase_irqEn (p : Phase) : (State.toPhase p s).irqEn = s.irqEn := rfl
@[simp] theorem toPhase_latched (p : Phase) : (State.toPhase p s).latched = s.latched := rfl
@[simp] theorem toPhase_work (p : Phase) : (State.toPhase p s).work = s.work := rfl
@[simp] theorem toPhase_writer (p : Phase) : (State.toPhase p s).writer = s.writer := rfl
@[simp] theorem toPhase_reader (p : Phase) : (State.toPhase p s).reader = s.reader := rfl
@[simp] theorem toPhase_loop (p : Phase) : (State.toPhase p s).loop = s.loop := rfl
@[simp] theorem toPhase_platform (p : Phase) : (State.toPhase p s).platform = s.platform := rfl
@[simp] theorem toPhase_mem (p : Phase) : (State.toPhase p s).mem = s.mem := rfl
@[simp] theorem toPhase_host (p : Phase) : (State.toPhase p s).host = s.host := rfl
@[simp] theorem toPhase_rdata (p : Phase) : (State.toPhase p s).rdata = s.rdata := rfl
@[simp] theorem toPhase_draws (p : Phase) : (State.toPhase p s).draws = s.draws := rfl

@[simp] theorem advance_cmd (n : Nat) : (State.advance n s).cmd = s.cmd := rfl
@[simp] theorem advance_status (n : Nat) : (State.advance n s).status = s.status := rfl
@[simp] theorem advance_win (n : Nat) : (State.advance n s).win = s.win := rfl
@[simp] theorem advance_results (n : Nat) : (State.advance n s).results = s.results := rfl
@[simp] theorem advance_irqEn (n : Nat) : (State.advance n s).irqEn = s.irqEn := rfl
@[simp] theorem advance_latched (n : Nat) : (State.advance n s).latched = s.latched := rfl
@[simp] theorem advance_work (n : Nat) : (State.advance n s).work = s.work := rfl
@[simp] theorem advance_writer (n : Nat) : (State.advance n s).writer = s.writer := rfl
@[simp] theorem advance_reader_rdpos (n : Nat) : (State.advance n s).reader.rdpos = s.reader.rdpos + n := rfl
@[simp] theorem advance_reader_rdlimit (n : Nat) : (State.advance n s).reader.rdlimit = s.reader.rdlimit := rfl
@[simp] theorem advance_loop (n : Nat) : (State.advance n s).loop = s.loop := rfl
@[simp] theorem advance_platform (n : Nat) : (State.advance n s).platform = s.platform := rfl
@[simp] theorem advance_mem (n : Nat) : (State.advance n s).mem = s.mem := rfl
@[simp] theorem advance_host (n : Nat) : (State.advance n s).host = s.host := rfl
@[simp] theorem advance_rdata (n : Nat) : (State.advance n s).rdata = s.rdata := rfl
@[simp] theorem advance_draws (n : Nat) : (State.advance n s).draws = s.draws := rfl

@[simp] theorem startCommand_cmd (w : Word) : (startCommand w s).cmd = w := rfl
@[simp] theorem startCommand_status (w : Word) : (startCommand w s).status = ⟨true, false, .noError, .check⟩ := rfl
@[simp] theorem startCommand_win (w : Word) : (startCommand w s).win = s.win := rfl
@[simp] theorem startCommand_results (w : Word) : (startCommand w s).results = ⟨0#32, 0#32, 0#32, 0#32⟩ := rfl
@[simp] theorem startCommand_irqEn (w : Word) : (startCommand w s).irqEn = s.irqEn := rfl
@[simp] theorem startCommand_latched (w : Word) : (startCommand w s).latched = s.win := rfl
@[simp] theorem startCommand_work_freq (w : Word) : (startCommand w s).work.freq = [] := rfl
@[simp] theorem startCommand_work_nodes (w : Word) : (startCommand w s).work.nodes = s.work.nodes := rfl
@[simp] theorem startCommand_work_nnodes (w : Word) : (startCommand w s).work.nnodes = 0 := rfl
@[simp] theorem startCommand_work_root (w : Word) : (startCommand w s).work.root = s.work.root := rfl
@[simp] theorem startCommand_work_wset (w : Word) : (startCommand w s).work.wset = [] := rfl
@[simp] theorem startCommand_work_code (w : Word) : (startCommand w s).work.code = [] := rfl
@[simp] theorem startCommand_work_stack (w : Word) : (startCommand w s).work.stack = [] := rfl
@[simp] theorem startCommand_writer (w : Word) : (startCommand w s).writer = ⟨0#8, 0#3, 0, 0⟩ := rfl
@[simp] theorem startCommand_reader (w : Word) : (startCommand w s).reader = ⟨0, 8 * s.win.srcLen.toNat⟩ := rfl
@[simp] theorem startCommand_loop (w : Word) : (startCommand w s).loop = ⟨0, [], 0⟩ := rfl
@[simp] theorem startCommand_platform (w : Word) : (startCommand w s).platform = s.platform := rfl
@[simp] theorem startCommand_mem (w : Word) : (startCommand w s).mem = s.mem := rfl
@[simp] theorem startCommand_host (w : Word) : (startCommand w s).host = s.host := rfl
@[simp] theorem startCommand_rdata (w : Word) : (startCommand w s).rdata = s.rdata := rfl
@[simp] theorem startCommand_draws (w : Word) : (startCommand w s).draws = s.draws := rfl

@[simp] theorem fillBit_cmd (b : Bool) : (fillBit b s).cmd = s.cmd := rfl
@[simp] theorem fillBit_status (b : Bool) : (fillBit b s).status = s.status := rfl
@[simp] theorem fillBit_win (b : Bool) : (fillBit b s).win = s.win := rfl
@[simp] theorem fillBit_results (b : Bool) : (fillBit b s).results = s.results := rfl
@[simp] theorem fillBit_irqEn (b : Bool) : (fillBit b s).irqEn = s.irqEn := rfl
@[simp] theorem fillBit_latched (b : Bool) : (fillBit b s).latched = s.latched := rfl
@[simp] theorem fillBit_work (b : Bool) : (fillBit b s).work = s.work := rfl
@[simp] theorem fillBit_reader (b : Bool) : (fillBit b s).reader = s.reader := rfl
@[simp] theorem fillBit_loop (b : Bool) : (fillBit b s).loop = s.loop := rfl
@[simp] theorem fillBit_platform (b : Bool) : (fillBit b s).platform = s.platform := rfl
@[simp] theorem fillBit_mem (b : Bool) : (fillBit b s).mem = s.mem := rfl
@[simp] theorem fillBit_host (b : Bool) : (fillBit b s).host = s.host := rfl
@[simp] theorem fillBit_rdata (b : Bool) : (fillBit b s).rdata = s.rdata := rfl
@[simp] theorem fillBit_draws (b : Bool) : (fillBit b s).draws = s.draws := rfl
@[simp] theorem fillBit_writer_acc (b : Bool) : (fillBit b s).writer.acc = assignBit s.writer.acc (7 - s.writer.nacc.toNat) b := rfl
@[simp] theorem fillBit_writer_outpos (b : Bool) : (fillBit b s).writer.outpos = s.writer.outpos := rfl
@[simp] theorem fillBit_writer_wbits (b : Bool) : (fillBit b s).writer.wbits = s.writer.wbits + 1 := rfl

@[simp] theorem endCommand_cmd (e : ErrCode) : (endCommand e s).cmd = s.cmd := rfl
@[simp] theorem endCommand_status_busy (e : ErrCode) : (endCommand e s).status.busy = false := rfl
@[simp] theorem endCommand_status_done (e : ErrCode) : (endCommand e s).status.done = true := rfl
@[simp] theorem endCommand_status_errcode (e : ErrCode) : (endCommand e s).status.errcode = e := rfl
@[simp] theorem endCommand_status_phase (e : ErrCode) : (endCommand e s).status.phase = s.status.phase := rfl
@[simp] theorem endCommand_win (e : ErrCode) : (endCommand e s).win = s.win := rfl
@[simp] theorem endCommand_results_outLen (e : ErrCode) : (endCommand e s).results.outLen = (if e = .outputOverflow then s.results.outLen else BitVec.ofNat 32 s.writer.outpos) := rfl
@[simp] theorem endCommand_results_symCount (e : ErrCode) : (endCommand e s).results.symCount = s.results.symCount := rfl
@[simp] theorem endCommand_results_leafCount (e : ErrCode) : (endCommand e s).results.leafCount = s.results.leafCount := rfl
@[simp] theorem endCommand_results_treeBits (e : ErrCode) : (endCommand e s).results.treeBits = s.results.treeBits := rfl
@[simp] theorem endCommand_irqEn (e : ErrCode) : (endCommand e s).irqEn = s.irqEn := rfl
@[simp] theorem endCommand_latched (e : ErrCode) : (endCommand e s).latched = s.latched := rfl
@[simp] theorem endCommand_work (e : ErrCode) : (endCommand e s).work = s.work := rfl
@[simp] theorem endCommand_writer (e : ErrCode) : (endCommand e s).writer = s.writer := rfl
@[simp] theorem endCommand_reader (e : ErrCode) : (endCommand e s).reader = s.reader := rfl
@[simp] theorem endCommand_loop (e : ErrCode) : (endCommand e s).loop = s.loop := rfl
@[simp] theorem endCommand_platform (e : ErrCode) : (endCommand e s).platform = s.platform := rfl
@[simp] theorem endCommand_mem (e : ErrCode) : (endCommand e s).mem = s.mem := rfl
@[simp] theorem endCommand_host (e : ErrCode) : (endCommand e s).host = s.host := rfl
@[simp] theorem endCommand_rdata (e : ErrCode) : (endCommand e s).rdata = s.rdata := rfl
@[simp] theorem endCommand_draws (e : ErrCode) : (endCommand e s).draws = s.draws := rfl

@[simp] theorem serNext_cmd : (serNext s).cmd = s.cmd := rfl
@[simp] theorem serNext_status : (serNext s).status = s.status := rfl
@[simp] theorem serNext_win : (serNext s).win = s.win := rfl
@[simp] theorem serNext_results : (serNext s).results = s.results := rfl
@[simp] theorem serNext_irqEn : (serNext s).irqEn = s.irqEn := rfl
@[simp] theorem serNext_latched : (serNext s).latched = s.latched := rfl
@[simp] theorem serNext_work_freq : (serNext s).work.freq = s.work.freq := rfl
@[simp] theorem serNext_work_nodes : (serNext s).work.nodes = s.work.nodes := rfl
@[simp] theorem serNext_work_nnodes : (serNext s).work.nnodes = s.work.nnodes := rfl
@[simp] theorem serNext_work_root : (serNext s).work.root = s.work.root := rfl
@[simp] theorem serNext_work_wset : (serNext s).work.wset = s.work.wset := rfl
@[simp] theorem serNext_work_code : (serNext s).work.code = s.work.code := rfl
@[simp] theorem serNext_work_stack : (serNext s).work.stack = walkOn s.work.nodes s.work.stack := rfl
@[simp] theorem serNext_writer : (serNext s).writer = s.writer := rfl
@[simp] theorem serNext_reader : (serNext s).reader = s.reader := rfl
@[simp] theorem serNext_loop : (serNext s).loop = s.loop := rfl
@[simp] theorem serNext_platform : (serNext s).platform = s.platform := rfl
@[simp] theorem serNext_mem : (serNext s).mem = s.mem := rfl
@[simp] theorem serNext_host : (serNext s).host = s.host := rfl
@[simp] theorem serNext_rdata : (serNext s).rdata = s.rdata := rfl
@[simp] theorem serNext_draws : (serNext s).draws = s.draws := rfl

@[simp] theorem walkStep_cmd (n : Nat) : (walkStep n s).cmd = s.cmd := rfl
@[simp] theorem walkStep_status (n : Nat) : (walkStep n s).status = s.status := rfl
@[simp] theorem walkStep_win (n : Nat) : (walkStep n s).win = s.win := rfl
@[simp] theorem walkStep_results (n : Nat) : (walkStep n s).results = s.results := rfl
@[simp] theorem walkStep_irqEn (n : Nat) : (walkStep n s).irqEn = s.irqEn := rfl
@[simp] theorem walkStep_latched (n : Nat) : (walkStep n s).latched = s.latched := rfl
@[simp] theorem walkStep_work (n : Nat) : (walkStep n s).work = s.work := rfl
@[simp] theorem walkStep_writer (n : Nat) : (walkStep n s).writer = s.writer := rfl
@[simp] theorem walkStep_reader_rdpos (n : Nat) : (walkStep n s).reader.rdpos = s.reader.rdpos + 1 := rfl
@[simp] theorem walkStep_reader_rdlimit (n : Nat) : (walkStep n s).reader.rdlimit = s.reader.rdlimit := rfl
@[simp] theorem walkStep_loop_idx (n : Nat) : (walkStep n s).loop.idx = s.loop.idx := rfl
@[simp] theorem walkStep_loop_codeRest (n : Nat) : (walkStep n s).loop.codeRest = s.loop.codeRest := rfl
@[simp] theorem walkStep_loop_cursor (n : Nat) : (walkStep n s).loop.cursor = n := rfl
@[simp] theorem walkStep_platform (n : Nat) : (walkStep n s).platform = s.platform := rfl
@[simp] theorem walkStep_mem (n : Nat) : (walkStep n s).mem = s.mem := rfl
@[simp] theorem walkStep_host (n : Nat) : (walkStep n s).host = s.host := rfl
@[simp] theorem walkStep_rdata (n : Nat) : (walkStep n s).rdata = s.rdata := rfl
@[simp] theorem walkStep_draws (n : Nat) : (walkStep n s).draws = s.draws := rfl

@[simp] theorem takeCount_cmd (n : Word) : (takeCount n s).cmd = s.cmd := rfl
@[simp] theorem takeCount_status (n : Word) : (takeCount n s).status = s.status := rfl
@[simp] theorem takeCount_win (n : Word) : (takeCount n s).win = s.win := rfl
@[simp] theorem takeCount_results_outLen (n : Word) : (takeCount n s).results.outLen = s.results.outLen := rfl
@[simp] theorem takeCount_results_symCount (n : Word) : (takeCount n s).results.symCount = n := rfl
@[simp] theorem takeCount_results_leafCount (n : Word) : (takeCount n s).results.leafCount = s.results.leafCount := rfl
@[simp] theorem takeCount_results_treeBits (n : Word) : (takeCount n s).results.treeBits = s.results.treeBits := rfl
@[simp] theorem takeCount_irqEn (n : Word) : (takeCount n s).irqEn = s.irqEn := rfl
@[simp] theorem takeCount_latched (n : Word) : (takeCount n s).latched = s.latched := rfl
@[simp] theorem takeCount_work (n : Word) : (takeCount n s).work = s.work := rfl
@[simp] theorem takeCount_writer (n : Word) : (takeCount n s).writer = s.writer := rfl
@[simp] theorem takeCount_reader_rdpos (n : Word) : (takeCount n s).reader.rdpos = s.reader.rdpos + 32 := rfl
@[simp] theorem takeCount_reader_rdlimit (n : Word) : (takeCount n s).reader.rdlimit = s.reader.rdlimit := rfl
@[simp] theorem takeCount_loop (n : Word) : (takeCount n s).loop = s.loop := rfl
@[simp] theorem takeCount_platform (n : Word) : (takeCount n s).platform = s.platform := rfl
@[simp] theorem takeCount_mem (n : Word) : (takeCount n s).mem = s.mem := rfl
@[simp] theorem takeCount_host (n : Word) : (takeCount n s).host = s.host := rfl
@[simp] theorem takeCount_rdata (n : Word) : (takeCount n s).rdata = s.rdata := rfl
@[simp] theorem takeCount_draws (n : Word) : (takeCount n s).draws = s.draws := rfl

@[simp] theorem startDecode_cmd : (startDecode s).cmd = s.cmd := rfl
@[simp] theorem startDecode_status_busy : (startDecode s).status.busy = s.status.busy := rfl
@[simp] theorem startDecode_status_done : (startDecode s).status.done = s.status.done := rfl
@[simp] theorem startDecode_status_errcode : (startDecode s).status.errcode = s.status.errcode := rfl
@[simp] theorem startDecode_status_phase : (startDecode s).status.phase = .decode := rfl
@[simp] theorem startDecode_win : (startDecode s).win = s.win := rfl
@[simp] theorem startDecode_results : (startDecode s).results = s.results := rfl
@[simp] theorem startDecode_irqEn : (startDecode s).irqEn = s.irqEn := rfl
@[simp] theorem startDecode_latched : (startDecode s).latched = s.latched := rfl
@[simp] theorem startDecode_work : (startDecode s).work = s.work := rfl
@[simp] theorem startDecode_writer : (startDecode s).writer = s.writer := rfl
@[simp] theorem startDecode_reader : (startDecode s).reader = s.reader := rfl
@[simp] theorem startDecode_loop_idx : (startDecode s).loop.idx = s.loop.idx := rfl
@[simp] theorem startDecode_loop_codeRest : (startDecode s).loop.codeRest = s.loop.codeRest := rfl
@[simp] theorem startDecode_loop_cursor : (startDecode s).loop.cursor = s.work.root := rfl
@[simp] theorem startDecode_platform : (startDecode s).platform = s.platform := rfl
@[simp] theorem startDecode_mem : (startDecode s).mem = s.mem := rfl
@[simp] theorem startDecode_host : (startDecode s).host = s.host := rfl
@[simp] theorem startDecode_rdata : (startDecode s).rdata = s.rdata := rfl
@[simp] theorem startDecode_draws : (startDecode s).draws = s.draws := rfl

@[simp] theorem fromBytes_cmd : (fromBytes s).cmd = s.cmd := rfl
@[simp] theorem fromBytes_status : (fromBytes s).status = s.status := rfl
@[simp] theorem fromBytes_win : (fromBytes s).win = s.win := rfl
@[simp] theorem fromBytes_results : (fromBytes s).results = s.results := rfl
@[simp] theorem fromBytes_irqEn : (fromBytes s).irqEn = s.irqEn := rfl
@[simp] theorem fromBytes_latched : (fromBytes s).latched = s.latched := rfl
@[simp] theorem fromBytes_work : (fromBytes s).work = s.work := rfl
@[simp] theorem fromBytes_writer : (fromBytes s).writer = s.writer := rfl
@[simp] theorem fromBytes_reader : (fromBytes s).reader = ⟨0, 8 * s.latched.srcLen.toNat⟩ := rfl
@[simp] theorem fromBytes_loop : (fromBytes s).loop = s.loop := rfl
@[simp] theorem fromBytes_platform : (fromBytes s).platform = s.platform := rfl
@[simp] theorem fromBytes_mem : (fromBytes s).mem = s.mem := rfl
@[simp] theorem fromBytes_host : (fromBytes s).host = s.host := rfl
@[simp] theorem fromBytes_rdata : (fromBytes s).rdata = s.rdata := rfl
@[simp] theorem fromBytes_draws : (fromBytes s).draws = s.draws := rfl

@[simp] theorem buildDone_cmd (r : Nat) : (buildDone r s).cmd = s.cmd := rfl
@[simp] theorem buildDone_status_busy (r : Nat) : (buildDone r s).status.busy = s.status.busy := rfl
@[simp] theorem buildDone_status_done (r : Nat) : (buildDone r s).status.done = s.status.done := rfl
@[simp] theorem buildDone_status_errcode (r : Nat) : (buildDone r s).status.errcode = s.status.errcode := rfl
@[simp] theorem buildDone_status_phase (r : Nat) : (buildDone r s).status.phase = .codes := rfl
@[simp] theorem buildDone_win (r : Nat) : (buildDone r s).win = s.win := rfl
@[simp] theorem buildDone_results (r : Nat) : (buildDone r s).results = s.results := rfl
@[simp] theorem buildDone_irqEn (r : Nat) : (buildDone r s).irqEn = s.irqEn := rfl
@[simp] theorem buildDone_latched (r : Nat) : (buildDone r s).latched = s.latched := rfl
@[simp] theorem buildDone_work_freq (r : Nat) : (buildDone r s).work.freq = s.work.freq := rfl
@[simp] theorem buildDone_work_nodes (r : Nat) : (buildDone r s).work.nodes = s.work.nodes := rfl
@[simp] theorem buildDone_work_nnodes (r : Nat) : (buildDone r s).work.nnodes = s.work.nnodes := rfl
@[simp] theorem buildDone_work_wset (r : Nat) : (buildDone r s).work.wset = s.work.wset := rfl
@[simp] theorem buildDone_work_code (r : Nat) : (buildDone r s).work.code = s.work.code := rfl
@[simp] theorem buildDone_work_root (r : Nat) : (buildDone r s).work.root = r := rfl
@[simp] theorem buildDone_work_stack (r : Nat) : (buildDone r s).work.stack = walkFrom r := rfl
@[simp] theorem buildDone_writer (r : Nat) : (buildDone r s).writer = s.writer := rfl
@[simp] theorem buildDone_reader (r : Nat) : (buildDone r s).reader = s.reader := rfl
@[simp] theorem buildDone_loop (r : Nat) : (buildDone r s).loop = s.loop := rfl
@[simp] theorem buildDone_platform (r : Nat) : (buildDone r s).platform = s.platform := rfl
@[simp] theorem buildDone_mem (r : Nat) : (buildDone r s).mem = s.mem := rfl
@[simp] theorem buildDone_host (r : Nat) : (buildDone r s).host = s.host := rfl
@[simp] theorem buildDone_rdata (r : Nat) : (buildDone r s).rdata = s.rdata := rfl
@[simp] theorem buildDone_draws (r : Nat) : (buildDone r s).draws = s.draws := rfl


end Sys2Proof.Machine
end

