-- ==== Sys2Proof/Laws/Turn.lean ====
section
/-! SUPPORT. Whose move a step is (R210): a step of the engine is `phaseStep` of the phase, a step of the host is its
first queued move; and which register a host access reaches (R71). -/

namespace Sys2Proof.Machine

open Sys2Proof.Safety

/-! ### The engine's turn -/

theorem step_engine {s u : State} (h : EngineTurn s u) : step s = engineStep u := by
  rcases h with ⟨h, rfl⟩ | ⟨rest, h, rfl⟩ <;> simp [step, nextMove, h, hostMove]

theorem active_running {p : Phase} {s : State} (h : Running p s) : s.active = some p := by
  simp [State.active, h.1, h.2]

theorem active_idle {s : State} (h : s.status.busy = false) : s.active = none := by
  simp [State.active, h]

theorem engineStep_running {p : Phase} {s : State} (h : Running p s) : engineStep s = phaseStep p s := by
  simp [engineStep, active_running h]

theorem engineStep_idle {s : State} (h : s.status.busy = false) : engineStep s = .next s := by
  simp [engineStep, active_idle h]

/-- A step of a running command in phase `p`. -/
theorem step_phase {p : Phase} {s u : State} (h : EngineTurn s u) (hp : Running p u) : step s = phaseStep p u := by
  rw [step_engine h, engineStep_running hp]

/-- With no move of the host pending the engine moves. -/
theorem engineTurn_self {s : State} (h : s.host = []) : EngineTurn s s := .inl ⟨h, rfl⟩

/-- What a queued host has in common with the state its pass leaves to the engine: all but the queue. -/
theorem engineTurn_host {s u : State} (h : EngineTurn s u) : u = { s with host := u.host } := by
  rcases h with ⟨_, rfl⟩ | ⟨rest, _, rfl⟩ <;> rfl

/-! ### Steps in a row -/

theorem run_zero (s : State) : run 0 s = .next s := rfl

theorem run_succ {s t : State} (k : Nat) (h : step s = .next t) : run (k + 1) s = run k t := by
  simp [run, h]

theorem run_one (s : State) : run 1 s = step s := by
  cases h : step s <;> simp [run, h]

theorem run_add {s t : State} {j : Nat} (k : Nat) (h : run j s = .next t) : run (j + k) s = run k t := by
  induction j generalizing s with
  | zero => cases h; rw [Nat.zero_add]
  | succ j ih =>
    rw [Nat.add_right_comm]
    cases hs : step s with
    | next u => simp only [run, hs] at h ⊢; exact ih h
    | fault r => simp [run, hs] at h
    | refused r => simp [run, hs] at h

/-! ### The host's turn -/

theorem step_host {s : State} {m : HostMove} {rest : List HostMove} (h : s.host = m :: rest) :
    step s = hostMove m { s with host := rest } := by
  simp [step, nextMove, h]

/-- The offset of a register of the block (R21). -/
theorem regAddr_sub (p : Platform) {k : Nat} (hk : k < 16) : (regAddr p k - regBaseAddr p).toNat = 4 * k := by
  have h : regAddr p k - regBaseAddr p = BitVec.ofNat 32 (4 * k) := by
    unfold regAddr
    rw [BitVec.add_comm, BitVec.add_sub_cancel]
  rw [h, BitVec.toNat_ofNat, Nat.mod_eq_of_lt (by omega)]

/-- An aligned 32-bit access inside the block reaches the register at its offset (R71, R21). -/
theorem accessedReg_regAddr (p : Platform) {k : Nat} (hk : k < 16) :
    accessedReg p (regAddr p k) 4 = some (regAt k) := by
  unfold accessedReg
  rw [regAddr_sub p hk]
  have h : 4 * k < 64 ∧ 4 * k % 4 = 0 := by omega
  simp [h]

/-- Every other access reaches none. -/
theorem accessedReg_odd (p : Platform) (addr : Word) (bytes : Nat)
    (h : bytes ≠ 4 ∨ (addr - regBaseAddr p).toNat % 4 ≠ 0 ∨ 64 ≤ (addr - regBaseAddr p).toNat) :
    accessedReg p addr bytes = none := by
  unfold accessedReg
  rw [if_neg]
  omega

theorem hostMove_read {s : State} {k : Nat} (hk : k < 16) :
    hostMove (.read (regAddr s.platform k) 4) s = .next (hostRead (regAt k) s) := by
  simp [hostMove, accessedReg_regAddr _ hk]

theorem hostMove_write {s : State} {k : Nat} (v : Word) (hk : k < 16) :
    hostMove (.write (regAddr s.platform k) 4 v) s = hostWrite (regAt k) v s := by
  simp [hostMove, accessedReg_regAddr _ hk]

/-! ### The command word (R81) -/

theorem decodeCmd_compress {w : Word} : decodeCmd w = .ok .compress ↔ w = 0x00000001#32 := by
  constructor
  · intro h
    unfold decodeCmd at h
    split at h
    · exact nomatch h
    · split at h
      · next h1 h2 =>
        have e : w = w.extractLsb' 4 28 ++ w.extractLsb' 0 4 := by
          apply BitVec.eq_of_getLsbD_eq
          intro i hi
          simp only [BitVec.getLsbD_append, BitVec.getLsbD_extractLsb']
          by_cases h4 : i < 4
          · simp [h4]
          · have : i - 4 < 28 := by omega
            simp [h4, this, show 4 + (i - 4) = i by omega]
        rw [e, Decidable.not_not.1 h1, h2]
        decide
      · split at h <;> simp at h
  · rintro rfl
    decide

theorem decodeCmd_decompress {w : Word} : decodeCmd w = .ok .decompress ↔ w = 0x00000002#32 := by
  constructor
  · intro h
    unfold decodeCmd at h
    split at h
    · exact nomatch h
    · split at h
      · simp at h
      · split at h
        · next h1 _ h2 =>
          have e : w = w.extractLsb' 4 28 ++ w.extractLsb' 0 4 := by
            apply BitVec.eq_of_getLsbD_eq
            intro i hi
            simp only [BitVec.getLsbD_append, BitVec.getLsbD_extractLsb']
            by_cases h4 : i < 4
            · simp [h4]
            · have : i - 4 < 28 := by omega
              simp [h4, this, show 4 + (i - 4) = i by omega]
          rw [e, Decidable.not_not.1 h1, h2]
          decide
        · simp at h
  · rintro rfl
    decide

/-- The command words are two; every other word is illegal. -/
theorem decodeCmd_cases (w : Word) :
    (w = 0x00000001#32 ∧ decodeCmd w = .ok .compress) ∨ (w = 0x00000002#32 ∧ decodeCmd w = .ok .decompress)
      ∨ (w ≠ 0x00000001#32 ∧ w ≠ 0x00000002#32 ∧ ∃ e, decodeCmd w = .error e) := by
  cases h : decodeCmd w with
  | error e =>
    refine .inr (.inr ⟨fun hw => ?_, fun hw => ?_, e, rfl⟩)
    · rw [decodeCmd_compress.2 hw] at h; exact nomatch h
    · rw [decodeCmd_decompress.2 hw] at h; exact nomatch h
  | ok i =>
    have hi : i = .compress ∨ i = .decompress := by
      unfold decodeCmd at h
      repeat (split at h; · simp_all)
      simp at h
    rcases hi with rfl | rfl
    · exact .inl ⟨decodeCmd_compress.1 h, rfl⟩
    · exact .inr (.inl ⟨decodeCmd_decompress.1 h, rfl⟩)

/-- A host write of CMD is a command start, whatever the word, with BUSY = 0, and nothing with BUSY = 1 (R211, R213). -/
theorem hostWriteCmd_eq (v : Word) (s : State) : hostWriteCmd v s = .next (commandWrite v s) := by
  unfold hostWriteCmd
  rcases decodeCmd_cases v with ⟨rfl, h⟩ | ⟨rfl, h⟩ | ⟨_, _, e, h⟩ <;> rw [h] <;> rfl

end Sys2Proof.Machine
end

