-- ==== Sys2Proof/Laws/Store.lean ====
section
/-! SUPPORT. The laws of indexed stores (log 10): read after write, and that a write keeps the canonical form; the same
for platform memory. -/

namespace Sys2Proof.Machine

variable {α : Type}

theorem storeGet_storeRemove (d : α) (k j : Nat) (l : List (Nat × α)) :
    storeGet d j (storeRemove k l) = if j = k then d else storeGet d j l := by
  unfold storeRemove
  induction l with
  | nil => simp [storeGet]
  | cons e rest ih =>
    by_cases hek : e.1 = k
    · simp only [List.filter_cons, hek, bne_self_eq_false, Bool.false_eq_true, if_false, ih, storeGet]
      split <;> simp_all
    · have : (e.1 != k) = true := by simpa using hek
      simp only [List.filter_cons, this, if_true, storeGet, ih]
      by_cases hj : j = e.1
      · simp [hj, hek]
      · simp [hj]

theorem storeGet_storeInsert (d : α) (k j : Nat) (v : α) (l : List (Nat × α)) (h : ∀ e ∈ l, e.1 ≠ k) :
    storeGet d j (storeInsert k v l) = if j = k then v else storeGet d j l := by
  induction l with
  | nil => simp [storeInsert, storeGet]
  | cons e rest ih =>
    have hne := h e (by simp)
    have ih := ih fun x hx => h x (by simp [hx])
    unfold storeInsert
    split
    · simp [storeGet]
    · simp only [storeGet, ih]
      by_cases hj : j = e.1
      · simp [hj, hne]
      · simp [hj]

/-- Read after write. -/
theorem storeGet_storeSet [DecidableEq α] (d : α) (k j : Nat) (v : α) (l : List (Nat × α)) :
    storeGet d j (storeSet d k v l) = if j = k then v else storeGet d j l := by
  unfold storeSet
  split
  · next h => simp [storeGet_storeRemove, h]
  · rw [storeGet_storeInsert, storeGet_storeRemove]
    · split <;> simp_all
    · simp [storeRemove]

@[simp] theorem storeGet_storeSet_self [DecidableEq α] (d : α) (k : Nat) (v : α) (l : List (Nat × α)) :
    storeGet d k (storeSet d k v l) = v := by
  simp [storeGet_storeSet]

theorem storeGet_storeSet_ne [DecidableEq α] (d : α) {k j : Nat} (v : α) (l : List (Nat × α)) (h : j ≠ k) :
    storeGet d j (storeSet d k v l) = storeGet d j l := by
  simp [storeGet_storeSet, h]

theorem mem_storeInsert {k : Nat} {v : α} {l : List (Nat × α)} {e : Nat × α} :
    e ∈ storeInsert k v l ↔ e = (k, v) ∨ e ∈ l := by
  induction l with
  | nil => simp [storeInsert]
  | cons x rest ih =>
    unfold storeInsert
    split
    · simp
    · simp only [List.mem_cons, ih]
      tauto

theorem storeWf_storeRemove (d : α) (n k : Nat) {l : List (Nat × α)} (h : storeWf d n l) :
    storeWf d n (storeRemove k l) := by
  obtain ⟨hs, he⟩ := h
  refine ⟨?_, fun e h => he e ?_⟩
  · exact hs.sublist (List.Sublist.map Prod.fst List.filter_sublist)
  · exact (List.mem_filter.1 h).1

theorem storeInsert_sorted (k : Nat) (v : α) {l : List (Nat × α)} (hs : (l.map Prod.fst).Pairwise (· < ·))
    (hk : ∀ e ∈ l, e.1 ≠ k) : ((storeInsert k v l).map Prod.fst).Pairwise (· < ·) := by
  induction l with
  | nil => simp [storeInsert]
  | cons x rest ih =>
    simp only [List.map_cons, List.pairwise_cons] at hs
    have hx := hk x (by simp)
    unfold storeInsert
    split
    · next hlt =>
      simp only [List.map_cons, List.pairwise_cons]
      refine ⟨fun a ha => ?_, hs⟩
      rcases List.mem_cons.1 ha with rfl | ha
      · exact hlt
      · exact Nat.lt_trans hlt (hs.1 a ha)
    · next hge =>
      simp only [List.map_cons, List.pairwise_cons]
      refine ⟨fun a ha => ?_, ih hs.2 fun e he => hk e (by simp [he])⟩
      obtain ⟨e, he, rfl⟩ := List.mem_map.1 ha
      rcases mem_storeInsert.1 he with rfl | he
      · simp only; omega
      · exact hs.1 _ (List.mem_map.2 ⟨e, he, rfl⟩)

/-- A write keeps the canonical form. -/
theorem storeWf_storeSet [DecidableEq α] (d : α) (n k : Nat) (v : α) {l : List (Nat × α)} (h : storeWf d n l)
    (hk : k < n) : storeWf d n (storeSet d k v l) := by
  have hr := storeWf_storeRemove d n k h
  unfold storeSet
  split
  · exact hr
  · next hv =>
    refine ⟨storeInsert_sorted k v hr.1 (by simp [storeRemove]), fun e he => ?_⟩
    rcases mem_storeInsert.1 he with rfl | he
    · exact ⟨hv, hk⟩
    · exact hr.2 e he

/-- A write lists nothing but its entry and what was listed. -/
theorem mem_storeSet [DecidableEq α] {d : α} {k : Nat} {v : α} {l : List (Nat × α)} {e : Nat × α}
    (h : e ∈ storeSet d k v l) : e = (k, v) ∨ e ∈ l := by
  unfold storeSet at h
  split at h
  · exact .inr (List.mem_filter.1 h).1
  · exact (mem_storeInsert.1 h).imp id fun h => (List.mem_filter.1 h).1

theorem storeWf_nil (d : α) (n : Nat) : storeWf d n ([] : List (Nat × α)) :=
  ⟨by simp, by simp⟩

/-! ### Platform memory -/

theorem readByte_writeByte (a b : Nat) (v : Byte) (m : List Host.Cell) :
    readByte b (writeByte a v m) = if b = a then v else readByte b m :=
  storeGet_storeSet _ _ _ _ _

@[simp] theorem readByte_writeByte_self (a : Nat) (v : Byte) (m : List Host.Cell) :
    readByte a (writeByte a v m) = v := by
  simp [readByte_writeByte]

theorem readByte_writeByte_ne {a b : Nat} (v : Byte) (m : List Host.Cell) (h : b ≠ a) :
    readByte b (writeByte a v m) = readByte b m := by
  simp [readByte_writeByte, h]

/-- A byte write keeps memory's canonical form. -/
theorem memWf_writeByte {a : Nat} (v : Byte) {m : List Host.Cell} (h : Memory.wf m) (ha : a < Config.addressSpace) :
    Memory.wf (writeByte a v m) :=
  storeWf_storeSet _ _ _ _ h ha

/-- The memory of State.reset is canonical. -/
theorem memWf_reset : Memory.wf State.reset.mem :=
  storeWf_nil _ _

/-! ### The node pool -/

theorem nodeAt_setNode (n k : Nat) (v : Node) (nodes : List (Nat × Node)) :
    nodeAt (setNode n v nodes) k = if k = n then v else nodeAt nodes k :=
  storeGet_storeSet _ _ _ _ _

@[simp] theorem nodeAt_setNode_self (n : Nat) (v : Node) (nodes : List (Nat × Node)) :
    nodeAt (setNode n v nodes) n = v := by
  simp [nodeAt_setNode]

theorem nodeAt_setNode_ne {n k : Nat} (v : Node) (nodes : List (Nat × Node)) (h : k ≠ n) :
    nodeAt (setNode n v nodes) k = nodeAt nodes k := by
  simp [nodeAt_setNode, h]

theorem nodeAt_setLeaf (n k : Nat) (sym : Byte) (freq : Word) (nodes : List (Nat × Node)) :
    nodeAt (setLeaf n sym freq nodes) k
      = if k = n then { nodeAt nodes n with kind := .leaf, sym := sym, freq := freq } else nodeAt nodes k :=
  nodeAt_setNode _ _ _ _

/-! ### The tables by symbol -/

theorem codeAt_setCode (s t : Byte) (bits : Bits) (code : List (Nat × CodeEntry)) :
    codeAt (setCode s bits code) t = if t = s then ⟨true, bits⟩ else codeAt code t := by
  unfold codeAt setCode
  rw [storeGet_storeSet]
  simp [BitVec.toNat_eq]

end Sys2Proof.Machine
end

