-- ==== Sys2Proof/Laws/Writer.lean ====
section
/-! SUPPORT. The bit writer (40_bitstream.md section 1): what a write of a byte and an append of bits do. -/

namespace Sys2Proof.Machine

open Sys2Proof.Safety

theorem memWrite_ok {a : Word} {s : State} (v : Byte) (h : busFault s.platform .write a = false) :
    memWrite a v s = .ok { s with mem := writeByte a.toNat v s.mem } := by
  simp [memWrite, h]

theorem memWrite_fault {a : Word} {s : State} (v : Byte) (h : busFault s.platform .write a = true) :
    memWrite a v s
      = .error { s with mem := writeByte a.toNat (Config.freeByte s.draws) s.mem, draws := s.draws + 1 } := by
  simp [memWrite, h]

/-- A byte that fits the window is written, and ACC emptied (R100, R103). -/
theorem flushByte_ok {s : State} (hlt : s.writer.outpos < s.latched.dstCap.toNat)
    (h : busFault s.platform .write (dstByteAddr s s.writer.outpos) = false) :
    flushByte s = .ok { s with
      mem := writeByte (dstByteAddr s s.writer.outpos).toNat s.writer.acc s.mem
      writer := ⟨0#8, 0#3, s.writer.outpos + 1, s.writer.wbits⟩ } := by
  simp only [flushByte, hlt, if_true, memWrite_ok _ h]

/-- A byte whose write returns a bus error leaves the writer as it was. -/
theorem flushByte_fault {s : State} (hlt : s.writer.outpos < s.latched.dstCap.toNat)
    (h : busFault s.platform .write (dstByteAddr s s.writer.outpos) = true) :
    flushByte s = .error { s with
      mem := writeByte (dstByteAddr s s.writer.outpos).toNat (Config.freeByte s.draws) s.mem
      draws := s.draws + 1 } := by
  simp only [flushByte, hlt, if_true, memWrite_fault _ h]

/-- `put_bit` of a bit that completes no byte (R100). -/
theorem putBit_fill {s : State} (b : Bool) (h : s.writer.nacc ≠ 7#3) :
    putBit b s = .ok { s with writer := ⟨assignBit s.writer.acc (7 - s.writer.nacc.toNat) b, s.writer.nacc + 1#3,
      s.writer.outpos, s.writer.wbits + 1⟩ } := by
  simp only [putBit, fillBit, h, if_false]

/-- `put_bit` of a bit that completes a byte (R100). -/
theorem putBit_full {s : State} (b : Bool) (h : s.writer.nacc = 7#3) : putBit b s = flushByte (fillBit b s) := by
  simp only [putBit, h, if_true]

/-- Inside a window that does not pass the top, destination addresses do not wrap (R66). -/
theorem dstByteAddr_toNat {s : State} {j : Nat} (h : passesTop s.latched.dstAddr s.latched.dstCap = false)
    (hj : j < s.latched.dstCap.toNat) : (dstByteAddr s j).toNat = s.latched.dstAddr.toNat + j := by
  simp [passesTop, Config.addressSpace] at h
  have hc := s.latched.dstCap.isLt
  simp only [dstByteAddr, BitVec.toNat_add, BitVec.toNat_ofNat]
  omega

/-- The source address of a byte inside the window (R65, R66). -/
theorem srcByteAddr_toNat {s : State} {i : Nat} (h : passesTop s.latched.srcAddr s.latched.srcLen = false)
    (hi : i < s.latched.srcLen.toNat) : (srcByteAddr s i).toNat = s.latched.srcAddr.toNat + i := by
  simp [passesTop, Config.addressSpace] at h
  have hc := s.latched.srcLen.isLt
  simp only [srcByteAddr, BitVec.toNat_add, BitVec.toNat_ofNat]
  omega

@[simp] theorem msbBits_length (v n : Nat) : (msbBits v n).length = n := by
  induction n with
  | zero => rfl
  | succ n ih => simp [msbBits, ih]

theorem getLsbD_assignBit (v : Byte) (k : Nat) (b : Bool) (i : Nat) (hk : k < 8) :
    (assignBit v k b).getLsbD i = if i = k then b else v.getLsbD i := by
  have h1 : (1#8 <<< k).getLsbD i = decide (i = k) := by
    rw [BitVec.getLsbD_shiftLeft, BitVec.getLsbD_one]
    by_cases hik : i = k
    · subst hik; simp [hk]
    · by_cases hlt : i < k
      · simp [hik, hlt]
      · simp [hik]; omega
  unfold assignBit
  generalize 1#8 <<< k = m at h1 ⊢
  have hlt : v.getLsbD i = true → i < 8 := fun h => BitVec.lt_of_getLsbD h
  cases b <;> simp only [Bool.false_eq_true, if_false, if_true, BitVec.getLsbD_or, BitVec.getLsbD_and,
    BitVec.getLsbD_not, h1]
  · by_cases hik : i = k
    · simp [hik]
    · cases hv : v.getLsbD i
      · simp [hik]
      · simp [hik, hlt hv]
  · by_cases hik : i = k <;> simp [hik]

theorem msbBits_byte (v : Byte) :
    msbBits v.toNat 8 = [v.getLsbD 7, v.getLsbD 6, v.getLsbD 5, v.getLsbD 4, v.getLsbD 3, v.getLsbD 2,
      v.getLsbD 1, v.getLsbD 0] := rfl

/-- Filling the next bit of ACC appends it to the bits ACC holds (R100). -/
theorem take_assignBit (acc : Byte) (n : BitVec 3) (b : Bool) :
    (msbBits (assignBit acc (7 - n.toNat) b).toNat 8).take (n.toNat + 1)
      = (msbBits acc.toNat 8).take n.toNat ++ [b] := by
  have hn : n.toNat < 8 := n.isLt
  generalize n.toNat = m at hn
  simp only [msbBits_byte, getLsbD_assignBit _ _ _ _ (show 7 - m < 8 by omega)]
  match m, hn with
  | 0, _ => simp
  | 1, _ => simp
  | 2, _ => simp
  | 3, _ => simp
  | 4, _ => simp
  | 5, _ => simp
  | 6, _ => simp
  | 7, _ => simp

theorem destBits_succ (s : State) (n : Nat) :
    destBits s (n + 1) = destBits s n ++ msbBits (readByte (dstByteAddr s n).toNat s.mem).toNat 8 := by
  unfold destBits
  rw [List.range_succ, List.flatMap_append]
  simp

theorem destBits_length (s : State) (n : Nat) : (destBits s n).length = 8 * n := by
  induction n with
  | zero => rfl
  | succ n ih => rw [destBits_succ, List.length_append, ih, msbBits_length]; omega

/-- Byte `j` of the stream is its bits 8·j to 8·j + 7 (R83). -/
theorem destBits_byte (s : State) {n j : Nat} (h : j < n) :
    ((destBits s n).drop (8 * j)).take 8 = msbBits (readByte (dstByteAddr s j).toNat s.mem).toNat 8 := by
  induction n with
  | zero => omega
  | succ n ih =>
    rw [destBits_succ]
    by_cases hj : j = n
    · subst hj
      rw [List.drop_append_of_le_length (by rw [destBits_length]), List.drop_of_length_le (by rw [destBits_length]),
        List.nil_append, List.take_of_length_le (by simp)]
    · have hj : j < n := by omega
      rw [List.drop_append_of_le_length (by rw [destBits_length]; omega), List.take_append_of_le_length, ih hj]
      rw [List.length_drop, destBits_length]
      omega

/-- A byte is its eight bits. -/
theorem msbBits_byte_inj {v w : Byte} (h : msbBits v.toNat 8 = msbBits w.toNat 8) : v = w := by
  rw [msbBits_byte, msbBits_byte] at h
  simp only [List.cons.injEq, and_true] at h
  apply BitVec.eq_of_getLsbD_eq
  intro i hi
  interval_cases i <;> tauto

/-- The stream bits of destination bytes depend on those bytes only. -/
theorem destBits_congr {s t : State} {n : Nat} (hl : t.latched = s.latched)
    (h : ∀ j, j < n → readByte (dstByteAddr s j).toNat t.mem = readByte (dstByteAddr s j).toNat s.mem) :
    destBits t n = destBits s n := by
  refine List.flatMap_congr fun j hj => ?_
  have hd : dstByteAddr t j = dstByteAddr s j := by unfold dstByteAddr; rw [hl]
  rw [hd, h j (List.mem_range.1 hj)]

/-- The written bits depend on the window, memory and the writer. -/
theorem writtenBits_congr {s t : State} (hl : t.latched = s.latched) (hm : t.mem = s.mem) (hw : t.writer = s.writer) :
    writtenBits t = writtenBits s := by
  unfold writtenBits
  rw [hw, destBits_congr hl fun j _ => by rw [hm]]

/-- A byte of the stream holds 8 bits, so the written bits number 8·OUTPOS + NACC. -/
theorem writtenBits_length (s : State) : (writtenBits s).length = 8 * s.writer.outpos + s.writer.nacc.toNat := by
  have hn : s.writer.nacc.toNat < 8 := s.writer.nacc.isLt
  unfold writtenBits
  rw [List.length_append, destBits_length, List.length_take, msbBits_length]
  omega

/-- The writer's frame: only memory and the writer's own registers change. -/
def WriterOnly (s t : State) : Prop :=
  t = { s with mem := t.mem, writer := t.writer }

theorem WriterOnly.refl (s : State) : WriterOnly s s := rfl

theorem WriterOnly.trans {s t u : State} (h : WriterOnly s t) (h' : WriterOnly t u) : WriterOnly s u := by
  unfold WriterOnly at *
  rw [h', h]

theorem WriterOnly.latched {s t : State} (h : WriterOnly s t) : t.latched = s.latched := by rw [h]

theorem WriterOnly.platform {s t : State} (h : WriterOnly s t) : t.platform = s.platform := by rw [h]

theorem appended_refl (s : State) : Appended s s [] := by
  have : s.writer.nacc.toNat / 8 = 0 := Nat.div_eq_of_lt s.writer.nacc.isLt
  refine ⟨by simp, by simp, by simp [bytesCompleted, this], fun _ _ => rfl⟩

theorem appended_nacc {s t : State} {bs : Bits} (h : Appended s t bs) :
    t.writer.nacc.toNat = (s.writer.nacc.toNat + bs.length) % 8 := by
  have h1 := congrArg List.length h.1
  rw [List.length_append, writtenBits_length, writtenBits_length] at h1
  have h3 := h.2.2.1
  unfold bytesCompleted at h3
  omega

/-- Appending twice appends the concatenation (R11, R102). -/
theorem appended_trans {s t u : State} {as bs : Bits} (hl : t.latched = s.latched) (h : Appended s t as)
    (h' : Appended t u bs) : Appended s u (as ++ bs) := by
  have hn := appended_nacc h
  have hd : ∀ j, dstByteAddr t j = dstByteAddr s j := fun j => by unfold dstByteAddr; rw [hl]
  obtain ⟨h1, h2, h3, h4⟩ := h
  obtain ⟨g1, g2, g3, g4⟩ := h'
  unfold bytesCompleted at *
  have h5 : s.writer.outpos ≤ t.writer.outpos := by omega
  have g5 : t.writer.outpos ≤ u.writer.outpos := by omega
  refine ⟨by rw [g1, h1, List.append_assoc], by rw [g2, h2, List.length_append]; omega, ?_, fun a ha => ?_⟩
  · unfold bytesCompleted
    rw [List.length_append]
    omega
  · rw [g4 a, h4 a]
    · exact fun j hj hj' => ha j hj (by omega)
    · exact fun j hj hj' => by rw [hd]; exact ha j (by omega) hj'

theorem canAppend_left {s : State} {m n : Nat} (h : CanAppend s (m + n)) : CanAppend s m := by
  obtain ⟨h1, h2, h3⟩ := h
  unfold bytesCompleted at *
  refine ⟨h1, ?_, fun j hj hj' => h3 j hj ?_⟩ <;> unfold bytesCompleted at * <;> omega

theorem canAppend_right {s t : State} {as : Bits} {n : Nat} (h : CanAppend s (as.length + n))
    (hl : t.latched = s.latched) (hp : t.platform = s.platform) (ha : Appended s t as) : CanAppend t n := by
  have hn := appended_nacc ha
  have hd : ∀ j, dstByteAddr t j = dstByteAddr s j := fun j => by unfold dstByteAddr; rw [hl]
  obtain ⟨h1, h2, h3⟩ := h
  have h4 := ha.2.2.1
  unfold bytesCompleted at *
  refine ⟨by rw [hl]; exact h1, by rw [hl]; unfold bytesCompleted; omega, fun j hj hj' => ?_⟩
  unfold bytesCompleted at hj'
  rw [hp, hd]
  exact h3 j (by omega) (by omega)

/-- `put_bit` (R100) with room for its bit. -/
theorem putBit_appends {s : State} (b : Bool) (h : CanAppend s 1) :
    ∃ t, putBit b s = .ok t ∧ WriterOnly s t ∧ Appended s t [b] := by
  obtain ⟨h1, h2, h3⟩ := h
  have hn : s.writer.nacc.toNat < 8 := s.writer.nacc.isLt
  have ht := take_assignBit s.writer.acc s.writer.nacc b
  unfold bytesCompleted at *
  by_cases h7 : s.writer.nacc = 7#3
  · have h7' : s.writer.nacc.toNat = 7 := by rw [h7]; rfl
    rw [h7'] at h2 h3 ht
    have hlt : s.writer.outpos < s.latched.dstCap.toNat := by omega
    have hf := h3 s.writer.outpos (by omega) (by omega)
    refine ⟨{ s with
        mem := writeByte (dstByteAddr s s.writer.outpos).toNat
          (assignBit s.writer.acc (7 - (7#3).toNat) b) s.mem
        writer := ⟨0#8, 0#3, s.writer.outpos + 1, s.writer.wbits + 1⟩ }, ?_, ?_, ?_, ?_, ?_, fun a ha => ?_⟩
    · rw [putBit_full b h7, flushByte_ok (s := fillBit b s) hlt hf]
      simp only [fillBit, h7]
      rfl
    · rfl
    · have ha0 := dstByteAddr_toNat h1 hlt
      have hrest := destBits_congr (s := s) (n := s.writer.outpos) (t := { s with
          mem := writeByte (dstByteAddr s s.writer.outpos).toNat (assignBit s.writer.acc (7 - (7#3).toNat) b) s.mem
          writer := ⟨0#8, 0#3, s.writer.outpos + 1, s.writer.wbits + 1⟩ }) rfl fun j hj => by
        have haj := dstByteAddr_toNat h1 (show j < s.latched.dstCap.toNat by omega)
        exact readByte_writeByte_ne _ _ (by omega)
      unfold writtenBits
      rw [destBits_succ, hrest]
      simp only [dstByteAddr, readByte_writeByte_self]
      have e : List.take 8 (msbBits (assignBit s.writer.acc (7 - (7#3).toNat) b).toNat 8)
          = List.take 7 (msbBits s.writer.acc.toNat 8) ++ [b] := ht
      rw [List.take_of_length_le (by simp)] at e
      rw [e, h7]
      simp
    · rfl
    · simp [bytesCompleted, h7']
    · simp only
      exact readByte_writeByte_ne _ _ (ha _ (Nat.le_refl _) (by simp))
  · have h7' : s.writer.nacc.toNat ≠ 7 := fun hc => h7 (BitVec.eq_of_toNat_eq hc)
    have hs : (s.writer.nacc + 1#3).toNat = s.writer.nacc.toNat + 1 := by
      rw [BitVec.toNat_add]; simp; omega
    refine ⟨{ s with writer := ⟨assignBit s.writer.acc (7 - s.writer.nacc.toNat) b, s.writer.nacc + 1#3,
        s.writer.outpos, s.writer.wbits + 1⟩ }, ?_, ?_, ?_, ?_, ?_, fun a ha => ?_⟩
    · exact putBit_fill b h7
    · rfl
    · unfold writtenBits
      simp only [hs, ht, List.append_assoc]
      rfl
    · rfl
    · simp only [bytesCompleted, List.length_singleton]; omega
    · rfl

/-- `write_code` (R102), and so `write_bits` (R101), with room for the bits. -/
theorem putBits_appends (bs : Bits) {s : State} (h : CanAppend s bs.length) :
    ∃ t, putBits bs s = .ok t ∧ WriterOnly s t ∧ Appended s t bs := by
  induction bs generalizing s with
  | nil => exact ⟨s, rfl, .refl s, appended_refl s⟩
  | cons b bs ih =>
    have h' : CanAppend s ([b].length + bs.length) := by
      simpa [Nat.add_comm] using h
    obtain ⟨t, ht, hf, ha⟩ := putBit_appends b (canAppend_left h')
    obtain ⟨u, hu, hf', ha'⟩ := ih (canAppend_right h' hf.latched hf.platform ha)
    exact ⟨u, by simp only [putBits, ht, hu], hf.trans hf', appended_trans hf.latched ha ha'⟩

/-- The bits of an element up to the byte whose write returns a bus error (R63, R100): the bytes before it are written,
ACC holds that byte, WBITS counts its last bit, and memory changes in no byte but these and that one. -/
theorem putBits_fault (bs : Bits) {s : State} {k : Nat} (h : WriteFaultsAt s bs.length k) :
    ∃ t, putBits bs s = .error t ∧ t = { s with mem := t.mem, writer := t.writer, draws := t.draws }
      ∧ t.writer.outpos = k ∧ destBits t k = (writtenBits s ++ bs).take (8 * k)
      ∧ msbBits t.writer.acc.toNat 8 = ((writtenBits s ++ bs).drop (8 * k)).take 8
      ∧ t.writer.wbits + (writtenBits s).length = s.writer.wbits + 8 * (k + 1)
      ∧ ∀ a, (∀ j, s.writer.outpos ≤ j → j ≤ k → a ≠ (dstByteAddr s j).toNat) →
          readByte a t.mem = readByte a s.mem := by
  induction bs generalizing s with
  | nil =>
    obtain ⟨_, h1, h2, _⟩ := h
    have : bytesCompleted s 0 = 0 := by unfold bytesCompleted; omega
    simp at h2
    omega
  | cons b bs ih =>
    obtain ⟨hp, h1, h2, h3, h4, h5⟩ := h
    have h8 : s.writer.nacc.toNat < 8 := s.writer.nacc.isLt
    by_cases hc : CanAppend s 1
    · obtain ⟨t, g1, g2, g3⟩ := putBit_appends b hc
      have hna := appended_nacc g3
      obtain ⟨a1, a2, a3, a4⟩ := g3
      have hd : ∀ j, dstByteAddr t j = dstByteAddr s j := fun j => by simp [dstByteAddr, g2.latched]
      simp only [bytesCompleted, List.length_cons, List.length_nil] at h2 hna a3
      have hko : t.writer.outpos ≤ k := by
        by_contra hx
        rw [hc.2.2 k h1 (by simp only [bytesCompleted]; omega)] at h5
        exact nomatch h5
      have hw : WriteFaultsAt t bs.length k := by
        refine ⟨by rw [g2.latched]; exact hp, hko, by simp only [bytesCompleted]; omega, by rw [g2.latched]; exact h3, ?_,
          by rw [g2.platform, hd]; exact h5⟩
        intro j hj hjk
        rw [g2.platform, hd]
        exact h4 j (by omega) hjk
      obtain ⟨v, e1, e2, e3, e4, e5, e6, e7⟩ := ih hw
      rw [a1, List.append_assoc] at e4 e5
      rw [a1, a2, List.length_append] at e6
      refine ⟨v, by simp [putBits, g1, e1], by rw [e2, g2], e3, e4, e5, by omega, fun a ha => ?_⟩
      rw [e7 a fun j hj hjk => by rw [hd]; exact ha j (by omega) hjk]
      exact a4 a fun j hj hjk => ha j hj (by omega)
    · have h7 : s.writer.nacc = 7#3 := by
        by_contra hne
        have : s.writer.nacc.toNat ≠ 7 := fun hx => hne (by apply BitVec.eq_of_toNat_eq; simpa using hx)
        exact hc ⟨hp, by unfold bytesCompleted; omega, fun j hj hjk => by unfold bytesCompleted at hjk; omega⟩
      obtain rfl : k = s.writer.outpos := by
        by_contra hx
        refine hc ⟨hp, by unfold bytesCompleted; simp [h7]; omega, fun j hj hjk => ?_⟩
        obtain rfl : j = s.writer.outpos := by unfold bytesCompleted at hjk; simp [h7] at hjk; omega
        exact h4 _ (by omega) (by omega)
      let v : State := { s with
        mem := writeByte (dstByteAddr s s.writer.outpos).toNat (Config.freeByte s.draws) s.mem, draws := s.draws + 1
        writer := (fillBit b s).writer }
      have hst : putBit b s = .error v := by
        rw [putBit_full b h7, flushByte_fault (s := fillBit b s) h3 h5]
        rfl
      have h7' : s.writer.nacc.toNat = 7 := by rw [h7]; rfl
      refine ⟨v, by simp only [putBits, hst], rfl, rfl, ?_, ?_, ?_,
        fun a ha => readByte_writeByte_ne _ _ (ha _ (by omega) (by omega))⟩
      · have hv : destBits v s.writer.outpos = destBits s s.writer.outpos :=
          destBits_congr rfl fun j hj => readByte_writeByte_ne _ _ (by
            rw [dstByteAddr_toNat hp (by omega), dstByteAddr_toNat hp (by omega)]; omega)
        rw [hv]
        unfold writtenBits
        rw [List.append_assoc, List.take_append_of_le_length (by rw [destBits_length]),
          List.take_of_length_le (by rw [destBits_length])]
      · have ht := take_assignBit s.writer.acc s.writer.nacc b
        rw [List.take_of_length_le (by rw [msbBits_length, h7'])] at ht
        have hl : (destBits s s.writer.outpos).length = 8 * s.writer.outpos := destBits_length s _
        show msbBits (assignBit s.writer.acc (7 - s.writer.nacc.toNat) b).toNat 8 = _
        unfold writtenBits
        have e : (msbBits s.writer.acc.toNat 8).take s.writer.nacc.toNat ++ b :: bs
            = ((msbBits s.writer.acc.toNat 8).take s.writer.nacc.toNat ++ [b]) ++ bs := by simp
        rw [ht, List.append_assoc, e, ← hl, List.drop_left, List.take_left' (by simp [h7'])]
      · have hl := writtenBits_length s
        show s.writer.wbits + 1 + _ = _
        omega

theorem putBits_append (as bs : Bits) (s : State) :
    putBits (as ++ bs) s = (match putBits as s with | .ok t => putBits bs t | .error t => .error t) := by
  induction as generalizing s with
  | nil => rfl
  | cons a as ih =>
    simp only [List.cons_append, putBits]
    cases putBit a s with
    | ok t => exact ih t
    | error t => rfl

/-- A LEAF token is written as its encoding (R151, R86). -/
theorem emitLeaf_eq (sym : Byte) (s : State) : emitLeaf sym s = putBits (encode (.tokenLeaf sym)) s := by
  have h : (sym.setWidth 32).toNat = sym.toNat := by
    have := sym.isLt
    simp; omega
  have e : encode (.tokenLeaf sym) = msbBits 1 1 ++ msbBits sym.toNat 8 := rfl
  rw [e, putBits_append]
  unfold emitLeaf writeBits
  rw [h]
  rfl

/-- An INTERNAL token is written as its encoding (R152, R86). -/
theorem emitInternal_eq (s : State) : emitInternal s = putBits (encode .tokenInternal) s := rfl

/-! ### What the writer does in any state -/

/-- Whether a write succeeds or not, it changes at most its own byte, and the model's counter. -/
theorem memWrite_cases (a : Word) (v : Byte) (s : State) :
    ∃ b d, (memWrite a v s = .ok { s with mem := writeByte a.toNat b s.mem, draws := d }
      ∨ memWrite a v s = .error { s with mem := writeByte a.toNat b s.mem, draws := d }) := by
  cases h : busFault s.platform .write a with
  | false => exact ⟨v, s.draws, .inl (memWrite_ok v h)⟩
  | true => exact ⟨_, _, .inr (memWrite_fault v h)⟩

/-- The frame of a writer operation, done or failed: only memory, the writer and the model's counter change; memory
stays canonical and changes only at addresses of destination bytes; OUTPOS stays within the window (R67, R104). -/
structure WriterFrame (s t : State) : Prop where
  only : t = { s with mem := t.mem, writer := t.writer, draws := t.draws }
  memWf : Memory.wf s.mem → Memory.wf t.mem
  outMono : s.writer.outpos ≤ t.writer.outpos
  outIn : s.writer.outpos ≤ s.latched.dstCap.toNat → t.writer.outpos ≤ s.latched.dstCap.toNat
  outside : ∀ a, (∀ j, j < s.latched.dstCap.toNat → a ≠ (dstByteAddr s j).toNat) →
    readByte a t.mem = readByte a s.mem

/-- A writer operation's result, as an update. -/
theorem WriterFrame.form {s t : State} (h : WriterFrame s t) :
    ∃ m w d, t = { s with mem := m, writer := w, draws := d } :=
  ⟨_, _, _, h.only⟩

/-! What a writer operation keeps, field by field. -/

theorem WriterFrame.cmd {s t : State} (h : WriterFrame s t) : t.cmd = s.cmd := by rw [h.only]
theorem WriterFrame.status {s t : State} (h : WriterFrame s t) : t.status = s.status := by rw [h.only]
theorem WriterFrame.win {s t : State} (h : WriterFrame s t) : t.win = s.win := by rw [h.only]
theorem WriterFrame.results {s t : State} (h : WriterFrame s t) : t.results = s.results := by rw [h.only]
theorem WriterFrame.irqEn {s t : State} (h : WriterFrame s t) : t.irqEn = s.irqEn := by rw [h.only]
theorem WriterFrame.latched {s t : State} (h : WriterFrame s t) : t.latched = s.latched := by rw [h.only]
theorem WriterFrame.work {s t : State} (h : WriterFrame s t) : t.work = s.work := by rw [h.only]
theorem WriterFrame.reader {s t : State} (h : WriterFrame s t) : t.reader = s.reader := by rw [h.only]
theorem WriterFrame.loop {s t : State} (h : WriterFrame s t) : t.loop = s.loop := by rw [h.only]
theorem WriterFrame.platform {s t : State} (h : WriterFrame s t) : t.platform = s.platform := by rw [h.only]
theorem WriterFrame.host {s t : State} (h : WriterFrame s t) : t.host = s.host := by rw [h.only]
theorem WriterFrame.rdata {s t : State} (h : WriterFrame s t) : t.rdata = s.rdata := by rw [h.only]

theorem WriterFrame.refl (s : State) : WriterFrame s s :=
  ⟨rfl, id, Nat.le_refl _, id, fun _ _ => rfl⟩

theorem WriterFrame.trans {s t u : State} (h : WriterFrame s t) (h' : WriterFrame t u) : WriterFrame s u := by
  have hl : t.latched = s.latched := by rw [h.only]
  have hd : ∀ j, dstByteAddr t j = dstByteAddr s j := fun j => by unfold dstByteAddr; rw [hl]
  refine ⟨by rw [h'.only, h.only], fun hw => h'.memWf (h.memWf hw), Nat.le_trans h.outMono h'.outMono, fun ho => ?_,
    fun a ha => ?_⟩
  · rw [← hl]
    exact h'.outIn (by rw [hl]; exact h.outIn ho)
  · rw [h'.outside a (by rw [hl]; simpa only [hd] using ha), h.outside a ha]

/-- An empty ACC is clean. -/
theorem accClean_zero (n : BitVec 3) (o b : Nat) : AccClean ⟨0#8, n, o, b⟩ := fun i _ => by simp

/-- Filling the next bit of a clean ACC leaves it clean (R100). -/
theorem accClean_assignBit {w : Writer} (b : Bool) (o n : Nat) (h : AccClean w) (hn : w.nacc ≠ 7#3) :
    AccClean ⟨assignBit w.acc (7 - w.nacc.toNat) b, w.nacc + 1#3, o, n⟩ := by
  have h8 : w.nacc.toNat < 8 := w.nacc.isLt
  have h7 : w.nacc.toNat ≠ 7 := fun hc => hn (BitVec.eq_of_toNat_eq hc)
  have hs : (w.nacc + 1#3).toNat = w.nacc.toNat + 1 := by
    rw [BitVec.toNat_add]; simp; omega
  intro i hi
  simp only [hs] at hi
  rw [getLsbD_assignBit _ _ _ _ (by omega), if_neg (by omega)]
  exact h i (by omega)

/-- The byte a clean ACC holds: its bits, then zeros (R103). -/
theorem accClean_bits {w : Writer} (h : AccClean w) :
    msbBits w.acc.toNat 8 = (msbBits w.acc.toNat 8).take w.nacc.toNat ++ List.replicate (8 - w.nacc.toNat) false := by
  have hn : w.nacc.toNat < 8 := w.nacc.isLt
  unfold AccClean at h
  simp only [msbBits_byte]
  generalize w.nacc.toNat = m at *
  match m, hn with
  | 0, _ => simp only [h 0 (by omega), h 1 (by omega), h 2 (by omega), h 3 (by omega), h 4 (by omega), h 5 (by omega), h 6 (by omega), h 7 (by omega)]; rfl
  | 1, _ => simp only [h 0 (by omega), h 1 (by omega), h 2 (by omega), h 3 (by omega), h 4 (by omega), h 5 (by omega), h 6 (by omega)]; rfl
  | 2, _ => simp only [h 0 (by omega), h 1 (by omega), h 2 (by omega), h 3 (by omega), h 4 (by omega), h 5 (by omega)]; rfl
  | 3, _ => simp only [h 0 (by omega), h 1 (by omega), h 2 (by omega), h 3 (by omega), h 4 (by omega)]; rfl
  | 4, _ => simp only [h 0 (by omega), h 1 (by omega), h 2 (by omega), h 3 (by omega)]; rfl
  | 5, _ => simp only [h 0 (by omega), h 1 (by omega), h 2 (by omega)]; rfl
  | 6, _ => simp only [h 0 (by omega), h 1 (by omega)]; rfl
  | 7, _ => simp only [h 0 (by omega)]; rfl

/-- A write of one destination byte, with a new value of the writer that keeps OUTPOS within the window. -/
theorem writerFrame_write {s : State} {j : Nat} (v : Byte) (w : Writer) (d : Nat) (hj : j < s.latched.dstCap.toNat)
    (h1 : s.writer.outpos ≤ w.outpos) (h2 : w.outpos ≤ s.latched.dstCap.toNat) :
    WriterFrame s { s with mem := writeByte (dstByteAddr s j).toNat v s.mem, writer := w, draws := d } :=
  ⟨rfl, fun h => memWf_writeByte v h (dstByteAddr s j).isLt, h1, fun _ => h2,
    fun _ ha => readByte_writeByte_ne _ _ (ha j hj)⟩

/-- A write of a destination byte inside the window (R63, R67). -/
theorem memWrite_frame {s : State} {j : Nat} (v : Byte) (hj : j < s.latched.dstCap.toNat) :
    ∃ t, (memWrite (dstByteAddr s j) v s = .ok t ∨ memWrite (dstByteAddr s j) v s = .error t) ∧ WriterFrame s t
      ∧ t.writer = s.writer := by
  obtain ⟨b, d, h⟩ := memWrite_cases (dstByteAddr s j) v s
  refine ⟨{ s with mem := writeByte (dstByteAddr s j).toNat b s.mem, draws := d }, h, ?_, rfl⟩
  exact ⟨rfl, fun h => memWf_writeByte b h (dstByteAddr s j).isLt, Nat.le_refl _, id,
    fun _ ha => readByte_writeByte_ne _ _ (ha j hj)⟩

/-- A flush empties ACC, or a bus error leaves the writer as it was. -/
theorem flushByte_frame (s : State) :
    ∃ t, WriterFrame s t
      ∧ ((flushByte s = .ok t ∧ t.writer.wbits = s.writer.wbits ∧ t.writer.nacc = 0#3 ∧ AccClean t.writer)
        ∨ (flushByte s = .error t ∧ t.writer = s.writer)) := by
  unfold flushByte
  by_cases hlt : s.writer.outpos < s.latched.dstCap.toNat
  · simp only [hlt, if_true]
    obtain ⟨b, d, h | h⟩ := memWrite_cases (dstByteAddr s s.writer.outpos) s.writer.acc s
    · exact ⟨_, writerFrame_write b ⟨0#8, 0#3, s.writer.outpos + 1, s.writer.wbits⟩ d hlt (by simp) hlt,
        .inl ⟨by simp [h], rfl, rfl, accClean_zero _ _ _⟩⟩
    · exact ⟨_, writerFrame_write b s.writer d hlt (Nat.le_refl _) (by omega), .inr ⟨by simp [h], rfl⟩⟩
  · simp only [hlt, if_false]
    exact ⟨{ s with writer := ⟨0#8, 0#3, s.writer.outpos, s.writer.wbits⟩ },
      ⟨rfl, id, Nat.le_refl _, id, fun _ _ => rfl⟩, .inl ⟨rfl, rfl, rfl, accClean_zero _ _ _⟩⟩

/-- What an append that succeeds keeps from `s` to `t`: "NACC = WBITS mod 8" (R104), and "ACC bits below the fill point
are 0" (R100). -/
def FillKept (s t : State) : Prop :=
  (s.writer.nacc.toNat = s.writer.wbits % 8 → t.writer.nacc.toNat = t.writer.wbits % 8)
    ∧ (AccClean s.writer → AccClean t.writer)

/-- Filling a bit in touches only the writer, and not OUTPOS. -/
theorem fillBit_frame (b : Bool) (s : State) : WriterFrame s (fillBit b s) :=
  ⟨rfl, id, Nat.le_refl _, id, fun _ _ => rfl⟩

theorem putBit_frame (b : Bool) (s : State) :
    ∃ t, WriterFrame s t ∧ ((putBit b s = .ok t ∧ t.writer.wbits = s.writer.wbits + 1 ∧ FillKept s t)
      ∨ putBit b s = .error t) := by
  by_cases h7 : s.writer.nacc = 7#3
  · rw [putBit_full b h7]
    obtain ⟨t, hf, ⟨h, hw, hn, hc⟩ | ⟨h, _⟩⟩ := flushByte_frame (fillBit b s)
    · have hw : t.writer.wbits = s.writer.wbits + 1 := hw
      refine ⟨t, (fillBit_frame b s).trans hf, .inl ⟨h, hw, fun hk => ?_, fun _ => hc⟩⟩
      rw [h7] at hk
      rw [hn, hw]
      simp at hk ⊢
      omega
    · exact ⟨t, (fillBit_frame b s).trans hf, .inr h⟩
  · rw [putBit_fill b h7]
    refine ⟨{ s with writer := ⟨assignBit s.writer.acc (7 - s.writer.nacc.toNat) b, s.writer.nacc + 1#3,
      s.writer.outpos, s.writer.wbits + 1⟩ }, ⟨rfl, id, Nat.le_refl _, id, fun _ _ => rfl⟩,
      .inl ⟨rfl, rfl, fun hk => ?_, fun hc => accClean_assignBit b _ _ hc h7⟩⟩
    have h8 : s.writer.nacc.toNat < 8 := s.writer.nacc.isLt
    have h7' : s.writer.nacc.toNat ≠ 7 := fun hc => h7 (BitVec.eq_of_toNat_eq hc)
    have hs : (s.writer.nacc + 1#3).toNat = s.writer.nacc.toNat + 1 := by
      rw [BitVec.toNat_add]; simp; omega
    simp only [hs]
    omega

theorem putBits_frame (bs : Bits) (s : State) :
    ∃ t, WriterFrame s t ∧ ((putBits bs s = .ok t ∧ t.writer.wbits = s.writer.wbits + bs.length ∧ FillKept s t)
      ∨ putBits bs s = .error t) := by
  induction bs generalizing s with
  | nil => exact ⟨s, .refl s, .inl ⟨rfl, rfl, id, id⟩⟩
  | cons b bs ih =>
    obtain ⟨t, hf, ⟨ht, hw, hk, hc⟩ | ht⟩ := putBit_frame b s
    · obtain ⟨u, hf', ⟨hu, hw', hk', hc'⟩ | hu⟩ := ih t
      · exact ⟨u, hf.trans hf', .inl ⟨by simp [putBits, ht, hu], by rw [hw', hw, List.length_cons]; omega,
          fun h => hk' (hk h), fun h => hc' (hc h)⟩⟩
      · exact ⟨u, hf.trans hf', .inr (by simp [putBits, ht, hu])⟩
    · exact ⟨t, hf, .inr (by simp [putBits, ht])⟩

theorem finalize_frame (s : State) :
    ∃ t, WriterFrame s t ∧ (finalize s = .ok t ∨ finalize s = .error t) := by
  unfold finalize
  by_cases h0 : s.writer.nacc = 0#3
  · simp only [h0, if_true]
    exact ⟨s, .refl s, .inl rfl⟩
  · simp only [h0, if_false]
    obtain ⟨t, hf, ⟨ht, _⟩ | ⟨ht, _⟩⟩ := flushByte_frame s
    · exact ⟨t, hf, .inl ht⟩
    · exact ⟨t, hf, .inr ht⟩

end Sys2Proof.Machine
end

