-- ==== Sys2Proof/Laws/Reader.lean ====
section
/-! SUPPORT. The bit reader (40_bitstream.md section 2), and what fetching and decoding an element gives. -/

namespace Sys2Proof.Machine

open Sys2Proof.Safety

theorem memRead_cases (a : Word) (s : State) :
    (busFault s.platform .read a = true ∧ memRead a s = .error .busError)
      ∨ (busFault s.platform .read a = false ∧ memRead a s = .ok (readByte a.toNat s.mem)) := by
  unfold memRead
  cases busFault s.platform .read a <;> simp

/-- The three outcomes of `read_bit()` (R106). -/
theorem peekBit_cases (s : State) (pos : Nat) :
    (s.reader.rdlimit ≤ pos ∧ peekBit s pos = .error .truncatedInput)
      ∨ (pos < s.reader.rdlimit ∧ busFault s.platform .read (srcByteAddr s (pos / 8)) = true
          ∧ peekBit s pos = .error .busError)
      ∨ (pos < s.reader.rdlimit ∧ busFault s.platform .read (srcByteAddr s (pos / 8)) = false
          ∧ peekBit s pos = .ok ((readByte (srcByteAddr s (pos / 8)).toNat s.mem).getLsbD (7 - pos % 8))) := by
  unfold peekBit
  by_cases h : s.reader.rdlimit ≤ pos
  · exact .inl ⟨h, by simp [h]⟩
  · have h' : pos < s.reader.rdlimit := by omega
    rcases memRead_cases (srcByteAddr s (pos / 8)) s with ⟨hf, hm⟩ | ⟨hf, hm⟩
    · exact .inr (.inl ⟨h', hf, by simp [h, hm]⟩)
    · exact .inr (.inr ⟨h', hf, by simp [h, hm]⟩)

/-- The errors of the reader. -/
def ReadError (e : ErrCode) : Prop :=
  e = .truncatedInput ∨ e = .busError

theorem peekBit_ok {s : State} {pos : Nat} {b : Bool} (h : peekBit s pos = .ok b) : pos < s.reader.rdlimit := by
  rcases peekBit_cases s pos with ⟨_, h'⟩ | ⟨_, _, h'⟩ | ⟨h', _⟩
  · rw [h] at h'; exact nomatch h'
  · rw [h] at h'; exact nomatch h'
  · exact h'

theorem peekBit_error {s : State} {pos : Nat} {e : ErrCode} (h : peekBit s pos = .error e) : ReadError e := by
  rcases peekBit_cases s pos with ⟨_, h'⟩ | ⟨_, _, h'⟩ | ⟨_, _, h'⟩ <;> rw [h] at h' <;> cases h'
  · exact .inl rfl
  · exact .inr rfl

/-- `read_bits(n)` (R107) that succeeds: n bits, all before RDLIMIT. -/
theorem peekBits_ok {s : State} {n pos : Nat} {bs : Bits} (h : peekBits s pos n = .ok bs) :
    bs.length = n ∧ (0 < n → pos + n ≤ s.reader.rdlimit) := by
  induction n generalizing pos bs with
  | zero => cases h; exact ⟨rfl, fun h => absurd h (by omega)⟩
  | succ n ih =>
    unfold peekBits at h
    cases hb : peekBit s pos with
    | error e => rw [hb] at h; exact nomatch h
    | ok b =>
      rw [hb] at h
      cases hr : peekBits s (pos + 1) n with
      | error e => rw [hr] at h; exact nomatch h
      | ok bs' =>
        rw [hr] at h
        cases h
        obtain ⟨h1, h2⟩ := ih hr
        have h3 := peekBit_ok hb
        refine ⟨by simp [h1], fun _ => ?_⟩
        by_cases hn : 0 < n
        · have := h2 hn; omega
        · omega

theorem peekBits_error {s : State} {n pos : Nat} {e : ErrCode} (h : peekBits s pos n = .error e) : ReadError e := by
  induction n generalizing pos with
  | zero => exact nomatch h
  | succ n ih =>
    unfold peekBits at h
    cases hb : peekBit s pos with
    | error e' => rw [hb] at h; cases h; exact peekBit_error hb
    | ok b =>
      rw [hb] at h
      cases hr : peekBits s (pos + 1) n with
      | error e' => rw [hr] at h; cases h; exact ih hr
      | ok bs' => rw [hr] at h; exact nomatch h

/-- The bits that succeed all lie before RDLIMIT. -/
theorem bitsRead_in (s : State) (pos n : Nat) (h : 0 < bitsRead s pos n) :
    pos + bitsRead s pos n ≤ s.reader.rdlimit := by
  induction n generalizing pos with
  | zero => simp [bitsRead] at h
  | succ n ih =>
    unfold bitsRead at h ⊢
    cases hb : peekBit s pos with
    | error e => simp [hb] at h
    | ok b =>
      have h1 := peekBit_ok hb
      by_cases h0 : 0 < bitsRead s (pos + 1) n
      · have := ih _ h0; simp only; omega
      · simp only; omega

/-- With `j` bits readable and the next one not, `j` reads succeed. -/
theorem bitsRead_fails {s : State} {pos j n : Nat} {e : ErrCode} (hj : j < n)
    (hok : ∀ i, i < j → ∃ b, peekBit s (pos + i) = .ok b) (he : peekBit s (pos + j) = .error e) :
    bitsRead s pos n = j ∧ peekBits s pos n = .error e := by
  induction j generalizing pos n with
  | zero =>
    obtain ⟨n, rfl⟩ : ∃ m, n = m + 1 := ⟨n - 1, by omega⟩
    rw [Nat.add_zero] at he
    simp [bitsRead, peekBits, he]
  | succ j ih =>
    obtain ⟨n, rfl⟩ : ∃ m, n = m + 1 := ⟨n - 1, by omega⟩
    obtain ⟨b, hb⟩ := hok 0 (by omega)
    rw [Nat.add_zero] at hb
    obtain ⟨h1, h2⟩ := ih (pos := pos + 1) (n := n) (by omega)
      (fun i hi => by rw [Nat.add_assoc, Nat.add_comm 1]; exact hok (i + 1) (by omega))
      (by rw [Nat.add_assoc, Nat.add_comm 1]; exact he)
    simp [bitsRead, peekBits, hb, h1, h2]

theorem peekBit_readable {s : State} {k : Nat} (h : BitReadable s k) : ∃ b, peekBit s k = .ok b := by
  rcases peekBit_cases s k with ⟨h', _⟩ | ⟨_, hf, _⟩ | ⟨_, _, h'⟩
  · exact absurd h.1 (by omega)
  · rw [h.2] at hf; exact nomatch hf
  · exact ⟨_, h'⟩

theorem peekBit_fails {s : State} {k : Nat} {e : ErrCode} (h : BitFails s k e) : peekBit s k = .error e := by
  rcases peekBit_cases s k with ⟨hk, h'⟩ | ⟨hk, hf, h'⟩ | ⟨hk, hf, h'⟩ <;> rw [h'] <;>
    rcases h with ⟨hl, rfl⟩ | ⟨hl, hb, rfl⟩
  · rfl
  · omega
  · omega
  · rfl
  · omega
  · rw [hf] at hb; exact nomatch hb

/-- An element of `n` bits of which `j` can be read (R107). -/
theorem failsAfter_bits {s : State} {j n : Nat} {e : ErrCode} (h : FailsAfter s j e) (hj : j < n) :
    bitsRead s s.reader.rdpos n = j ∧ peekBits s s.reader.rdpos n = .error e :=
  bitsRead_fails hj (fun i hi => peekBit_readable (h.1 i hi)) (peekBit_fails h.2)

/-- The state a failing element leaves: `j` bits consumed and `a` slots allocated (R106, R155). -/
abbrev stopAt (j a : Nat) (s : State) : State :=
  { s with
    reader := { s.reader with rdpos := s.reader.rdpos + j }
    work := { s.work with nnodes := s.work.nnodes + a } }

/-- The reader and the node pool stay inside their bounds when an element fails. -/
def StopIn (j a : Nat) (s : State) : Prop :=
  (j = 0 ∨ s.reader.rdpos + j ≤ s.reader.rdlimit) ∧ (a = 0 ∨ s.work.nnodes + a ≤ Config.nodePool)

theorem readStop_cases (n : Nat) (s : State) : ∃ j, readStop n s = stopAt j 0 s ∧ StopIn j 0 s := by
  refine ⟨_, rfl, ?_, .inl rfl⟩
  have := bitsRead_in s s.reader.rdpos n
  omega

theorem tokenStop_cases (s : State) : ∃ j a, tokenStop s = stopAt j a s ∧ StopIn j a s := by
  unfold tokenStop
  cases hb : peekBit s s.reader.rdpos with
  | error e => exact ⟨0, 0, rfl, .inl rfl, .inl rfl⟩
  | ok b =>
    have h1 := peekBit_ok hb
    by_cases hp : poolFull s = true
    · exact ⟨1, 0, by simp [hp, State.advance], .inr (by omega), .inl rfl⟩
    · have := bitsRead_in s (s.reader.rdpos + 1) 8
      refine ⟨1 + bitsRead s (s.reader.rdpos + 1) 8, 1, by simp [hp, State.advance], .inr ?_, .inr ?_⟩
      · omega
      · simp [poolFull] at hp; omega

/-- Reading n + 1 bits is reading a bit and then n. -/
theorem peekBits_cons {s : State} {n pos : Nat} {b : Bool} {bs : Bits} :
    peekBits s pos (n + 1) = .ok (b :: bs) ↔ peekBit s pos = .ok b ∧ peekBits s (pos + 1) n = .ok bs := by
  rw [show peekBits s pos (n + 1) = (match peekBit s pos with
    | .error e => .error e
    | .ok b => match peekBits s (pos + 1) n with
      | .error e => .error e
      | .ok bs => .ok (b :: bs)) from rfl]
  cases peekBit s pos with
  | error e => simp
  | ok b' => cases peekBits s (pos + 1) n <;> simp

/-- Reading |as| + n bits is reading as and then n. -/
theorem peekBits_append {s : State} {n pos : Nat} {as bs : Bits} :
    peekBits s pos (as.length + n) = .ok (as ++ bs)
      ↔ peekBits s pos as.length = .ok as ∧ peekBits s (pos + as.length) n = .ok bs := by
  induction as generalizing pos with
  | nil => simp [peekBits]
  | cons a as ih =>
    rw [List.length_cons, Nat.add_right_comm, List.cons_append, peekBits_cons, peekBits_cons, ih, and_assoc,
      show pos + 1 + as.length = pos + (as.length + 1) by omega]

/-- The reader looks at RDLIMIT, the source window's address, BUS_FAULT and memory only. -/
theorem peekBit_congr {s t : State} (hr : t.reader.rdlimit = s.reader.rdlimit) (hl : t.latched = s.latched)
    (hp : t.platform = s.platform) (hm : t.mem = s.mem) (pos : Nat) : peekBit t pos = peekBit s pos := by
  simp [peekBit, memRead, srcByteAddr, hr, hl, hp, hm]

theorem peekBits_congr {s t : State} (hr : t.reader.rdlimit = s.reader.rdlimit) (hl : t.latched = s.latched)
    (hp : t.platform = s.platform) (hm : t.mem = s.mem) (n pos : Nat) : peekBits t pos n = peekBits s pos n := by
  induction n generalizing pos with
  | zero => rfl
  | succ n ih => simp only [peekBits, peekBit_congr hr hl hp hm, ih]

/-! ### Bits as numbers -/

theorem natOfBits_foldl (bs : Bits) (v : Nat) :
    bs.foldl (fun v b => 2 * v + b.toNat) v = v * 2 ^ bs.length + natOfBits bs := by
  induction bs generalizing v with
  | nil => simp [natOfBits]
  | cons b bs ih =>
    have h0 := ih b.toNat
    simp only [natOfBits, List.foldl_cons, Nat.mul_zero, Nat.zero_add] at *
    rw [ih, h0, List.length_cons, Nat.pow_succ]
    ring

theorem natOfBits_cons (b : Bool) (bs : Bits) : natOfBits (b :: bs) = b.toNat * 2 ^ bs.length + natOfBits bs := by
  simp only [natOfBits, List.foldl_cons, Nat.mul_zero, Nat.zero_add]
  exact natOfBits_foldl bs b.toNat

theorem natOfBits_lt (bs : Bits) : natOfBits bs < 2 ^ bs.length := by
  induction bs with
  | nil => simp [natOfBits]
  | cons b bs ih =>
    rw [natOfBits_cons, List.length_cons, Nat.pow_succ]
    cases b <;> simp <;> omega

/-- The value of `msb_bits(v, n)` is v's low n bits (R11). -/
theorem natOfBits_msbBits (v n : Nat) : natOfBits (msbBits v n) = v % 2 ^ n := by
  induction n with
  | zero => simp [msbBits, natOfBits, Nat.mod_one]
  | succ n ih =>
    rw [msbBits, natOfBits_cons, ih, msbBits_length, Nat.testBit_eq_decide_div_mod_eq, Nat.pow_succ, Nat.mod_mul]
    have h : v / 2 ^ n % 2 < 2 := Nat.mod_lt _ (by omega)
    generalize v / 2 ^ n % 2 = x at h
    have : x = 0 ∨ x = 1 := by omega
    rcases this with rfl | rfl
    · simp
    · simp; omega

/-- A bit string is the `msb_bits` of its value. -/
theorem msbBits_natOfBits (bs : Bits) : msbBits (natOfBits bs) bs.length = bs := by
  have key : ∀ (bs : Bits) (w : Nat), msbBits (w * 2 ^ bs.length + natOfBits bs) bs.length = bs := by
    intro bs
    induction bs with
    | nil => intro w; rfl
    | cons b bs ih =>
      intro w
      have hlt := natOfBits_lt bs
      rw [List.length_cons, msbBits, natOfBits_cons]
      have e : w * 2 ^ (bs.length + 1) + (b.toNat * 2 ^ bs.length + natOfBits bs)
          = (2 * w + b.toNat) * 2 ^ bs.length + natOfBits bs := by
        rw [Nat.pow_succ]; ring
      rw [e, ih]
      congr 1
      rw [Nat.testBit_eq_decide_div_mod_eq]
      have : ((2 * w + b.toNat) * 2 ^ bs.length + natOfBits bs) / 2 ^ bs.length = 2 * w + b.toNat := by
        rw [Nat.mul_comm, Nat.mul_add_div (Nat.two_pow_pos _), Nat.div_eq_of_lt hlt, Nat.add_zero]
      rw [this]
      cases b <;> simp
  simpa using key bs 0

/-! ### Fetched elements -/

/-- What a token fetch gives (R155, R157): an INTERNAL token, a LEAF token, both with a slot free, or an error. -/
theorem fetchToken_cases (s : State) :
    (fetchToken s = .ok [false] ∧ peekBits s s.reader.rdpos 1 = .ok [false] ∧ poolFull s = false)
      ∨ (∃ bs, fetchToken s = .ok (true :: bs) ∧ peekBits s s.reader.rdpos 9 = .ok (true :: bs) ∧ bs.length = 8
          ∧ poolFull s = false)
      ∨ (∃ e, fetchToken s = .error e ∧ (ReadError e ∨ e = .treeOverflow)) := by
  unfold fetchToken
  cases hb : peekBit s s.reader.rdpos with
  | error e => exact .inr (.inr ⟨e, rfl, .inl (peekBit_error hb)⟩)
  | ok b =>
    cases hp : poolFull s with
    | true => exact .inr (.inr ⟨_, rfl, .inr rfl⟩)
    | false =>
      cases b with
      | false => exact .inl ⟨rfl, by simp [peekBits, hb], rfl⟩
      | true =>
        cases hr : peekBits s (s.reader.rdpos + 1) 8 with
        | error e => exact .inr (.inr ⟨e, rfl, .inl (peekBits_error hr)⟩)
        | ok bs =>
          exact .inr (.inl ⟨bs, rfl, by rw [peekBits, hb]; simp [hr], (peekBits_ok hr).1, rfl⟩)

/-- A fetched LEAF token's symbol. -/
theorem decodeToken_leaf (bs rest : Bits) (h : bs.length = 8) :
    decode .treeToken (true :: (bs ++ rest)) = .ok (.tokenLeaf (BitVec.ofNat 8 (natOfBits bs)), rest) := by
  simp [decode, decodeToken, splitBits, h]

/-- The count field. -/
theorem decodeCount_bits (bs rest : Bits) (h : bs.length = 32) :
    decode .count32 (bs ++ rest) = .ok (.count (BitVec.ofNat 32 (natOfBits bs)), rest) := by
  simp [decode, decodeCount, splitBits, h]

/-- The payload element of a bit. -/
theorem decodePayload_bit (b : Bool) (rest : Bits) :
    decode .payloadBit (b :: rest) = .ok (payloadInstr b, rest) := by
  cases b <;> rfl

end Sys2Proof.Machine
end

