-- ==== Sys2Proof/Laws/Phases.lean ====
section
/-! SUPPORT. Everything a step of each phase can do: one inversion lemma per phase, for the whole-machine statements. -/

namespace Sys2Proof.Machine

open Sys2Proof.Safety

/-! ### CHECK to CODES -/

theorem checkStep_cases (s : State) :
    checkStep s = .next (endCommand .invalidArgument s)
      ∨ (windowsLegal s.latched = true ∧ s.cmd = 0x00000001#32 ∧ checkStep s = .next (s.toPhase .freq))
      ∨ (windowsLegal s.latched = true ∧ s.cmd = 0x00000002#32
          ∧ checkStep s = .next (State.toPhase .deserTree (fromBytes s))) := by
  unfold checkStep windowsLegal
  rcases decodeCmd_cases s.cmd with ⟨hw, h⟩ | ⟨hw, h⟩ | ⟨_, _, e, h⟩ <;> rw [h]
  · rw [hw]
    cases passesTop s.latched.srcAddr s.latched.srcLen <;> cases passesTop s.latched.dstAddr s.latched.dstCap <;>
      cases overlap s.latched <;> simp [raise, startPhases]
  · rw [hw]
    cases passesTop s.latched.srcAddr s.latched.srcLen <;> cases passesTop s.latched.dstAddr s.latched.dstCap <;>
      cases overlap s.latched <;> simp [raise, startPhases]
  · exact .inl rfl

theorem freqStep_cases (s : State) :
    (s.loop.idx < s.latched.srcLen.toNat ∧ busFault s.platform .read (srcByteAddr s s.loop.idx) = true
        ∧ freqStep s = .next (endCommand .busError s))
      ∨ (s.loop.idx < s.latched.srcLen.toNat ∧ busFault s.platform .read (srcByteAddr s s.loop.idx) = false
        ∧ freqStep s = .next { s with
            work := { s.work with
              freq := countSymbol (readByte (srcByteAddr s s.loop.idx).toNat s.mem) s.work.freq }
            loop := { s.loop with idx := s.loop.idx + 1 } })
      ∨ (s.latched.srcLen.toNat ≤ s.loop.idx ∧ freqStep s = .next (freqDone s)) := by
  unfold freqStep
  by_cases h : s.loop.idx < s.latched.srcLen.toNat
  · rcases memRead_cases (srcByteAddr s s.loop.idx) s with ⟨hf, hm⟩ | ⟨hf, hm⟩
    · exact .inl ⟨h, hf, by simp [h, readSource, hm, raise]⟩
    · exact .inr (.inl ⟨h, hf, by simp [h, readSource, hm]⟩)
  · exact .inr (.inr ⟨by omega, by simp [h]⟩)

theorem extractMin_nil (nodes : List (Nat × Node)) : extractMin nodes [] = none := rfl

theorem extractMin_single (nodes : List (Nat × Node)) (a : Nat) : extractMin nodes [a] = some (a, []) := by
  simp [extractMin, minMember]

theorem minMember_mem (nodes : List (Nat × Node)) (best : Nat) (l : List Nat) :
    minMember nodes best l ∈ best :: l := by
  induction l generalizing best with
  | nil => simp [minMember]
  | cons x rest ih =>
    unfold minMember
    have := ih (if keyBefore nodes x best then x else best)
    rcases List.mem_cons.1 this with h | h
    · rw [h]; split <;> simp
    · simp [h]

/-- `extract_min` of a set that is not empty takes a member out (R126). -/
theorem extractMin_some {nodes : List (Nat × Node)} {w : List Nat} (h : w ≠ []) :
    ∃ m, extractMin nodes w = some (m, w.erase m) ∧ m ∈ w := by
  cases w with
  | nil => exact absurd rfl h
  | cons x rest => exact ⟨_, rfl, minMember_mem nodes x rest⟩

theorem buildStep_cases (s : State) :
    (s.work.nnodes = 0 ∧ buildStep s = .next (buildLeaves s))
      ∨ (s.work.nnodes ≠ 0 ∧ s.work.wset = [] ∧ buildStep s = .next (buildDone s.work.root s))
      ∨ (s.work.nnodes ≠ 0 ∧ ∃ a, s.work.wset = [a] ∧ buildStep s = .next (buildDone a s))
      ∨ (s.work.nnodes ≠ 0 ∧ ∃ a b w, a ∈ s.work.wset ∧ w = s.work.wset.erase a ∧ b ∈ w
          ∧ extractMin s.work.nodes s.work.wset = some (a, w)
          ∧ extractMin s.work.nodes w = some (b, w.erase b)
          ∧ buildStep s = .next (mergeNodes a b (w.erase b) s)) := by
  unfold buildStep
  by_cases h0 : s.work.nnodes = 0
  · exact .inl ⟨h0, by simp [h0]⟩
  · simp only [h0, if_false, false_and, false_or, not_false_eq_true, true_and, ne_eq]
    by_cases hw : s.work.wset = []
    · exact .inl ⟨hw, by simp [hw, extractMin]⟩
    · obtain ⟨a, ha, hm⟩ := extractMin_some (nodes := s.work.nodes) hw
      rw [ha]
      by_cases hw' : s.work.wset.erase a = []
      · refine .inr (.inl ⟨a, ?_, by simp [hw', extractMin]⟩)
        have hl := List.length_erase_of_mem hm
        rw [hw'] at hl
        obtain ⟨x, hx⟩ : ∃ x, s.work.wset = [x] := by
          apply List.length_eq_one_iff.1
          have := List.length_pos_of_mem hm
          simp at hl
          omega
        rw [hx] at hm ⊢
        simp at hm
        rw [hm]
      · obtain ⟨b, hb, hm'⟩ := extractMin_some (nodes := s.work.nodes) hw'
        exact .inr (.inr ⟨a, b, _, hm, rfl, hm', rfl, hb, by simp [hb]⟩)

theorem codesStep_cases (s : State) :
    (s.work.stack = [] ∧ codesStep s = .next (s.toPhase .size))
      ∨ (∃ top rest, s.work.stack = top :: rest ∧ codesStep s = .next (visitCode top rest s)) := by
  unfold codesStep
  cases s.work.stack with
  | nil => exact .inl ⟨rfl, rfl⟩
  | cons top rest => exact .inr ⟨top, rest, rfl, rfl⟩

/-! ### SIZE to FINAL -/

/-- SIZE records the tree's bits and overflows, or goes to SER_TREE with its walk at the root (R173, R171). -/
theorem sizeStep_cases (s : State) :
    ∃ tb need, (s.latched.dstCap.toNat < need ∧ sizeStep s = .next (endCommand .outputOverflow
          { s with results := { s.results with
              treeBits := BitVec.ofNat 32 tb, outLen := BitVec.ofNat 32 (min need 0xFFFFFFFF) } }))
      ∨ (need ≤ s.latched.dstCap.toNat ∧ sizeStep s = .next (State.toPhase .serTree
          { s with
            results := { s.results with treeBits := BitVec.ofNat 32 tb }
            work := { s.work with
              stack := if s.latched.srcLen = 0#32 then [] else walkFrom s.work.root } })) := by
  have key : ∀ tb need stack, (s.latched.dstCap.toNat < need ∧ sizeCheck tb need stack s = .next (endCommand
        .outputOverflow { s with results := { s.results with
            treeBits := BitVec.ofNat 32 tb, outLen := BitVec.ofNat 32 (min need 0xFFFFFFFF) } }))
      ∨ (need ≤ s.latched.dstCap.toNat ∧ sizeCheck tb need stack s = .next (State.toPhase .serTree
          { s with
            results := { s.results with treeBits := BitVec.ofNat 32 tb }
            work := { s.work with stack := stack } })) := by
    intro tb need stack
    unfold sizeCheck
    by_cases h : s.latched.dstCap.toNat < need
    · exact .inl ⟨h, by simp [h, raise]⟩
    · exact .inr ⟨by omega, by simp [h]⟩
  unfold sizeStep
  by_cases h : s.latched.srcLen = 0#32
  · simp only [h, if_true]
    exact ⟨_, _, key _ _ _⟩
  · simp only [h, if_false]
    exact ⟨_, _, key _ _ _⟩

/-- What SER_TREE writes is a token of the tree (R150). -/
theorem serToken_kind {s : State} {i : Instr} (h : serToken s = some i) :
    i = .tokenInternal ∨ ∃ sym, i = .tokenLeaf sym := by
  unfold serToken at h
  split at h
  · split at h
    · cases h; exact .inr ⟨_, rfl⟩
    · exact nomatch h
  · split at h
    · exact nomatch h
    · split at h <;> cases h
      · exact .inr ⟨_, rfl⟩
      · exact .inl rfl

/-- SER_TREE writes a token and walks on, ends with BUS_ERROR, or has no token left. -/
theorem serTreeStep_cases {s : State} (hr : Running .serTree s) :
    (serToken s = none ∧ serTreeStep s = .next (s.toPhase .wrCount))
      ∨ ∃ t, WriterFrame s t ∧ serToken s ≠ none
          ∧ ((s.writer.wbits < t.writer.wbits ∧ FillKept s t ∧ serTreeStep s = .next (serNext t))
            ∨ serTreeStep s = .next (endCommand .busError t)) := by
  unfold serTreeStep
  cases hi : serToken s with
  | none => exact .inl ⟨rfl, rfl⟩
  | some i =>
    have ha := active_running hr
    have hk := serToken_kind hi
    have hex : exec i s = orBusError (putBits (encode i) s) (fun t => .next (serNext t)) ∧ 0 < (encode i).length := by
      rcases hk with rfl | ⟨sym, rfl⟩
      · exact ⟨by simp [exec, execTokenInternal, ha, emitInternal_eq], by decide⟩
      · exact ⟨by simp [exec, execTokenLeaf, ha, emitLeaf_eq], by simp [encode]⟩
    obtain ⟨t, hf, ⟨ht, hw, hk⟩ | ht⟩ := putBits_frame (encode i) s
    · exact .inr ⟨t, hf, by simp, .inl ⟨by omega, hk, by simp only [hex.1, ht, orBusError]⟩⟩
    · exact .inr ⟨t, hf, by simp, .inr (by simp only [hex.1, ht, orBusError, raise])⟩

theorem wrCountStep_cases {s : State} (hr : Running .wrCount s) :
    ∃ t, WriterFrame s t
      ∧ ((FillKept s t ∧ wrCountStep s = .next (afterCount t)) ∨ wrCountStep s = .next (endCommand .busError t)) := by
  have hex : wrCountStep s = orBusError (putBits (msbBits s.latched.srcLen.toNat 32) s)
      (fun t => .next (afterCount t)) := by
    simp [wrCountStep, exec, execCount, active_running hr, writeBits]
  obtain ⟨t, hf, ⟨ht, _, hk⟩ | ht⟩ := putBits_frame (msbBits s.latched.srcLen.toNat 32) s
  · exact ⟨t, hf, .inl ⟨hk, by simp only [hex, ht, orBusError]⟩⟩
  · exact ⟨t, hf, .inr (by simp only [hex, ht, orBusError, raise])⟩

/-- The payload element of a bit, in ENCODE. -/
theorem exec_payload_encode {s : State} (b : Bool) (hr : Running .encode s) :
    exec (payloadInstr b) s = emitPayload b s := by
  cases b <;> simp [payloadInstr, exec, execPayloadLeft, execPayloadRight, active_running hr]

theorem encodeStep_cases {s : State} (hr : Running .encode s) :
    (∃ b bs t, s.loop.codeRest = b :: bs ∧ WriterFrame s t
        ∧ ((FillKept s t ∧ encodeStep s = .next { t with loop := { s.loop with codeRest := bs } })
          ∨ encodeStep s = .next (endCommand .busError t)))
      ∨ (s.loop.codeRest = [] ∧ s.loop.idx < s.latched.srcLen.toNat
          ∧ busFault s.platform .read (srcByteAddr s s.loop.idx) = true
          ∧ encodeStep s = .next (endCommand .busError s))
      ∨ (s.loop.codeRest = [] ∧ s.loop.idx < s.latched.srcLen.toNat
          ∧ busFault s.platform .read (srcByteAddr s s.loop.idx) = false
          ∧ encodeStep s = .next (loadCode (readByte (srcByteAddr s s.loop.idx).toNat s.mem)
              { s with loop := { s.loop with idx := s.loop.idx + 1 } }))
      ∨ (s.loop.codeRest = [] ∧ s.latched.srcLen.toNat ≤ s.loop.idx
          ∧ encodeStep s = .next (s.toPhase .final)) := by
  unfold encodeStep
  cases hc : s.loop.codeRest with
  | cons b bs =>
    obtain ⟨t, hf, ⟨ht, _, hk⟩ | ht⟩ := putBit_frame b s
    · have hl : t.loop = s.loop := by rw [hf.only]
      exact .inl ⟨b, bs, t, rfl, hf,
        .inl ⟨hk, by simp [exec_payload_encode b hr, emitPayload, ht, orBusError, hl, hc]⟩⟩
    · exact .inl ⟨b, bs, t, rfl, hf, .inr (by simp [exec_payload_encode b hr, emitPayload, ht, orBusError, raise])⟩
  | nil =>
    by_cases h : s.loop.idx < s.latched.srcLen.toNat
    · rcases memRead_cases (srcByteAddr s s.loop.idx) s with ⟨hf, hm⟩ | ⟨hf, hm⟩
      · exact .inr (.inl ⟨rfl, h, hf, by simp [h, readSource, hm, raise]⟩)
      · exact .inr (.inr (.inl ⟨rfl, h, hf, by simp [h, readSource, hm]⟩))
    · exact .inr (.inr (.inr ⟨rfl, by omega, by simp [h]⟩))

theorem finalStep_cases (s : State) :
    ∃ t, WriterFrame s t
      ∧ (finalStep s = .next (endCommand .noError
            { t with results := { t.results with outLen := BitVec.ofNat 32 t.writer.outpos } })
        ∨ finalStep s = .next (endCommand .busError t)) := by
  unfold finalStep
  obtain ⟨t, hf, ht | ht⟩ := finalize_frame s
  · exact ⟨t, hf, .inl (by simp [ht, orBusError, raise])⟩
  · exact ⟨t, hf, .inr (by simp [ht, orBusError, raise])⟩

/-! ### DESER_TREE to DECODE -/

theorem deserTreeStep_cases {s : State} (hr : Running .deserTree s) :
    (∃ e j a, (ReadError e ∨ e = .treeOverflow) ∧ StopIn j a s
        ∧ deserTreeStep s = .next (endCommand e (stopAt j a s)))
      ∨ (peekBits s s.reader.rdpos 1 = .ok [false] ∧ s.work.nnodes < Config.nodePool
          ∧ deserTreeStep s = .next (takeInternal s))
      ∨ (∃ bs, peekBits s s.reader.rdpos 9 = .ok (true :: bs) ∧ bs.length = 8 ∧ s.work.nnodes < Config.nodePool
          ∧ deserTreeStep s = .next (takeLeaf (BitVec.ofNat 8 (natOfBits bs)) s)) := by
  have ha := active_running hr
  unfold deserTreeStep
  rcases fetchToken_cases s with ⟨h, hp, hf⟩ | ⟨bs, h, hp, hl, hf⟩ | ⟨e, h, he⟩
  · refine .inr (.inl ⟨hp, by simpa [poolFull] using hf, ?_⟩)
    simp [h, execFetched, decode, decodeToken, exec, execTokenInternal, ha, hf]
  · refine .inr (.inr ⟨bs, hp, hl, by simpa [poolFull] using hf, ?_⟩)
    have hd := decodeToken_leaf bs [] hl
    simp only [List.append_nil] at hd
    simp [h, execFetched, hd, exec, execTokenLeaf, ha, hf]
  · obtain ⟨j, a, hs, hin⟩ := tokenStop_cases s
    exact .inl ⟨e, j, a, he, hin, by simp [h, execFetched, raise, hs]⟩

theorem rdCountStep_cases {s : State} (hr : Running .rdCount s) :
    (∃ e j, ReadError e ∧ StopIn j 0 s ∧ rdCountStep s = .next (endCommand e (stopAt j 0 s)))
      ∨ ∃ bs, peekBits s s.reader.rdpos 32 = .ok bs
          ∧ ((s.latched.dstCap.toNat < (BitVec.ofNat 32 (natOfBits bs)).toNat
              ∧ rdCountStep s = .next (endCommand .outputOverflow
                  { takeCount (BitVec.ofNat 32 (natOfBits bs)) s with
                    results := { s.results with
                      symCount := BitVec.ofNat 32 (natOfBits bs), outLen := BitVec.ofNat 32 (natOfBits bs) } }))
            ∨ ((BitVec.ofNat 32 (natOfBits bs)).toNat ≤ s.latched.dstCap.toNat
              ∧ rdCountStep s = .next (startDecode (takeCount (BitVec.ofNat 32 (natOfBits bs)) s)))) := by
  have ha := active_running hr
  unfold rdCountStep fetchCount
  cases h : peekBits s s.reader.rdpos 32 with
  | error e =>
    obtain ⟨j, hs, hin⟩ := readStop_cases 32 s
    exact .inl ⟨e, j, peekBits_error h, hin, by simp [execFetched, raise, hs]⟩
  | ok bs =>
    have hd := decodeCount_bits bs [] (peekBits_ok h).1
    simp only [List.append_nil] at hd
    refine .inr ⟨bs, rfl, ?_⟩
    simp only [execFetched, hd, exec, execCount, ha, checkCapacity, takeCount_latched, raise]
    generalize BitVec.ofNat 32 (natOfBits bs) = n
    by_cases hn : s.latched.dstCap.toNat < n.toNat
    · exact .inl ⟨hn, by simp [hn, takeCount, State.advance]⟩
    · exact .inr ⟨by omega, by simp [hn]⟩

/-- The payload element of a bit, in DECODE. -/
theorem exec_payload_decode {s : State} (b : Bool) (hr : Running .decode s) :
    exec (payloadInstr b) s = .next (walkStep
      (if b then (nodeAt s.work.nodes s.loop.cursor).right else (nodeAt s.work.nodes s.loop.cursor).left) s) := by
  cases b <;> simp [payloadInstr, exec, execPayloadLeft, execPayloadRight, active_running hr]

theorem decodeStep_cases {s : State} (hr : Running .decode s) :
    (s.results.symCount.toNat ≤ s.writer.outpos
        ∧ decodeStep s = .next (endCommand .noError
            { s with results := { s.results with outLen := s.results.symCount } }))
      ∨ (s.writer.outpos < s.results.symCount.toNat ∧ (nodeAt s.work.nodes s.loop.cursor).kind = .leaf
          ∧ ∃ v d, (busFault s.platform .write (dstByteAddr s s.writer.outpos) = false
              ∧ v = (nodeAt s.work.nodes s.loop.cursor).sym ∧ d = s.draws
              ∧ decodeStep s = .next { s with
                mem := writeByte (dstByteAddr s s.writer.outpos).toNat v s.mem
                writer := { s.writer with outpos := s.writer.outpos + 1 }
                loop := { s.loop with cursor := s.work.root } })
            ∨ (busFault s.platform .write (dstByteAddr s s.writer.outpos) = true
              ∧ decodeStep s = .next (endCommand .busError { s with
                mem := writeByte (dstByteAddr s s.writer.outpos).toNat v s.mem, draws := d })))
      ∨ (s.writer.outpos < s.results.symCount.toNat ∧ (nodeAt s.work.nodes s.loop.cursor).kind = .internal
          ∧ ((∃ e j, ReadError e ∧ StopIn j 0 s ∧ decodeStep s = .next (endCommand e (stopAt j 0 s)))
            ∨ ∃ b, peekBits s s.reader.rdpos 1 = .ok [b]
                ∧ decodeStep s = .next (walkStep (if b then (nodeAt s.work.nodes s.loop.cursor).right
                    else (nodeAt s.work.nodes s.loop.cursor).left) s))) := by
  unfold decodeStep
  by_cases h : s.results.symCount.toNat ≤ s.writer.outpos
  · exact .inl ⟨h, by simp [h, raise]⟩
  · have h' : s.writer.outpos < s.results.symCount.toNat := by omega
    cases hk : (nodeAt s.work.nodes s.loop.cursor).kind with
    | leaf =>
      refine .inr (.inl ⟨h', rfl, ?_⟩)
      cases hf : busFault s.platform .write (dstByteAddr s s.writer.outpos) with
      | false =>
        exact ⟨_, _, .inl ⟨rfl, rfl, rfl, by simp [h, emitSymbol, memWrite_ok _ hf, orBusError]⟩⟩
      | true =>
        exact ⟨_, _, .inr ⟨rfl, by simp only [h, if_false, emitSymbol, memWrite_fault _ hf, orBusError, raise]; rfl⟩⟩
    | internal =>
      refine .inr (.inr ⟨h', rfl, ?_⟩)
      simp only [h, if_false, fetchPayload]
      cases hp : peekBits s s.reader.rdpos 1 with
      | error e =>
        obtain ⟨j, hs, hin⟩ := readStop_cases 1 s
        exact .inl ⟨e, j, peekBits_error hp, hin, by simp [execFetched, raise, hs]⟩
      | ok bs =>
        obtain ⟨b, rfl⟩ := List.length_eq_one_iff.1 (peekBits_ok hp).1
        exact .inr ⟨b, rfl, by simp [execFetched, decodePayload_bit, exec_payload_decode b hr]⟩

end Sys2Proof.Machine
end

