-- ==== Sys2Proof/Laws/Updates.lean ====
section
/-! SUPPORT. One lemma per field for each update a step of a phase makes. -/

namespace Sys2Proof.Machine

variable (s : State)

/-! `freqDone` -/

@[simp] theorem freqDone_cmd : (freqDone s).cmd = s.cmd := rfl
@[simp] theorem freqDone_win : (freqDone s).win = s.win := rfl
@[simp] theorem freqDone_irqEn : (freqDone s).irqEn = s.irqEn := rfl
@[simp] theorem freqDone_latched : (freqDone s).latched = s.latched := rfl
@[simp] theorem freqDone_work : (freqDone s).work = s.work := rfl
@[simp] theorem freqDone_writer : (freqDone s).writer = s.writer := rfl
@[simp] theorem freqDone_reader : (freqDone s).reader = s.reader := rfl
@[simp] theorem freqDone_loop : (freqDone s).loop = s.loop := rfl
@[simp] theorem freqDone_platform : (freqDone s).platform = s.platform := rfl
@[simp] theorem freqDone_mem : (freqDone s).mem = s.mem := rfl
@[simp] theorem freqDone_host : (freqDone s).host = s.host := rfl
@[simp] theorem freqDone_rdata : (freqDone s).rdata = s.rdata := rfl
@[simp] theorem freqDone_draws : (freqDone s).draws = s.draws := rfl
@[simp] theorem freqDone_status_busy : (freqDone s).status.busy = s.status.busy := rfl
@[simp] theorem freqDone_status_done : (freqDone s).status.done = s.status.done := rfl
@[simp] theorem freqDone_status_errcode : (freqDone s).status.errcode = s.status.errcode := rfl
@[simp] theorem freqDone_results_outLen : (freqDone s).results.outLen = s.results.outLen := rfl
@[simp] theorem freqDone_results_leafCount : (freqDone s).results.leafCount = s.results.leafCount := rfl
@[simp] theorem freqDone_results_treeBits : (freqDone s).results.treeBits = s.results.treeBits := rfl
@[simp] theorem freqDone_status_phase :
    (freqDone s).status.phase = if s.latched.srcLen = 0#32 then .size else .build := rfl
@[simp] theorem freqDone_results_symCount : (freqDone s).results.symCount = s.latched.srcLen := rfl

/-! `mergeNodes` -/

@[simp] theorem mergeNodes_cmd (a b : Nat) (w : List Nat) : (mergeNodes a b w s).cmd = s.cmd := rfl
@[simp] theorem mergeNodes_status (a b : Nat) (w : List Nat) : (mergeNodes a b w s).status = s.status := rfl
@[simp] theorem mergeNodes_win (a b : Nat) (w : List Nat) : (mergeNodes a b w s).win = s.win := rfl
@[simp] theorem mergeNodes_results (a b : Nat) (w : List Nat) : (mergeNodes a b w s).results = s.results := rfl
@[simp] theorem mergeNodes_irqEn (a b : Nat) (w : List Nat) : (mergeNodes a b w s).irqEn = s.irqEn := rfl
@[simp] theorem mergeNodes_latched (a b : Nat) (w : List Nat) : (mergeNodes a b w s).latched = s.latched := rfl
@[simp] theorem mergeNodes_writer (a b : Nat) (w : List Nat) : (mergeNodes a b w s).writer = s.writer := rfl
@[simp] theorem mergeNodes_reader (a b : Nat) (w : List Nat) : (mergeNodes a b w s).reader = s.reader := rfl
@[simp] theorem mergeNodes_loop (a b : Nat) (w : List Nat) : (mergeNodes a b w s).loop = s.loop := rfl
@[simp] theorem mergeNodes_platform (a b : Nat) (w : List Nat) : (mergeNodes a b w s).platform = s.platform := rfl
@[simp] theorem mergeNodes_mem (a b : Nat) (w : List Nat) : (mergeNodes a b w s).mem = s.mem := rfl
@[simp] theorem mergeNodes_host (a b : Nat) (w : List Nat) : (mergeNodes a b w s).host = s.host := rfl
@[simp] theorem mergeNodes_rdata (a b : Nat) (w : List Nat) : (mergeNodes a b w s).rdata = s.rdata := rfl
@[simp] theorem mergeNodes_draws (a b : Nat) (w : List Nat) : (mergeNodes a b w s).draws = s.draws := rfl
@[simp] theorem mergeNodes_work_freq (a b : Nat) (w : List Nat) : (mergeNodes a b w s).work.freq = s.work.freq := rfl
@[simp] theorem mergeNodes_work_root (a b : Nat) (w : List Nat) : (mergeNodes a b w s).work.root = s.work.root := rfl
@[simp] theorem mergeNodes_work_code (a b : Nat) (w : List Nat) : (mergeNodes a b w s).work.code = s.work.code := rfl
@[simp] theorem mergeNodes_work_stack (a b : Nat) (w : List Nat) :
    (mergeNodes a b w s).work.stack = s.work.stack := rfl
@[simp] theorem mergeNodes_work_nnodes (a b : Nat) (w : List Nat) :
    (mergeNodes a b w s).work.nnodes = s.work.nnodes + 1 := rfl
@[simp] theorem mergeNodes_work_wset (a b : Nat) (w : List Nat) :
    (mergeNodes a b w s).work.wset = w ++ [s.work.nnodes] := rfl
@[simp] theorem mergeNodes_work_nodes (a b : Nat) (w : List Nat) :
    (mergeNodes a b w s).work.nodes = setNode s.work.nnodes { nodeAt s.work.nodes s.work.nnodes with
      kind := .internal, left := a, right := b
      freq := (nodeAt s.work.nodes a).freq + (nodeAt s.work.nodes b).freq } s.work.nodes := rfl

/-! `visitCode` -/

@[simp] theorem visitCode_cmd (top : Frame) (rest : List Frame) : (visitCode top rest s).cmd = s.cmd := rfl
@[simp] theorem visitCode_status (top : Frame) (rest : List Frame) : (visitCode top rest s).status = s.status := rfl
@[simp] theorem visitCode_win (top : Frame) (rest : List Frame) : (visitCode top rest s).win = s.win := rfl
@[simp] theorem visitCode_results (top : Frame) (rest : List Frame) :
    (visitCode top rest s).results = s.results := rfl
@[simp] theorem visitCode_irqEn (top : Frame) (rest : List Frame) : (visitCode top rest s).irqEn = s.irqEn := rfl
@[simp] theorem visitCode_latched (top : Frame) (rest : List Frame) :
    (visitCode top rest s).latched = s.latched := rfl
@[simp] theorem visitCode_writer (top : Frame) (rest : List Frame) : (visitCode top rest s).writer = s.writer := rfl
@[simp] theorem visitCode_reader (top : Frame) (rest : List Frame) : (visitCode top rest s).reader = s.reader := rfl
@[simp] theorem visitCode_loop (top : Frame) (rest : List Frame) : (visitCode top rest s).loop = s.loop := rfl
@[simp] theorem visitCode_platform (top : Frame) (rest : List Frame) :
    (visitCode top rest s).platform = s.platform := rfl
@[simp] theorem visitCode_mem (top : Frame) (rest : List Frame) : (visitCode top rest s).mem = s.mem := rfl
@[simp] theorem visitCode_host (top : Frame) (rest : List Frame) : (visitCode top rest s).host = s.host := rfl
@[simp] theorem visitCode_rdata (top : Frame) (rest : List Frame) : (visitCode top rest s).rdata = s.rdata := rfl
@[simp] theorem visitCode_draws (top : Frame) (rest : List Frame) : (visitCode top rest s).draws = s.draws := rfl
@[simp] theorem visitCode_work_freq (top : Frame) (rest : List Frame) :
    (visitCode top rest s).work.freq = s.work.freq := rfl
@[simp] theorem visitCode_work_root (top : Frame) (rest : List Frame) :
    (visitCode top rest s).work.root = s.work.root := rfl
@[simp] theorem visitCode_work_nodes (top : Frame) (rest : List Frame) :
    (visitCode top rest s).work.nodes = s.work.nodes := rfl
@[simp] theorem visitCode_work_nnodes (top : Frame) (rest : List Frame) :
    (visitCode top rest s).work.nnodes = s.work.nnodes := rfl
@[simp] theorem visitCode_work_wset (top : Frame) (rest : List Frame) :
    (visitCode top rest s).work.wset = s.work.wset := rfl
@[simp] theorem visitCode_work_stack (top : Frame) (rest : List Frame) :
    (visitCode top rest s).work.stack = walkOn s.work.nodes (top :: rest) := rfl

/-! `buildLeaves` -/

@[simp] theorem buildLeaves_cmd : (buildLeaves s).cmd = s.cmd := by
  unfold buildLeaves; dsimp only; split <;> rfl
@[simp] theorem buildLeaves_win : (buildLeaves s).win = s.win := by
  unfold buildLeaves; dsimp only; split <;> rfl
@[simp] theorem buildLeaves_irqEn : (buildLeaves s).irqEn = s.irqEn := by
  unfold buildLeaves; dsimp only; split <;> rfl
@[simp] theorem buildLeaves_latched : (buildLeaves s).latched = s.latched := by
  unfold buildLeaves; dsimp only; split <;> rfl
@[simp] theorem buildLeaves_writer : (buildLeaves s).writer = s.writer := by
  unfold buildLeaves; dsimp only; split <;> rfl
@[simp] theorem buildLeaves_reader : (buildLeaves s).reader = s.reader := by
  unfold buildLeaves; dsimp only; split <;> rfl
@[simp] theorem buildLeaves_loop : (buildLeaves s).loop = s.loop := by
  unfold buildLeaves; dsimp only; split <;> rfl
@[simp] theorem buildLeaves_platform : (buildLeaves s).platform = s.platform := by
  unfold buildLeaves; dsimp only; split <;> rfl
@[simp] theorem buildLeaves_mem : (buildLeaves s).mem = s.mem := by
  unfold buildLeaves; dsimp only; split <;> rfl
@[simp] theorem buildLeaves_host : (buildLeaves s).host = s.host := by
  unfold buildLeaves; dsimp only; split <;> rfl
@[simp] theorem buildLeaves_rdata : (buildLeaves s).rdata = s.rdata := by
  unfold buildLeaves; dsimp only; split <;> rfl
@[simp] theorem buildLeaves_draws : (buildLeaves s).draws = s.draws := by
  unfold buildLeaves; dsimp only; split <;> rfl
@[simp] theorem buildLeaves_status_busy : (buildLeaves s).status.busy = s.status.busy := by
  unfold buildLeaves; dsimp only; split <;> rfl
@[simp] theorem buildLeaves_status_done : (buildLeaves s).status.done = s.status.done := by
  unfold buildLeaves; dsimp only; split <;> rfl
@[simp] theorem buildLeaves_status_errcode : (buildLeaves s).status.errcode = s.status.errcode := by
  unfold buildLeaves; dsimp only; split <;> rfl
@[simp] theorem buildLeaves_work_freq : (buildLeaves s).work.freq = s.work.freq := by
  unfold buildLeaves; dsimp only; split <;> rfl
@[simp] theorem buildLeaves_work_code : (buildLeaves s).work.code = s.work.code := by
  unfold buildLeaves; dsimp only; split <;> rfl
@[simp] theorem buildLeaves_results_outLen : (buildLeaves s).results.outLen = s.results.outLen := by
  unfold buildLeaves; dsimp only; split <;> rfl
@[simp] theorem buildLeaves_results_symCount : (buildLeaves s).results.symCount = s.results.symCount := by
  unfold buildLeaves; dsimp only; split <;> rfl
@[simp] theorem buildLeaves_results_treeBits : (buildLeaves s).results.treeBits = s.results.treeBits := by
  unfold buildLeaves; dsimp only; split <;> rfl
@[simp] theorem buildLeaves_work_nodes :
    (buildLeaves s).work.nodes = allocLeaves 0 (sortEntries s.work.freq) s.work.nodes := by
  unfold buildLeaves; dsimp only; split <;> rfl
@[simp] theorem buildLeaves_work_nnodes : (buildLeaves s).work.nnodes = (sortEntries s.work.freq).length := by
  unfold buildLeaves; dsimp only; split <;> rfl
@[simp] theorem buildLeaves_results_leafCount :
    (buildLeaves s).results.leafCount = BitVec.ofNat 32 (sortEntries s.work.freq).length := by
  unfold buildLeaves; dsimp only; split <;> rfl
@[simp] theorem buildLeaves_status_phase :
    (buildLeaves s).status.phase = if 2 ≤ (sortEntries s.work.freq).length then s.status.phase else .codes := by
  unfold buildLeaves; dsimp only; split <;> rfl
@[simp] theorem buildLeaves_work_wset :
    (buildLeaves s).work.wset = if 2 ≤ (sortEntries s.work.freq).length then List.range (sortEntries s.work.freq).length
      else s.work.wset := by
  unfold buildLeaves; dsimp only; split <;> simp [*]
@[simp] theorem buildLeaves_work_root :
    (buildLeaves s).work.root = if 2 ≤ (sortEntries s.work.freq).length then s.work.root else 0 := by
  unfold buildLeaves; dsimp only; split <;> rfl
@[simp] theorem buildLeaves_work_stack :
    (buildLeaves s).work.stack = if 2 ≤ (sortEntries s.work.freq).length then s.work.stack else walkFrom 0 := by
  unfold buildLeaves; dsimp only; split <;> rfl

/-! `afterCount` -/

@[simp] theorem afterCount_cmd : (afterCount s).cmd = s.cmd := by
  unfold afterCount; split <;> rfl
@[simp] theorem afterCount_win : (afterCount s).win = s.win := by
  unfold afterCount; split <;> rfl
@[simp] theorem afterCount_results : (afterCount s).results = s.results := by
  unfold afterCount; split <;> rfl
@[simp] theorem afterCount_irqEn : (afterCount s).irqEn = s.irqEn := by
  unfold afterCount; split <;> rfl
@[simp] theorem afterCount_latched : (afterCount s).latched = s.latched := by
  unfold afterCount; split <;> rfl
@[simp] theorem afterCount_work : (afterCount s).work = s.work := by
  unfold afterCount; split <;> rfl
@[simp] theorem afterCount_writer : (afterCount s).writer = s.writer := by
  unfold afterCount; split <;> rfl
@[simp] theorem afterCount_reader : (afterCount s).reader = s.reader := by
  unfold afterCount; split <;> rfl
@[simp] theorem afterCount_platform : (afterCount s).platform = s.platform := by
  unfold afterCount; split <;> rfl
@[simp] theorem afterCount_mem : (afterCount s).mem = s.mem := by
  unfold afterCount; split <;> rfl
@[simp] theorem afterCount_host : (afterCount s).host = s.host := by
  unfold afterCount; split <;> rfl
@[simp] theorem afterCount_rdata : (afterCount s).rdata = s.rdata := by
  unfold afterCount; split <;> rfl
@[simp] theorem afterCount_draws : (afterCount s).draws = s.draws := by
  unfold afterCount; split <;> rfl
@[simp] theorem afterCount_status_busy : (afterCount s).status.busy = s.status.busy := by
  unfold afterCount; split <;> rfl
@[simp] theorem afterCount_status_done : (afterCount s).status.done = s.status.done := by
  unfold afterCount; split <;> rfl
@[simp] theorem afterCount_status_errcode : (afterCount s).status.errcode = s.status.errcode := by
  unfold afterCount; split <;> rfl
@[simp] theorem afterCount_loop_cursor : (afterCount s).loop.cursor = s.loop.cursor := by
  unfold afterCount; split <;> rfl
@[simp] theorem afterCount_status_phase :
    (afterCount s).status.phase = if s.latched.srcLen = 0#32 then .final else .encode := by
  unfold afterCount; split <;> rfl

/-! `loadCode` -/

@[simp] theorem loadCode_cmd (sym : Byte) : (loadCode sym s).cmd = s.cmd := by
  unfold loadCode; dsimp only; split <;> rfl
@[simp] theorem loadCode_status (sym : Byte) : (loadCode sym s).status = s.status := by
  unfold loadCode; dsimp only; split <;> rfl
@[simp] theorem loadCode_win (sym : Byte) : (loadCode sym s).win = s.win := by
  unfold loadCode; dsimp only; split <;> rfl
@[simp] theorem loadCode_results (sym : Byte) : (loadCode sym s).results = s.results := by
  unfold loadCode; dsimp only; split <;> rfl
@[simp] theorem loadCode_irqEn (sym : Byte) : (loadCode sym s).irqEn = s.irqEn := by
  unfold loadCode; dsimp only; split <;> rfl
@[simp] theorem loadCode_latched (sym : Byte) : (loadCode sym s).latched = s.latched := by
  unfold loadCode; dsimp only; split <;> rfl
@[simp] theorem loadCode_work (sym : Byte) : (loadCode sym s).work = s.work := by
  unfold loadCode; dsimp only; split <;> rfl
@[simp] theorem loadCode_writer (sym : Byte) : (loadCode sym s).writer = s.writer := by
  unfold loadCode; dsimp only; split <;> rfl
@[simp] theorem loadCode_reader (sym : Byte) : (loadCode sym s).reader = s.reader := by
  unfold loadCode; dsimp only; split <;> rfl
@[simp] theorem loadCode_platform (sym : Byte) : (loadCode sym s).platform = s.platform := by
  unfold loadCode; dsimp only; split <;> rfl
@[simp] theorem loadCode_mem (sym : Byte) : (loadCode sym s).mem = s.mem := by
  unfold loadCode; dsimp only; split <;> rfl
@[simp] theorem loadCode_host (sym : Byte) : (loadCode sym s).host = s.host := by
  unfold loadCode; dsimp only; split <;> rfl
@[simp] theorem loadCode_rdata (sym : Byte) : (loadCode sym s).rdata = s.rdata := by
  unfold loadCode; dsimp only; split <;> rfl
@[simp] theorem loadCode_loop_idx (sym : Byte) : (loadCode sym s).loop.idx = s.loop.idx := by
  unfold loadCode; dsimp only; split <;> rfl
@[simp] theorem loadCode_loop_cursor (sym : Byte) : (loadCode sym s).loop.cursor = s.loop.cursor := by
  unfold loadCode; dsimp only; split <;> rfl

/-! `takeInternal` -/

@[simp] theorem takeInternal_cmd : (takeInternal s).cmd = s.cmd := rfl
@[simp] theorem takeInternal_status : (takeInternal s).status = s.status := rfl
@[simp] theorem takeInternal_win : (takeInternal s).win = s.win := rfl
@[simp] theorem takeInternal_results : (takeInternal s).results = s.results := rfl
@[simp] theorem takeInternal_irqEn : (takeInternal s).irqEn = s.irqEn := rfl
@[simp] theorem takeInternal_latched : (takeInternal s).latched = s.latched := rfl
@[simp] theorem takeInternal_writer : (takeInternal s).writer = s.writer := rfl
@[simp] theorem takeInternal_loop : (takeInternal s).loop = s.loop := rfl
@[simp] theorem takeInternal_platform : (takeInternal s).platform = s.platform := rfl
@[simp] theorem takeInternal_mem : (takeInternal s).mem = s.mem := rfl
@[simp] theorem takeInternal_host : (takeInternal s).host = s.host := rfl
@[simp] theorem takeInternal_rdata : (takeInternal s).rdata = s.rdata := rfl
@[simp] theorem takeInternal_draws : (takeInternal s).draws = s.draws := rfl
@[simp] theorem takeInternal_work_freq : (takeInternal s).work.freq = s.work.freq := rfl
@[simp] theorem takeInternal_work_root : (takeInternal s).work.root = s.work.root := rfl
@[simp] theorem takeInternal_work_code : (takeInternal s).work.code = s.work.code := rfl
@[simp] theorem takeInternal_work_wset : (takeInternal s).work.wset = s.work.wset := rfl
@[simp] theorem takeInternal_reader_rdlimit : (takeInternal s).reader.rdlimit = s.reader.rdlimit := rfl
@[simp] theorem takeInternal_reader_rdpos : (takeInternal s).reader.rdpos = s.reader.rdpos + 1 := rfl
@[simp] theorem takeInternal_work_nnodes : (takeInternal s).work.nnodes = s.work.nnodes + 1 := rfl
@[simp] theorem takeInternal_work_stack : (takeInternal s).work.stack = ⟨s.work.nnodes, .left⟩ :: s.work.stack := rfl
@[simp] theorem takeInternal_work_nodes : (takeInternal s).work.nodes = setNode s.work.nnodes
    { nodeAt s.work.nodes s.work.nnodes with kind := .internal, freq := 0#32 } s.work.nodes := rfl

/-! `takeLeaf` -/

@[simp] theorem takeLeaf_cmd (sym : Byte) : (takeLeaf sym s).cmd = s.cmd := by
  unfold takeLeaf; dsimp only; split <;> rfl
@[simp] theorem takeLeaf_win (sym : Byte) : (takeLeaf sym s).win = s.win := by
  unfold takeLeaf; dsimp only; split <;> rfl
@[simp] theorem takeLeaf_irqEn (sym : Byte) : (takeLeaf sym s).irqEn = s.irqEn := by
  unfold takeLeaf; dsimp only; split <;> rfl
@[simp] theorem takeLeaf_latched (sym : Byte) : (takeLeaf sym s).latched = s.latched := by
  unfold takeLeaf; dsimp only; split <;> rfl
@[simp] theorem takeLeaf_writer (sym : Byte) : (takeLeaf sym s).writer = s.writer := by
  unfold takeLeaf; dsimp only; split <;> rfl
@[simp] theorem takeLeaf_loop (sym : Byte) : (takeLeaf sym s).loop = s.loop := by
  unfold takeLeaf; dsimp only; split <;> rfl
@[simp] theorem takeLeaf_platform (sym : Byte) : (takeLeaf sym s).platform = s.platform := by
  unfold takeLeaf; dsimp only; split <;> rfl
@[simp] theorem takeLeaf_mem (sym : Byte) : (takeLeaf sym s).mem = s.mem := by
  unfold takeLeaf; dsimp only; split <;> rfl
@[simp] theorem takeLeaf_host (sym : Byte) : (takeLeaf sym s).host = s.host := by
  unfold takeLeaf; dsimp only; split <;> rfl
@[simp] theorem takeLeaf_rdata (sym : Byte) : (takeLeaf sym s).rdata = s.rdata := by
  unfold takeLeaf; dsimp only; split <;> rfl
@[simp] theorem takeLeaf_draws (sym : Byte) : (takeLeaf sym s).draws = s.draws := by
  unfold takeLeaf; dsimp only; split <;> rfl
@[simp] theorem takeLeaf_status_busy (sym : Byte) : (takeLeaf sym s).status.busy = s.status.busy := by
  unfold takeLeaf; dsimp only; split <;> rfl
@[simp] theorem takeLeaf_status_done (sym : Byte) : (takeLeaf sym s).status.done = s.status.done := by
  unfold takeLeaf; dsimp only; split <;> rfl
@[simp] theorem takeLeaf_status_errcode (sym : Byte) : (takeLeaf sym s).status.errcode = s.status.errcode := by
  unfold takeLeaf; dsimp only; split <;> rfl
@[simp] theorem takeLeaf_work_freq (sym : Byte) : (takeLeaf sym s).work.freq = s.work.freq := by
  unfold takeLeaf; dsimp only; split <;> rfl
@[simp] theorem takeLeaf_work_code (sym : Byte) : (takeLeaf sym s).work.code = s.work.code := by
  unfold takeLeaf; dsimp only; split <;> rfl
@[simp] theorem takeLeaf_work_wset (sym : Byte) : (takeLeaf sym s).work.wset = s.work.wset := by
  unfold takeLeaf; dsimp only; split <;> rfl
@[simp] theorem takeLeaf_results_outLen (sym : Byte) : (takeLeaf sym s).results.outLen = s.results.outLen := by
  unfold takeLeaf; dsimp only; split <;> rfl
@[simp] theorem takeLeaf_results_symCount (sym : Byte) : (takeLeaf sym s).results.symCount = s.results.symCount := by
  unfold takeLeaf; dsimp only; split <;> rfl
@[simp] theorem takeLeaf_reader_rdlimit (sym : Byte) : (takeLeaf sym s).reader.rdlimit = s.reader.rdlimit := by
  unfold takeLeaf; dsimp only; split <;> rfl
@[simp] theorem takeLeaf_reader_rdpos (sym : Byte) : (takeLeaf sym s).reader.rdpos = s.reader.rdpos + 9 := by
  unfold takeLeaf; dsimp only; split <;> rfl
@[simp] theorem takeLeaf_work_nnodes (sym : Byte) : (takeLeaf sym s).work.nnodes = s.work.nnodes + 1 := by
  unfold takeLeaf; dsimp only; split <;> rfl
@[simp] theorem takeLeaf_work_stack (sym : Byte) :
    (takeLeaf sym s).work.stack = (attach s.work.nnodes s.work.stack (setLeaf s.work.nnodes sym 0#32 s.work.nodes)).1 := by
  unfold takeLeaf; dsimp only; split <;> rfl
@[simp] theorem takeLeaf_work_nodes (sym : Byte) :
    (takeLeaf sym s).work.nodes = (attach s.work.nnodes s.work.stack (setLeaf s.work.nnodes sym 0#32 s.work.nodes)).2.1 := by
  unfold takeLeaf; dsimp only; split <;> rfl
@[simp] theorem takeLeaf_status_phase (sym : Byte) :
    (takeLeaf sym s).status.phase = if (attach s.work.nnodes s.work.stack (setLeaf s.work.nnodes sym 0#32 s.work.nodes)).2.2 = none then s.status.phase else .rdCount := by
  unfold takeLeaf; dsimp only; split <;> simp [*, deserDone]
@[simp] theorem takeLeaf_results_leafCount (sym : Byte) :
    (takeLeaf sym s).results.leafCount = if (attach s.work.nnodes s.work.stack (setLeaf s.work.nnodes sym 0#32 s.work.nodes)).2.2 = none then s.results.leafCount
      else BitVec.ofNat 32 (countLeaves (attach s.work.nnodes s.work.stack (setLeaf s.work.nnodes sym 0#32 s.work.nodes)).2.1 (s.work.nnodes + 1)) := by
  unfold takeLeaf; dsimp only; split <;> simp [*, deserDone]
@[simp] theorem takeLeaf_results_treeBits (sym : Byte) :
    (takeLeaf sym s).results.treeBits = if (attach s.work.nnodes s.work.stack (setLeaf s.work.nnodes sym 0#32 s.work.nodes)).2.2 = none then s.results.treeBits
      else BitVec.ofNat 32 (s.reader.rdpos + 9) := by
  unfold takeLeaf; dsimp only; split <;> simp [*, deserDone]
@[simp] theorem takeLeaf_work_root (sym : Byte) :
    (takeLeaf sym s).work.root = (attach s.work.nnodes s.work.stack (setLeaf s.work.nnodes sym 0#32 s.work.nodes)).2.2.getD s.work.root := by
  unfold takeLeaf; dsimp only; split <;> simp [*, deserDone]

end Sys2Proof.Machine
end

