-- ==== Sys2Proof/Laws/EngineMove.lean ====
section
/-! SUPPORT. Everything a move of the engine can do, in one relation: the whole-machine statements are case analyses of
it. -/

namespace Sys2Proof.Machine

open Sys2Proof.Safety

/-- The move of a running command from `u` to its argument, phase by phase (R172, R191). -/
inductive EngineMove (u : State) : State → Prop
  | checkBad (h : Running .check u) : EngineMove u (endCommand .invalidArgument u)
  | checkCompress (h : Running .check u) (hl : windowsLegal u.latched = true) (hc : u.cmd = 0x00000001#32) :
      EngineMove u (u.toPhase .freq)
  | checkDecompress (h : Running .check u) (hl : windowsLegal u.latched = true) (hc : u.cmd = 0x00000002#32) :
      EngineMove u (State.toPhase .deserTree (fromBytes u))
  | freqError (h : Running .freq u) : EngineMove u (endCommand .busError u)
  | freqByte (h : Running .freq u) (hi : u.loop.idx < u.latched.srcLen.toNat) :
      EngineMove u { u with
        work := { u.work with freq := countSymbol (readByte (srcByteAddr u u.loop.idx).toNat u.mem) u.work.freq }
        loop := { u.loop with idx := u.loop.idx + 1 } }
  | freqDone (h : Running .freq u) (hi : u.latched.srcLen.toNat ≤ u.loop.idx) : EngineMove u (freqDone u)
  | buildLeaves (h : Running .build u) (h0 : u.work.nnodes = 0) : EngineMove u (buildLeaves u)
  | buildEmpty (h : Running .build u) (h0 : u.work.nnodes ≠ 0) (hw : u.work.wset = []) :
      EngineMove u (buildDone u.work.root u)
  | buildLast (h : Running .build u) (h0 : u.work.nnodes ≠ 0) (a : Nat) (hw : u.work.wset = [a]) :
      EngineMove u (buildDone a u)
  | buildMerge (h : Running .build u) (h0 : u.work.nnodes ≠ 0) (a b : Nat) (ha : a ∈ u.work.wset)
      (hb : b ∈ u.work.wset.erase a) (ea : extractMin u.work.nodes u.work.wset = some (a, u.work.wset.erase a))
      (eb : extractMin u.work.nodes (u.work.wset.erase a) = some (b, (u.work.wset.erase a).erase b)) :
      EngineMove u (mergeNodes a b ((u.work.wset.erase a).erase b) u)
  | codesVisit (h : Running .codes u) (top : Frame) (rest : List Frame) (hs : u.work.stack = top :: rest) :
      EngineMove u (visitCode top rest u)
  | codesDone (h : Running .codes u) (hs : u.work.stack = []) : EngineMove u (u.toPhase .size)
  | sizeOverflow (h : Running .size u) (tb need : Nat) (hn : u.latched.dstCap.toNat < need) :
      EngineMove u (endCommand .outputOverflow { u with results := { u.results with
        treeBits := BitVec.ofNat 32 tb, outLen := BitVec.ofNat 32 (min need 0xFFFFFFFF) } })
  | sizeOk (h : Running .size u) (tb need : Nat) (hn : need ≤ u.latched.dstCap.toNat) :
      EngineMove u (State.toPhase .serTree { u with
        results := { u.results with treeBits := BitVec.ofNat 32 tb }
        work := { u.work with stack := if u.latched.srcLen = 0#32 then [] else walkFrom u.work.root } })
  | serToken (h : Running .serTree u) (ht : serToken u ≠ none) (m : List Host.Cell) (w : Writer) (d : Nat)
      (hf : WriterFrame u { u with mem := m, writer := w, draws := d })
      (hw : u.writer.wbits < w.wbits) (hk : FillKept u { u with mem := m, writer := w, draws := d }) :
      EngineMove u (serNext { u with mem := m, writer := w, draws := d })
  | serError (h : Running .serTree u) (m : List Host.Cell) (w : Writer) (d : Nat)
      (hf : WriterFrame u { u with mem := m, writer := w, draws := d }) :
      EngineMove u (endCommand .busError { u with mem := m, writer := w, draws := d })
  | serDone (h : Running .serTree u) (ht : serToken u = none) : EngineMove u (u.toPhase .wrCount)
  | countWritten (h : Running .wrCount u) (m : List Host.Cell) (w : Writer) (d : Nat)
      (hf : WriterFrame u { u with mem := m, writer := w, draws := d })
      (hk : FillKept u { u with mem := m, writer := w, draws := d }) :
      EngineMove u (afterCount { u with mem := m, writer := w, draws := d })
  | countError (h : Running .wrCount u) (m : List Host.Cell) (w : Writer) (d : Nat)
      (hf : WriterFrame u { u with mem := m, writer := w, draws := d }) :
      EngineMove u (endCommand .busError { u with mem := m, writer := w, draws := d })
  | encodeBit (h : Running .encode u) (b : Bool) (bs : Bits) (hc : u.loop.codeRest = b :: bs)
      (m : List Host.Cell) (w : Writer) (d : Nat) (hf : WriterFrame u { u with mem := m, writer := w, draws := d })
      (hk : FillKept u { u with mem := m, writer := w, draws := d }) :
      EngineMove u { u with mem := m, writer := w, draws := d, loop := { u.loop with codeRest := bs } }
  | encodeBitError (h : Running .encode u) (m : List Host.Cell) (w : Writer) (d : Nat)
      (hf : WriterFrame u { u with mem := m, writer := w, draws := d }) :
      EngineMove u (endCommand .busError { u with mem := m, writer := w, draws := d })
  | encodeReadError (h : Running .encode u) : EngineMove u (endCommand .busError u)
  | encodeByte (h : Running .encode u) (hc : u.loop.codeRest = []) (hi : u.loop.idx < u.latched.srcLen.toNat) :
      EngineMove u (loadCode (readByte (srcByteAddr u u.loop.idx).toNat u.mem)
        { u with loop := { u.loop with idx := u.loop.idx + 1 } })
  | encodeDone (h : Running .encode u) (hc : u.loop.codeRest = []) (hi : u.latched.srcLen.toNat ≤ u.loop.idx) :
      EngineMove u (u.toPhase .final)
  | finalDone (h : Running .final u) (m : List Host.Cell) (w : Writer) (d : Nat)
      (hf : WriterFrame u { u with mem := m, writer := w, draws := d }) :
      EngineMove u (endCommand .noError
        { u with
          mem := m, writer := w, draws := d
          results := { u.results with outLen := BitVec.ofNat 32 w.outpos } })
  | finalError (h : Running .final u) (m : List Host.Cell) (w : Writer) (d : Nat)
      (hf : WriterFrame u { u with mem := m, writer := w, draws := d }) :
      EngineMove u (endCommand .busError { u with mem := m, writer := w, draws := d })
  | deserError (h : Running .deserTree u) (e : ErrCode) (he : ReadError e ∨ e = .treeOverflow) (j a : Nat)
      (hj : StopIn j a u) : EngineMove u (endCommand e (stopAt j a u))
  | deserInternal (h : Running .deserTree u) (hr : u.reader.rdpos + 1 ≤ u.reader.rdlimit)
      (hn : u.work.nnodes < Config.nodePool) : EngineMove u (takeInternal u)
  | deserLeaf (h : Running .deserTree u) (hr : u.reader.rdpos + 9 ≤ u.reader.rdlimit)
      (hn : u.work.nnodes < Config.nodePool) (sym : Byte) : EngineMove u (takeLeaf sym u)
  | countReadError (h : Running .rdCount u) (e : ErrCode) (he : ReadError e) (j : Nat) (hj : StopIn j 0 u) :
      EngineMove u (endCommand e (stopAt j 0 u))
  | countTooLarge (h : Running .rdCount u) (hr : u.reader.rdpos + 32 ≤ u.reader.rdlimit) (n : Word)
      (hn : u.latched.dstCap.toNat < n.toNat) :
      EngineMove u (endCommand .outputOverflow
        { takeCount n u with results := { u.results with symCount := n, outLen := n } })
  | countRead (h : Running .rdCount u) (hr : u.reader.rdpos + 32 ≤ u.reader.rdlimit) (n : Word)
      (hn : n.toNat ≤ u.latched.dstCap.toNat) : EngineMove u (startDecode (takeCount n u))
  | decodeDone (h : Running .decode u) (hn : u.results.symCount.toNat ≤ u.writer.outpos) :
      EngineMove u (endCommand .noError { u with results := { u.results with outLen := u.results.symCount } })
  | decodeSymbol (h : Running .decode u) (hn : u.writer.outpos < u.results.symCount.toNat) (v : Byte) :
      EngineMove u { u with
        mem := writeByte (dstByteAddr u u.writer.outpos).toNat v u.mem
        writer := { u.writer with outpos := u.writer.outpos + 1 }
        loop := { u.loop with cursor := u.work.root } }
  | decodeWriteError (h : Running .decode u) (hn : u.writer.outpos < u.results.symCount.toNat) (v : Byte) (d : Nat) :
      EngineMove u (endCommand .busError
        { u with mem := writeByte (dstByteAddr u u.writer.outpos).toNat v u.mem, draws := d })
  | decodeReadError (h : Running .decode u) (e : ErrCode) (he : ReadError e) (j : Nat) (hj : StopIn j 0 u) :
      EngineMove u (endCommand e (stopAt j 0 u))
  | decodeBit (h : Running .decode u) (hn : u.writer.outpos < u.results.symCount.toNat)
      (hr : u.reader.rdpos + 1 ≤ u.reader.rdlimit) (n : Nat)
      (hc : n = (nodeAt u.work.nodes u.loop.cursor).left ∨ n = (nodeAt u.work.nodes u.loop.cursor).right) :
      EngineMove u (walkStep n u)

/-- A running command's step answers a next state, by one of these moves. -/
theorem phaseStep_moves {p : Phase} {u : State} (hr : Running p u) (hp : p ≠ .idle) :
    ∃ t, phaseStep p u = .next t ∧ EngineMove u t := by
  cases p <;> simp only [phaseStep]
  · exact absurd rfl hp
  · rcases checkStep_cases u with h | ⟨h1, h2, h⟩ | ⟨h1, h2, h⟩
    · exact ⟨_, h, .checkBad hr⟩
    · exact ⟨_, h, .checkCompress hr h1 h2⟩
    · exact ⟨_, h, .checkDecompress hr h1 h2⟩
  · rcases freqStep_cases u with ⟨_, _, h⟩ | ⟨h1, _, h⟩ | ⟨h1, h⟩
    · exact ⟨_, h, .freqError hr⟩
    · exact ⟨_, h, .freqByte hr h1⟩
    · exact ⟨_, h, .freqDone hr h1⟩
  · rcases buildStep_cases u with ⟨h0, h⟩ | ⟨h0, hw, h⟩ | ⟨h0, a, hw, h⟩ | ⟨h0, a, b, w, ha, rfl, hb, ea, eb, h⟩
    · exact ⟨_, h, .buildLeaves hr h0⟩
    · exact ⟨_, h, .buildEmpty hr h0 hw⟩
    · exact ⟨_, h, .buildLast hr h0 a hw⟩
    · exact ⟨_, h, .buildMerge hr h0 a b ha hb ea eb⟩
  · rcases codesStep_cases u with ⟨h1, h⟩ | ⟨top, rest, h1, h⟩
    · exact ⟨_, h, .codesDone hr h1⟩
    · exact ⟨_, h, .codesVisit hr top rest h1⟩
  · obtain ⟨tb, need, ⟨h1, h⟩ | ⟨h1, h⟩⟩ := sizeStep_cases u
    · exact ⟨_, h, .sizeOverflow hr tb need h1⟩
    · exact ⟨_, h, .sizeOk hr tb need h1⟩
  · rcases serTreeStep_cases hr with ⟨h1, h⟩ | ⟨v, hf, h1, ⟨hw, hk, h⟩ | h⟩
    · exact ⟨_, h, .serDone hr h1⟩
    · obtain ⟨m, w, d, rfl⟩ := hf.form
      exact ⟨_, h, .serToken hr h1 m w d hf hw hk⟩
    · obtain ⟨m, w, d, rfl⟩ := hf.form
      exact ⟨_, h, .serError hr m w d hf⟩
  · obtain ⟨v, hf, h⟩ := wrCountStep_cases hr
    obtain ⟨m, w, d, rfl⟩ := hf.form
    rcases h with ⟨hk, h⟩ | h
    · exact ⟨_, h, .countWritten hr m w d hf hk⟩
    · exact ⟨_, h, .countError hr m w d hf⟩
  · rcases encodeStep_cases hr with ⟨b, bs, v, hc, hf, ⟨hk, h⟩ | h⟩ | ⟨_, _, _, h⟩ | ⟨hc, hi, _, h⟩ | ⟨hc, hi, h⟩
    · obtain ⟨m, w, d, rfl⟩ := hf.form
      exact ⟨_, h, .encodeBit hr b bs hc m w d hf hk⟩
    · obtain ⟨m, w, d, rfl⟩ := hf.form
      exact ⟨_, h, .encodeBitError hr m w d hf⟩
    · exact ⟨_, h, .encodeReadError hr⟩
    · exact ⟨_, h, .encodeByte hr hc hi⟩
    · exact ⟨_, h, .encodeDone hr hc hi⟩
  · obtain ⟨v, hf, h⟩ := finalStep_cases u
    obtain ⟨m, w, d, rfl⟩ := hf.form
    rcases h with h | h
    · exact ⟨_, h, .finalDone hr m w d hf⟩
    · exact ⟨_, h, .finalError hr m w d hf⟩
  · rcases deserTreeStep_cases hr with ⟨e, j, a, he, hj, h⟩ | ⟨hp, hn, h⟩ | ⟨bs, hp, _, hn, h⟩
    · exact ⟨_, h, .deserError hr e he j a hj⟩
    · exact ⟨_, h, .deserInternal hr ((peekBits_ok hp).2 (by omega)) hn⟩
    · exact ⟨_, h, .deserLeaf hr ((peekBits_ok hp).2 (by omega)) hn _⟩
  · rcases rdCountStep_cases hr with ⟨e, j, he, hj, h⟩ | ⟨bs, hp, ⟨hn, h⟩ | ⟨hn, h⟩⟩
    · exact ⟨_, h, .countReadError hr e he j hj⟩
    · exact ⟨_, h, .countTooLarge hr ((peekBits_ok hp).2 (by omega)) _ hn⟩
    · exact ⟨_, h, .countRead hr ((peekBits_ok hp).2 (by omega)) _ hn⟩
  · rcases decodeStep_cases hr with ⟨hn, h⟩ | ⟨hn, _, v, d, ⟨_, _, _, h⟩ | ⟨_, h⟩⟩ | ⟨hn, _, ⟨e, j, he, hj, h⟩ | ⟨b, hp, h⟩⟩
    · exact ⟨_, h, .decodeDone hr hn⟩
    · exact ⟨_, h, .decodeSymbol hr hn v⟩
    · exact ⟨_, h, .decodeWriteError hr hn v d⟩
    · exact ⟨_, h, .decodeReadError hr e he j hj⟩
    · exact ⟨_, h, .decodeBit hr hn ((peekBits_ok hp).2 (by omega)) _ (by cases b <;> simp)⟩

/-- What an engine move from a running command is. -/
theorem engineMove_of_step {s u t : State} (hu : EngineTurn s u) (hb : u.status.busy = true) (hs : step s = .next t) :
    EngineMove u t := by
  have hr : Running u.status.phase u := ⟨hb, rfl⟩
  rw [step_phase hu hr] at hs
  by_cases hp : u.status.phase = .idle
  · rw [hp] at hs
    exact nomatch hs
  · obtain ⟨t', h, hm⟩ := phaseStep_moves hr hp
    rw [h] at hs
    cases hs
    exact hm

/-- Every move of the engine keeps memory's canonical form. -/
theorem memWf_engineMove {u t : State} (h : EngineMove u t) (hw : Memory.wf u.mem) : Memory.wf t.mem := by
  cases h
  case decodeSymbol => exact memWf_writeByte _ hw (dstByteAddr u _).isLt
  case decodeWriteError => exact memWf_writeByte _ hw (dstByteAddr u _).isLt
  all_goals first
    | exact hw
    | (simp only [buildLeaves_mem, loadCode_mem, takeLeaf_mem]; exact hw)
    | (rename WriterFrame _ _ => hf; simpa using hf.memWf hw)

/-- A move that leaves the command running keeps the unfilled bits of ACC 0 (R100). -/
theorem accClean_engineMove {u t : State} (h : EngineMove u t) (ha : AccClean u.writer) (hb : t.status.busy = true) :
    AccClean t.writer := by
  cases h
  case serToken hk => exact hk.2 ha
  case countWritten hk => simpa using hk.2 ha
  case encodeBit hk => exact hk.2 ha
  all_goals first
    | exact ha
    | (simp only [buildLeaves_writer, loadCode_writer, takeLeaf_writer]; exact ha)
    | simp at hb

/-- A step is a move of the engine or of the host. -/
theorem turn_cases (s : State) :
    (∃ u, EngineTurn s u) ∨ ∃ m rest, s.host = m :: rest ∧ m ≠ .pass := by
  cases h : s.host with
  | nil => exact .inl ⟨s, .inl ⟨h, rfl⟩⟩
  | cons m rest =>
    by_cases hm : m = .pass
    · exact .inl ⟨_, .inr ⟨rest, by rw [h, hm], rfl⟩⟩
    · exact .inr ⟨m, rest, rfl, hm⟩

end Sys2Proof.Machine
end

