-- ==== Sys2Proof/Laws/Tables.lean ====
section
/-! SUPPORT. The tables of 10_state.md section 3 under the operations of FREQ, BUILD, the walks and DESER_TREE: the
frequency table's sum, the sorted entries, the leaves, the working set, the leaves counted, the children awaited, the
node indices and the depth of the walk stack. -/

namespace Sys2Proof.Machine

open Sys2Proof.Safety

variable {α : Type}

/-! ### Sums over a store -/

theorem sum_storeInsert (g : Nat × α → Nat) (k : Nat) (v : α) (l : List (Nat × α)) :
    ((storeInsert k v l).map g).sum = (l.map g).sum + g (k, v) := by
  induction l with
  | nil => simp [storeInsert]
  | cons e rest ih =>
    unfold storeInsert
    split
    · simp; omega
    · simp [ih]; omega

/-- In a store with distinct indices, removing an index takes its entry's share off a sum. -/
theorem sum_storeRemove (g : Nat × α → Nat) (d : α) (k : Nat) (hd : g (k, d) = 0) {l : List (Nat × α)}
    (hs : (l.map Prod.fst).Pairwise (· < ·)) :
    (l.map g).sum = ((storeRemove k l).map g).sum + g (k, storeGet d k l) := by
  induction l with
  | nil => simp [storeRemove, storeGet, hd]
  | cons e rest ih =>
    simp only [List.map_cons, List.pairwise_cons] at hs
    have ih := ih hs.2
    by_cases hk : e.1 = k
    · have hnone : storeRemove k rest = rest := by
        refine List.filter_eq_self.2 fun x hx => ?_
        have := hs.1 x.1 (List.mem_map.2 ⟨x, hx, rfl⟩)
        simp; omega
      subst hk
      simp only [storeRemove, List.filter_cons, bne_self_eq_false, Bool.false_eq_true, if_false, storeGet, if_true,
        List.map_cons, List.sum_cons]
      rw [show List.filter (fun x => x.1 != e.1) rest = rest from hnone]
      exact Nat.add_comm _ _
    · have h1 : storeRemove k (e :: rest) = e :: storeRemove k rest := by
        simp [storeRemove, hk]
      have h2 : storeGet d k (e :: rest) = storeGet d k rest := by
        simp [storeGet, Ne.symm hk]
      rw [h1, h2, List.map_cons, List.sum_cons, List.map_cons, List.sum_cons, ih]
      omega

/-- A write changes a sum by the entry's share. -/
theorem sum_storeSet [DecidableEq α] (g : Nat × α → Nat) (d : α) (k : Nat) (v : α) (hd : g (k, d) = 0)
    {l : List (Nat × α)} (hs : (l.map Prod.fst).Pairwise (· < ·)) :
    ((storeSet d k v l).map g).sum + g (k, storeGet d k l) = (l.map g).sum + g (k, v) := by
  have h := sum_storeRemove g d k hd hs
  unfold storeSet
  split
  · next hv => subst hv; omega
  · rw [sum_storeInsert]; omega

/-! ### FREQ (R120, R124) -/

theorem freqTotal_ge {freq : List (Nat × Word)} (sym : Byte) (hw : storeWf 0#32 256 freq) :
    (freqAt freq sym).toNat ≤ freqTotal freq := by
  have := sum_storeRemove (fun e : Nat × Word => e.2.toNat) 0#32 sym.toNat rfl hw.1
  simp only at this
  unfold freqTotal freqAt
  omega

/-- Counting a byte adds one to the sum of the counters, when its counter does not wrap. -/
theorem freqTotal_countSymbol {freq : List (Nat × Word)} (sym : Byte) (hw : storeWf 0#32 256 freq)
    (hlt : (freqAt freq sym).toNat + 1 < 2 ^ 32) : freqTotal (countSymbol sym freq) = freqTotal freq + 1 := by
  have := sum_storeSet (fun e : Nat × Word => e.2.toNat) 0#32 sym.toNat (freqAt freq sym + 1#32) rfl hw.1
  have h1 : (freqAt freq sym + 1#32).toNat = (freqAt freq sym).toNat + 1 := by
    rw [BitVec.toNat_add]
    exact Nat.mod_eq_of_lt hlt
  unfold freqTotal countSymbol
  simp only [h1] at this
  change _ + (freqAt freq sym).toNat = _ at this
  omega

theorem storeWf_countSymbol {freq : List (Nat × Word)} (sym : Byte) (hw : storeWf 0#32 256 freq) :
    storeWf 0#32 256 (countSymbol sym freq) :=
  storeWf_storeSet _ _ _ _ hw sym.isLt

theorem freqAt_countSymbol (freq : List (Nat × Word)) (sym c : Byte) :
    freqAt (countSymbol sym freq) c = if c = sym then freqAt freq sym + 1#32 else freqAt freq c := by
  unfold freqAt countSymbol
  rw [storeGet_storeSet]
  simp [BitVec.toNat_eq, freqAt]

/-- A store with distinct indices below n has at most n entries. -/
theorem storeWf_length {d : α} {n : Nat} {l : List (Nat × α)} (hw : storeWf d n l) : l.length ≤ n := by
  have h1 : (l.map Prod.fst).Nodup := hw.1.imp fun h => Nat.ne_of_lt h
  have h2 : (l.map Prod.fst) ⊆ List.range n := by
    intro x hx
    obtain ⟨e, he, rfl⟩ := List.mem_map.1 hx
    exact List.mem_range.2 (hw.2 e he).2
  have := (List.subperm_of_subset h1 h2).length_le
  simpa using this

/-! ### BUILD's leaves (R121, R122) -/

theorem insertEntry_perm (e : Nat × Word) (l : List (Nat × Word)) : (insertEntry e l).Perm (e :: l) := by
  induction l with
  | nil => exact .refl _
  | cons x rest ih =>
    unfold insertEntry
    split
    · exact .refl _
    · exact (List.Perm.cons x ih).trans (.swap e x rest)

/-- Sorting keeps the entries (R121). -/
theorem sortEntries_perm (freq : List (Nat × Word)) : (sortEntries freq).Perm freq := by
  induction freq with
  | nil => exact .refl _
  | cons e rest ih => exact (insertEntry_perm e _).trans (ih.cons e)

theorem sortEntries_length (freq : List (Nat × Word)) : (sortEntries freq).length = freq.length :=
  (sortEntries_perm freq).length_eq

/-- Slots outside the leaves keep what they held. -/
theorem nodeAt_allocLeaves_ne (es : List (Nat × Word)) (j : Nat) (nodes : List (Nat × Node)) (i : Nat)
    (h : i < j ∨ j + es.length ≤ i) : nodeAt (allocLeaves j es nodes) i = nodeAt nodes i := by
  induction es generalizing j nodes with
  | nil => rfl
  | cons e rest ih =>
    rw [List.length_cons] at h
    rw [allocLeaves, ih _ _ (by omega), nodeAt_setLeaf, if_neg (by omega)]

/-- The slot of a leaf (R122). -/
theorem nodeAt_allocLeaves (es : List (Nat × Word)) (j : Nat) (nodes : List (Nat × Node)) (k : Nat)
    (h : k < es.length) :
    nodeAt (allocLeaves j es nodes) (j + k)
      = { nodeAt nodes (j + k) with kind := .leaf, sym := BitVec.ofNat 8 es[k].1, freq := es[k].2 } := by
  induction es generalizing j nodes k with
  | nil => exact absurd h (by simp)
  | cons e rest ih =>
    rw [allocLeaves]
    cases k with
    | zero =>
      rw [nodeAt_allocLeaves_ne _ _ _ _ (by omega), nodeAt_setLeaf]
      simp
    | succ k =>
      have := ih (j + 1) (setLeaf j (BitVec.ofNat 8 e.1) e.2 nodes) k (by simpa using h)
      rw [show j + 1 + k = j + (k + 1) by omega] at this
      rw [this, nodeAt_setLeaf, if_neg (by omega)]
      simp

theorem sum_getElem (f : Nat × Word → Nat) (es : List (Nat × Word)) (g : Nat → Nat)
    (h : ∀ i, (hi : i < es.length) → g i = f es[i]) : ((List.range es.length).map g).sum = (es.map f).sum := by
  congr 1
  refine List.ext_getElem (by simp) fun i h1 h2 => ?_
  simp only [List.getElem_map, List.getElem_range]
  exact h i (by simpa using h2)

/-- The frequencies of the leaves add up to those of the table (R124, R129). -/
theorem nodeTotal_allocLeaves (freq : List (Nat × Word)) (nodes : List (Nat × Node)) :
    nodeTotal (allocLeaves 0 (sortEntries freq) nodes) (List.range (sortEntries freq).length) = freqTotal freq := by
  have h := sum_getElem (fun e => e.2.toNat) (sortEntries freq)
    (fun n => (nodeAt (allocLeaves 0 (sortEntries freq) nodes) n).freq.toNat) fun i hi => by
      have := nodeAt_allocLeaves (sortEntries freq) 0 nodes i hi
      rw [Nat.zero_add] at this
      rw [this]
  unfold nodeTotal freqTotal
  rw [h]
  exact ((sortEntries_perm freq).map _).sum_eq

/-! ### The working set (R125, R127) -/

theorem nodeTotal_erase {nodes : List (Nat × Node)} {w : List Nat} {a : Nat} (h : a ∈ w) :
    nodeTotal nodes w = (nodeAt nodes a).freq.toNat + nodeTotal nodes (w.erase a) := by
  have := ((List.perm_cons_erase h).map fun n => (nodeAt nodes n).freq.toNat).sum_eq
  simpa [nodeTotal] using this

/-- A merge keeps the sum of the working set, when the merged frequency does not wrap. -/
theorem nodeTotal_setNode {nodes : List (Nat × Node)} {w : List Nat} {n : Nat} (v : Node) (h : ∀ x ∈ w, x ≠ n) :
    nodeTotal (setNode n v nodes) w = nodeTotal nodes w := by
  unfold nodeTotal
  congr 1
  exact List.map_congr_left fun x hx => by rw [nodeAt_setNode_ne _ _ (h x hx)]

/-! ### DESER_TREE's counts (R155, R157) -/

theorem countLeaves_congr {nodes nodes' : List (Nat × Node)} {n : Nat}
    (h : ∀ i, i < n → (nodeAt nodes' i).kind = (nodeAt nodes i).kind) : countLeaves nodes' n = countLeaves nodes n := by
  induction n with
  | zero => rfl
  | succ n ih => rw [countLeaves, countLeaves, ih fun i hi => h i (by omega), h n (by omega)]

theorem countLeaves_le (nodes : List (Nat × Node)) (n : Nat) : countLeaves nodes n ≤ n := by
  induction n with
  | zero => exact Nat.le_refl _
  | succ n ih => unfold countLeaves; split <;> omega

/-- Attaching a child changes no node's kind, symbol or frequency. -/
theorem attach_kind (n : Nat) (stack : List Frame) (nodes : List (Nat × Node)) (i : Nat) :
    (nodeAt (attach n stack nodes).2.1 i).kind = (nodeAt nodes i).kind
      ∧ (nodeAt (attach n stack nodes).2.1 i).sym = (nodeAt nodes i).sym
      ∧ (nodeAt (attach n stack nodes).2.1 i).freq = (nodeAt nodes i).freq := by
  induction stack generalizing n nodes with
  | nil => simp [attach]
  | cons f rest ih =>
    obtain ⟨p, m⟩ := f
    cases m
    · simp only [attach, nodeAt_setNode]
      split <;> simp_all
    · simp only [attach]
      obtain ⟨h1, h2, h3⟩ := ih p (setNode p { nodeAt nodes p with right := n } nodes)
      rw [h1, h2, h3]
      simp only [nodeAt_setNode]
      split <;> simp_all

/-- Nodes that no stack entry names keep all they hold. -/
theorem attach_frame (n : Nat) (stack : List Frame) (nodes : List (Nat × Node)) (i : Nat)
    (h : ∀ f ∈ stack, i ≠ f.node) : nodeAt (attach n stack nodes).2.1 i = nodeAt nodes i := by
  induction stack generalizing n nodes with
  | nil => rfl
  | cons f rest ih =>
    obtain ⟨p, m⟩ := f
    have hp : i ≠ p := h ⟨p, m⟩ (by simp)
    cases m
    · simp [attach, nodeAt_setNode, hp]
    · simp only [attach]
      rw [ih p _ fun f hf => h f (by simp [hf]), nodeAt_setNode_ne _ _ hp]

/-- A finished subtree takes one awaited child off the count; with the last one, the root is complete. -/
theorem attach_awaited (n : Nat) (stack : List Frame) (nodes : List (Nat × Node)) :
    ((attach n stack nodes).2.2 = none ↔ (attach n stack nodes).1 ≠ [])
      ∧ (stack = [] ∧ (attach n stack nodes).1 = []
        ∨ awaited stack = awaited (attach n stack nodes).1 + 1) := by
  have key : ∀ (stack : List Frame) n nodes,
      ((attach n stack nodes).2.2 = none ↔ (attach n stack nodes).1 ≠ [])
        ∧ awaitedBelow stack = awaited (attach n stack nodes).1 := by
    intro stack
    induction stack with
    | nil => intro n nodes; simp [attach, awaited, awaitedBelow]
    | cons f rest ih =>
      intro n nodes
      obtain ⟨p, m⟩ := f
      cases m
      · simp [attach, awaited, awaitedBelow]
      · simp only [attach, awaitedBelow]
        refine ⟨(ih _ _).1, ?_⟩
        simpa using (ih _ _).2
  refine ⟨(key stack n nodes).1, ?_⟩
  cases stack with
  | nil => exact .inl ⟨rfl, rfl⟩
  | cons f rest =>
    obtain ⟨p, m⟩ := f
    right
    cases m
    · simp [attach, awaited]
      omega
    · have := (key rest p (setNode p { nodeAt nodes p with right := n } nodes)).2
      simp only [attach]
      rw [← this]
      simp [awaited]
      omega

/-- The nodes on top of the stack that await their right child are finished in turn, each by the subtree finished
before it; then the last finished subtree is attached under them (R155, R156). -/
theorem attach_closed (closed rest : List Frame) (hc : ∀ f ∈ closed, f.mark = .right)
    (hd : (closed.map Frame.node).Nodup) (n : Nat) (nodes : List (Nat × Node)) :
    ∃ nodes', attach n (closed ++ rest) nodes = attach ((closed.map Frame.node).getLast?.getD n) rest nodes'
      ∧ (∀ i p c : Nat, (closed.map Frame.node)[i]? = some p → (n :: closed.map Frame.node)[i]? = some c →
          nodeAt nodes' p = { nodeAt nodes p with right := c })
      ∧ ∀ i, (∀ f ∈ closed, i ≠ f.node) → nodeAt nodes' i = nodeAt nodes i := by
  induction closed generalizing n nodes with
  | nil => exact ⟨nodes, rfl, fun i p c h => by simp at h, fun _ _ => rfl⟩
  | cons f closed ih =>
    obtain ⟨q, m⟩ := f
    obtain rfl : m = .right := hc ⟨q, m⟩ (by simp)
    rw [List.map_cons, List.nodup_cons] at hd
    obtain ⟨nodes', h1, h2, h3⟩ := ih (fun f hf => hc f (by simp [hf])) hd.2 q
      (setNode q { nodeAt nodes q with right := n } nodes)
    have hq : ∀ f ∈ closed, q ≠ f.node := fun f hf e => hd.1 (List.mem_map.2 ⟨f, hf, e.symm⟩)
    refine ⟨nodes', ?_, ?_, ?_⟩
    · simp only [List.cons_append, attach, h1, List.map_cons, List.getLast?_cons, Option.getD_some]
    · intro i p c hp hcc
      cases i with
      | zero =>
        simp only [List.map_cons, List.getElem?_cons_zero, Option.some.injEq] at hp hcc
        subst hp hcc
        rw [h3 q hq, nodeAt_setNode_self]
      | succ i =>
        simp only [List.map_cons, List.getElem?_cons_succ] at hp hcc
        rw [h2 i p c hp hcc, nodeAt_setNode_ne]
        rintro rfl
        exact hd.1 (List.mem_of_getElem? hp)
    · intro i hi
      rw [h3 i fun f hf => hi f (by simp [hf]), nodeAt_setNode_ne _ _ (hi ⟨q, .right⟩ (by simp))]

/-- The nodes that still await a child after a subtree is attached are some of those that did before. -/
theorem attach_nodes (n : Nat) (st : List Frame) (nodes : List (Nat × Node)) :
    ((attach n st nodes).1.map Frame.node).Sublist (st.map Frame.node) := by
  induction st generalizing n nodes with
  | nil => exact List.Sublist.refl _
  | cons f rest ih =>
    obtain ⟨p, m⟩ := f
    cases m with
    | left => exact List.Sublist.refl _
    | right => exact (ih _ _).trans (List.sublist_cons_self _ _)

/-- Attaching a child keeps the node pool's canonical form. -/
theorem storeWf_attach (n : Nat) {stack : List Frame} {nodes : List (Nat × Node)} {b : Nat}
    (hs : ∀ f ∈ stack, f.node < b) (hw : storeWf Node.unwritten b nodes) :
    storeWf Node.unwritten b (attach n stack nodes).2.1 := by
  induction stack generalizing n nodes with
  | nil => exact hw
  | cons f rest ih =>
    obtain ⟨p, m⟩ := f
    have hset := fun v => storeWf_storeSet Node.unwritten b p v hw (hs ⟨p, m⟩ (by simp))
    cases m with
    | left => exact hset _
    | right => exact ih p (fun f hf => hs f (by simp [hf])) (hset _)

/-- Attaching a child keeps every node index below a bound: the children, and the root it may find. -/
theorem attach_bounds {n : Nat} {stack : List Frame} {nodes : List (Nat × Node)} {b : Nat} (hn : n < b)
    (hs : ∀ f ∈ stack, f.node < b) (hc : ∀ i, (nodeAt nodes i).left < b ∧ (nodeAt nodes i).right < b) :
    (∀ i, (nodeAt (attach n stack nodes).2.1 i).left < b ∧ (nodeAt (attach n stack nodes).2.1 i).right < b)
      ∧ ∀ root, (attach n stack nodes).2.2 = some root → root < b := by
  induction stack generalizing n nodes with
  | nil => exact ⟨hc, fun root hr => by cases hr; exact hn⟩
  | cons f rest ih =>
    obtain ⟨p, m⟩ := f
    cases m with
    | left =>
      refine ⟨fun i => ?_, fun root hr => nomatch hr⟩
      simp only [attach, nodeAt_setNode]
      split
      · exact ⟨hn, (hc p).2⟩
      · exact hc i
    | right =>
      refine ih (hs ⟨p, .right⟩ (by simp)) (fun f hf => hs f (by simp [hf])) fun i => ?_
      rw [nodeAt_setNode]
      split
      · exact ⟨(hc p).1, hn⟩
      · exact hc i

/-! ### Canonical forms and node indices under allocation (R42, R43) -/

theorem storeWf_setLeaf {n : Nat} {nodes : List (Nat × Node)} {b : Nat} (sym : Byte) (freq : Word)
    (hw : storeWf Node.unwritten b nodes) (hn : n < b) : storeWf Node.unwritten b (setLeaf n sym freq nodes) :=
  storeWf_storeSet _ _ _ _ hw hn

theorem storeWf_allocLeaves {es : List (Nat × Word)} {j : Nat} {nodes : List (Nat × Node)} {b : Nat}
    (hw : storeWf Node.unwritten b nodes) (hb : j + es.length ≤ b) :
    storeWf Node.unwritten b (allocLeaves j es nodes) := by
  induction es generalizing j nodes with
  | nil => exact hw
  | cons e rest ih =>
    rw [List.length_cons] at hb
    exact ih (storeWf_setLeaf _ _ hw (by omega)) (by omega)

/-- Writing a leaf changes no slot's children (log 22). -/
theorem setLeaf_children (n : Nat) (sym : Byte) (freq : Word) (nodes : List (Nat × Node)) (i : Nat) :
    (nodeAt (setLeaf n sym freq nodes) i).left = (nodeAt nodes i).left
      ∧ (nodeAt (setLeaf n sym freq nodes) i).right = (nodeAt nodes i).right := by
  rw [nodeAt_setLeaf]
  split <;> simp_all

theorem allocLeaves_children (es : List (Nat × Word)) (j : Nat) (nodes : List (Nat × Node)) (i : Nat) :
    (nodeAt (allocLeaves j es nodes) i).left = (nodeAt nodes i).left
      ∧ (nodeAt (allocLeaves j es nodes) i).right = (nodeAt nodes i).right := by
  induction es generalizing j nodes with
  | nil => exact ⟨rfl, rfl⟩
  | cons e rest ih =>
    obtain ⟨h1, h2⟩ := setLeaf_children j (BitVec.ofNat 8 e.1) e.2 nodes i
    rw [allocLeaves, (ih _ _).1, (ih _ _).2, h1, h2]
    exact ⟨rfl, rfl⟩

/-! ### The walk stack (R46, R142, R157) -/

/-- Distinct numbers from `lo` up to `hi`. -/
theorem length_le_of_between {l : List Nat} {lo hi : Nat} (hd : l.Nodup) (h : ∀ x ∈ l, lo ≤ x ∧ x < hi) :
    l.length ≤ hi - lo := by
  have hsub : l ⊆ (List.range (hi - lo)).map (lo + ·) := by
    intro x hx
    have := h x hx
    exact List.mem_map.2 ⟨x - lo, List.mem_range.2 (by omega), by omega⟩
  simpa using (List.subperm_of_subset hd hsub).length_le

/-- A stack whose nodes are distinct and below `n` has at most `n` entries. -/
theorem stack_length_le {stack : List Frame} {n : Nat} (hd : (stack.map Frame.node).Nodup)
    (h : ∀ f ∈ stack, f.node < n) : stack.length ≤ n := by
  have := length_le_of_between (lo := 0) (hi := n) hd fun x hx => by
    obtain ⟨f, hf, rfl⟩ := List.mem_map.1 hx
    exact ⟨Nat.zero_le _, h f hf⟩
  simpa using this

/-- Where a subtree is finished the walk goes on still further down from node to node. -/
theorem nextSubtree_descending {nodes : List (Nat × Node)} {n : Nat} (hc : ChildrenBelow nodes n) :
    ∀ rest : List Frame, (∀ g ∈ rest, g.node < n ∧ (nodeAt nodes g.node).kind = .internal) →
      (rest.map Frame.node).Pairwise (· < ·) → ((nextSubtree nodes rest).map Frame.node).Pairwise (· < ·)
  | [], _, hp => hp
  | ⟨p, .left⟩ :: rest, h, hp => by
    have hr := (hc p (h ⟨p, .left⟩ (by simp)).1 (h ⟨p, .left⟩ (by simp)).2).2
    simp only [nextSubtree, List.map_cons, List.pairwise_cons] at hp ⊢
    refine ⟨fun x hx => ?_, hp⟩
    rcases List.mem_cons.1 hx with rfl | hx
    · exact hr
    · exact Nat.lt_trans hr (hp.1 x hx)
  | ⟨_, .right⟩ :: rest, h, hp =>
    nextSubtree_descending hc rest (fun g hg => h g (by simp [hg])) (List.Pairwise.of_cons hp)

/-- A step of a walk keeps the stack going down from node to node. -/
theorem walkOn_descending {nodes : List (Nat × Node)} {n : Nat} (hc : ChildrenBelow nodes n) {stack : List Frame}
    (hs : StackIn nodes n stack) (hp : (stack.map Frame.node).Pairwise (· < ·)) :
    ((walkOn nodes stack).map Frame.node).Pairwise (· < ·) := by
  cases stack with
  | nil => exact hp
  | cons f rest =>
    unfold walkOn
    dsimp only
    split
    · exact nextSubtree_descending hc rest hs.2 (List.Pairwise.of_cons hp)
    · next hk =>
      have hl := (hc _ hs.1 hk).1
      simp only [List.map_cons, List.pairwise_cons] at hp ⊢
      refine ⟨fun x hx => ?_, hp⟩
      rcases List.mem_cons.1 hx with rfl | hx
      · exact hl
      · exact Nat.lt_trans hl (hp.1 x hx)

/-- A walk that goes down in a tree of `n` slots, the first `k` of them leaves, has at most `n - k + 1` entries on its
stack: all but the top are internal. -/
theorem walk_length_le {nodes : List (Nat × Node)} {n k : Nat} {stack : List Frame} (hs : StackIn nodes n stack)
    (hp : (stack.map Frame.node).Pairwise (· < ·)) (hk : ∀ i, i < n → i < k → (nodeAt nodes i).kind = .leaf) :
    stack.length ≤ n - k + 1 := by
  cases stack with
  | nil => exact Nat.zero_le _
  | cons f rest =>
    rw [List.map_cons, List.pairwise_cons] at hp
    have := length_le_of_between (lo := k) (hi := n) (hp.2.imp fun h => Nat.ne_of_lt h) fun x hx => by
      obtain ⟨g, hg, rfl⟩ := List.mem_map.1 hx
      obtain ⟨h1, h2⟩ := hs.2 g hg
      refine ⟨Nat.le_of_not_lt fun hlt => ?_, h1⟩
      rw [hk _ h1 hlt] at h2
      exact nomatch h2
    rw [List.length_cons]
    simpa using this

end Sys2Proof.Machine
end

