-- ==== Sys2Proof/Laws/Trees.lean ====
section
/-! SUPPORT. Full binary trees (R14): their sizes, their symbols, their codes, and the node slots that represent them. -/

namespace Sys2Proof.Machine

open Sys2Proof.Safety

/-! ### Sizes -/

theorem tree_leaves_pos (t : FullTree) : 1 ≤ t.leaves := by
  induction t with
  | leaf sym => exact Nat.le_refl _
  | node l r ihl ihr => simp only [FullTree.leaves]; omega

theorem tree_size_pos (t : FullTree) : 1 ≤ t.size := by
  cases t <;> simp [FullTree.size]

/-- A full tree of K leaves has 2·K − 1 nodes (R42, R127). -/
theorem tree_size_leaves (t : FullTree) : t.size + 1 = 2 * t.leaves := by
  induction t with
  | leaf sym => rfl
  | node l r ihl ihr => simp only [FullTree.size, FullTree.leaves]; omega

/-! ### Symbols -/

/-- The symbols of a tree, left to right. -/
def treeSymbols : FullTree → List Byte
  | .leaf sym => [sym]
  | .node l r => treeSymbols l ++ treeSymbols r

theorem treeSymbols_length (t : FullTree) : (treeSymbols t).length = t.leaves := by
  induction t with
  | leaf sym => rfl
  | node l r ihl ihr => simp only [treeSymbols, FullTree.leaves, List.length_append, ihl, ihr]

/-! ### Slots that represent a tree -/

/-- Slot `n` is the root of a tree whose slots are all below `b`. -/
def RepresentsBelow (nodes : List (Nat × Node)) (b : Nat) : Nat → FullTree → Prop
  | n, .leaf sym => n < b ∧ (nodeAt nodes n).kind = .leaf ∧ (nodeAt nodes n).sym = sym
  | n, .node l r =>
    n < b ∧ (nodeAt nodes n).kind = .internal ∧ RepresentsBelow nodes b (nodeAt nodes n).left l
      ∧ RepresentsBelow nodes b (nodeAt nodes n).right r

theorem representsBelow_represents {nodes : List (Nat × Node)} {b : Nat} {t : FullTree} {n : Nat}
    (h : RepresentsBelow nodes b n t) : Represents nodes n t := by
  induction t generalizing n with
  | leaf sym => exact h.2
  | node l r ihl ihr => exact ⟨h.2.1, ihl h.2.2.1, ihr h.2.2.2⟩

theorem representsBelow_root {nodes : List (Nat × Node)} {b : Nat} {t : FullTree} {n : Nat}
    (h : RepresentsBelow nodes b n t) : n < b := by
  cases t <;> exact h.1

/-- A tree survives changes of slots at or above its bound. -/
theorem representsBelow_congr {nodes nodes' : List (Nat × Node)} {b b' : Nat} {t : FullTree} {n : Nat}
    (h : RepresentsBelow nodes b n t) (hb : b ≤ b') (hn : ∀ i, i < b → nodeAt nodes' i = nodeAt nodes i) :
    RepresentsBelow nodes' b' n t := by
  induction t generalizing n with
  | leaf sym => exact ⟨by have := h.1; omega, by rw [hn n h.1]; exact h.2⟩
  | node l r ihl ihr =>
    obtain ⟨h1, h2, h3, h4⟩ := h
    refine ⟨by omega, ?_⟩
    rw [hn n h1]
    exact ⟨h2, ihl h3, ihr h4⟩

/-! ### Codes (R140 to R143) -/

theorem storeWf_assignCodes {code : List (Nat × CodeEntry)} (t : FullTree) (p : Bits)
    (h : storeWf CodeEntry.cleared 256 code) : storeWf CodeEntry.cleared 256 (t.assignCodes p code) := by
  induction t generalizing p code with
  | leaf sym =>
    rw [FullTree.assignCodes]
    exact storeWf_storeSet _ _ _ _ h sym.isLt
  | node l r ihl ihr => exact ihr _ (ihl _ h)

/-- Symbols that are not in the tree keep their entries. -/
theorem codeAt_assignCodes_ne (t : FullTree) (p : Bits) (code : List (Nat × CodeEntry)) (sym : Byte)
    (h : sym ∉ treeSymbols t) : codeAt (t.assignCodes p code) sym = codeAt code sym := by
  induction t generalizing p code with
  | leaf s =>
    simp only [treeSymbols, List.mem_singleton] at h
    rw [FullTree.assignCodes, codeAt_setCode, if_neg h]
  | node l r ihl ihr =>
    simp only [treeSymbols, List.mem_append, not_or] at h
    rw [FullTree.assignCodes, ihr _ _ h.2, ihl _ _ h.1]

/-- The code of a symbol of a tree with distinct symbols is the path to its leaf. -/
theorem codeAt_assignCodes (t : FullTree) (p : Bits) (code : List (Nat × CodeEntry)) (sym : Byte)
    (hd : (treeSymbols t).Nodup) (h : sym ∈ treeSymbols t) :
    ∃ q, t.follow q = some sym ∧ codeAt (t.assignCodes p code) sym = ⟨true, p ++ q⟩ := by
  induction t generalizing p code with
  | leaf s =>
    simp only [treeSymbols, List.mem_singleton] at h
    subst h
    exact ⟨[], rfl, by rw [FullTree.assignCodes, codeAt_setCode]; simp⟩
  | node l r ihl ihr =>
    simp only [treeSymbols] at hd h
    obtain ⟨hl, hr, hlr⟩ := List.nodup_append.1 hd
    rcases List.mem_append.1 h with h | h
    · obtain ⟨q, h1, h2⟩ := ihl (p ++ [false]) code hl h
      have hn : sym ∉ treeSymbols r := fun h' => hlr _ h _ h' rfl
      exact ⟨false :: q, h1, by rw [FullTree.assignCodes, codeAt_assignCodes_ne r _ _ _ hn, h2]; simp⟩
    · obtain ⟨q, h1, h2⟩ := ihr (p ++ [true]) (l.assignCodes (p ++ [false]) code) hr h
      exact ⟨true :: q, h1, by rw [FullTree.assignCodes, h2]; simp⟩

end Sys2Proof.Machine
end

