-- ==== Sys2Proof/Laws/Building.lean ====
section
/-! SUPPORT. BUILD from its start to its end (R121 to R127): the working set is a forest over the counted symbols, and
its merges leave one tree over them. -/

namespace Sys2Proof.Machine

open Sys2Proof.Safety

/-- The working set holds distinct roots of trees that together have the symbols `syms`. -/
structure Forest (s : State) (syms : List Byte) : Prop where
  below : ∀ n ∈ s.work.wset, n < s.work.nnodes
  nodup : s.work.wset.Nodup
  trees : ∃ T : Nat → FullTree, (∀ n ∈ s.work.wset, RepresentsBelow s.work.nodes s.work.nnodes n (T n)) ∧
    (s.work.wset.flatMap fun n => treeSymbols (T n)).Perm syms

/-- The merges of a forest end in one tree over its symbols (R125, R127). -/
theorem build_merges (syms : List Byte) : ∀ (w : Nat) (s : State), Running .build s → s.host = [] →
    s.work.nnodes ≠ 0 → s.work.wset.length = w + 1 → Forest s syms →
    ∃ k nodes nn root tree,
      run k s = .next (buildDone root
        { s with work := { s.work with nodes := nodes, nnodes := nn, wset := [root] } })
      ∧ Represents nodes root tree ∧ (treeSymbols tree).Perm syms := by
  intro w
  induction w with
  | zero =>
    intro s hr hh h0 hw hF
    obtain ⟨a, ha⟩ := List.length_eq_one_iff.1 (show s.work.wset.length = 1 by omega)
    obtain ⟨T, h1, h2⟩ := hF.trees
    refine ⟨1, s.work.nodes, s.work.nnodes, a, T a, ?_, representsBelow_represents (h1 a (by simp [ha])), by simpa [ha] using h2⟩
    rw [run_one, step_phase (engineTurn_self hh) hr]
    simp [phaseStep, buildStep, h0, ha, extractMin_single, extractMin_nil]
    rw [← ha]
  | succ w ih =>
    intro s hr hh h0 hw hF
    have hne : s.work.wset ≠ [] := by intro h; simp [h] at hw
    obtain ⟨a, ha, hma⟩ := extractMin_some (nodes := s.work.nodes) hne
    have hl1 := List.length_erase_of_mem hma
    have hne' : s.work.wset.erase a ≠ [] := by intro h; rw [h] at hl1; simp at hl1; omega
    obtain ⟨b, hb, hmb⟩ := extractMin_some (nodes := s.work.nodes) hne'
    have hl2 := List.length_erase_of_mem hmb
    let t := mergeNodes a b ((s.work.wset.erase a).erase b) s
    have hst : step s = .next t := by
      rw [step_phase (engineTurn_self hh) hr]
      simp [phaseStep, buildStep, h0, ha, hb, t]
    have hsub : ∀ x ∈ (s.work.wset.erase a).erase b, x ∈ s.work.wset := fun x hx => List.mem_of_mem_erase (List.mem_of_mem_erase hx)
    obtain ⟨T, hT1, hT2⟩ := hF.trees
    have hF' : Forest t syms := by
      refine ⟨?_, ?_, ?_⟩
      · intro n hn
        simp [t] at hn ⊢
        rcases hn with hn | rfl
        · have := hF.below n (hsub n hn); omega
        · omega
      · simp only [t, mergeNodes_work_wset]
        refine List.Nodup.append ((hF.nodup.erase a).erase b) (by simp) ?_
        intro x hx hx'
        have := hF.below x (hsub x hx)
        simp at hx'; omega
      · refine ⟨fun n => if n = s.work.nnodes then .node (T a) (T b) else T n, ?_, ?_⟩
        · intro n hn
          simp only [t, mergeNodes_work_wset, List.mem_append, List.mem_singleton] at hn
          have step : ∀ {n tr}, RepresentsBelow s.work.nodes s.work.nnodes n tr → RepresentsBelow t.work.nodes t.work.nnodes n tr := by
            intro n tr h
            refine representsBelow_congr h (by simp [t]) fun i hi => ?_
            simp only [t, mergeNodes_work_nodes]; exact nodeAt_setNode_ne _ _ (by omega)
          rcases hn with hn | rfl
          · have := hF.below n (hsub n hn)
            dsimp only
            rw [if_neg (by omega)]
            exact step (hT1 n (hsub n hn))
          · dsimp only
            rw [if_pos rfl]
            refine ⟨by simp [t], by simp [t], ?_, ?_⟩
            · have : (nodeAt t.work.nodes s.work.nnodes).left = a := by simp [t]
              rw [this]; exact step (hT1 a hma)
            · have : (nodeAt t.work.nodes s.work.nnodes).right = b := by simp [t]
              rw [this]; exact step (hT1 b (List.mem_of_mem_erase hmb))
        · have e1 := List.perm_cons_erase hma
          have e2 := List.perm_cons_erase hmb
          have e3 : s.work.wset.Perm (a :: b :: (s.work.wset.erase a).erase b) := e1.trans (e2.cons a)
          refine List.Perm.trans ?_ hT2
          refine List.Perm.trans ?_ (e3.flatMap_right _).symm
          simp only [t, mergeNodes_work_wset, List.flatMap_append, List.flatMap_cons, List.flatMap_nil, List.append_nil, if_true, treeSymbols]
          have : ((s.work.wset.erase a).erase b).flatMap (fun n => treeSymbols (if n = s.work.nnodes then .node (T a) (T b) else T n)) = ((s.work.wset.erase a).erase b).flatMap (fun n => treeSymbols (T n)) := by
            refine List.flatMap_congr fun x hx => ?_
            have := hF.below x (hsub x hx)
            rw [if_neg (by omega)]
          rw [this]
          rw [← List.append_assoc (treeSymbols (T a)) (treeSymbols (T b))]
          exact List.perm_append_comm
    obtain ⟨k, nodes, nn, root, tree, g1, g2, g3⟩ := ih t hr hh (by simp [t]) (by simp [t]; omega) hF'
    exact ⟨k + 1, nodes, nn, root, tree, by rw [run_succ k hst, g1]; rfl, g2, g3⟩

/-- BUILD from its start makes a tree whose leaves are the counted symbols, each once (R122, R123, R127). -/
theorem build_tree (s : State) (hr : Running .build s) (hh : s.host = []) (h0 : s.work.nnodes = 0)
    (hw : storeWf 0#32 256 s.work.freq) (hne : s.work.freq ≠ []) :
    ∃ k nodes nn ws root tree,
      run k s = .next (buildDone root { s with
        work := { s.work with nodes := nodes, nnodes := nn, wset := ws }
        results := { s.results with leafCount := BitVec.ofNat 32 tree.leaves } })
      ∧ Represents nodes root tree ∧ (treeSymbols tree).Nodup
      ∧ (∀ sym, sym ∈ treeSymbols tree ↔ freqAt s.work.freq sym ≠ 0#32) ∧ tree.leaves ≤ 256 := by
  let e := sortEntries s.work.freq
  have hl : e.length = s.work.freq.length := sortEntries_length _
  have h256 := storeWf_length hw
  have hst : step s = .next (buildLeaves s) := by
    rw [step_phase (engineTurn_self hh) hr]; simp [phaseStep, buildStep, h0]
  have hpos : 0 < s.work.freq.length := List.length_pos_iff.2 hne
  let syms : List Byte := e.map fun x => BitVec.ofNat 8 x.1
  have hmem : ∀ x ∈ e, x ∈ s.work.freq := fun x hx => (sortEntries_perm _).mem_iff.1 hx
  have hkeys : (e.map Prod.fst).Nodup := by
    have := ((sortEntries_perm s.work.freq).map Prod.fst).nodup_iff
    exact this.2 (hw.1.imp fun h => Nat.ne_of_lt h)
  have hnd : syms.Nodup := by
    have : syms = (e.map Prod.fst).map (BitVec.ofNat 8) := by simp [syms]
    rw [this]
    refine hkeys.map_on fun x hx y hy hxy => ?_
    obtain ⟨u, hu, rfl⟩ := List.mem_map.1 hx
    obtain ⟨v, hv, rfl⟩ := List.mem_map.1 hy
    have h1 := (hw.2 u (hmem u hu)).2
    have h2 := (hw.2 v (hmem v hv)).2
    have := congrArg BitVec.toNat hxy
    simp at this; omega
  have hat : ∀ j, (hj : j < e.length) → nodeAt (allocLeaves 0 e s.work.nodes) j = { nodeAt s.work.nodes j with kind := .leaf, sym := BitVec.ofNat 8 e[j].1, freq := e[j].2 } := by
    intro j hj
    have := nodeAt_allocLeaves e 0 s.work.nodes j hj
    simpa using this
  have hsy : ∀ sym, sym ∈ syms ↔ freqAt s.work.freq sym ≠ 0#32 := by
    intro sym
    have key : ∀ l : List (Nat × Word), storeWf 0#32 256 l → ((∃ x ∈ l, BitVec.ofNat 8 x.1 = sym) ↔ storeGet 0#32 sym.toNat l ≠ 0#32) := by
      intro l
      induction l with
      | nil => simp [storeGet]
      | cons x rest ih =>
        intro hw
        have hx := hw.2 x (by simp)
        have hw' : storeWf 0#32 256 rest := ⟨by have := hw.1; simp at this; simpa using this.2, fun e he => hw.2 e (by simp [he])⟩
        have ih := ih hw'
        have hiff : BitVec.ofNat 8 x.1 = sym ↔ sym.toNat = x.1 := by
          constructor
          · rintro rfl; rw [BitVec.toNat_ofNat]; omega
          · intro h; apply BitVec.eq_of_toNat_eq; rw [BitVec.toNat_ofNat]; omega
        by_cases h : sym.toNat = x.1
        · simp [storeGet, h, hx.1]
          left; exact hiff.2 h
        · simp only [storeGet, h, if_false]
          rw [← ih]
          constructor
          · rintro ⟨y, hy, rfl⟩
            rcases List.mem_cons.1 hy with rfl | hy
            · exact absurd (hiff.1 rfl) h
            · exact ⟨y, hy, rfl⟩
          · rintro ⟨y, hy, h2⟩; exact ⟨y, by simp [hy], h2⟩
    unfold freqAt
    rw [← key _ hw]
    simp only [syms, List.mem_map]
    constructor
    · rintro ⟨x, hx, h⟩; exact ⟨x, hmem x hx, h⟩
    · rintro ⟨x, hx, h⟩; exact ⟨x, (sortEntries_perm _).mem_iff.2 hx, h⟩
  by_cases hk : 2 ≤ e.length
  · let t := buildLeaves s
    have hF : Forest t syms := by
      refine ⟨?_, ?_, fun n => .leaf (nodeAt (allocLeaves 0 e s.work.nodes) n).sym, ?_, ?_⟩
      · intro n hn; simp only [t, buildLeaves_work_wset, buildLeaves_work_nnodes] at hn ⊢; rw [if_pos hk] at hn; exact List.mem_range.1 hn
      · simp only [t, buildLeaves_work_wset]; rw [if_pos hk]; exact List.nodup_range
      · intro n hn
        have hn : n < e.length := by simp only [t, buildLeaves_work_wset] at hn; rw [if_pos hk] at hn; exact List.mem_range.1 hn
        refine ⟨by simpa [t] using hn, ?_, ?_⟩
        · simp only [t, buildLeaves_work_nodes]; rw [hat n hn]
        · simp only [t, buildLeaves_work_nodes]; rfl
      · simp only [t, buildLeaves_work_wset]; rw [if_pos hk]
        have : (List.range e.length).flatMap (fun n => treeSymbols (.leaf (nodeAt (allocLeaves 0 e s.work.nodes) n).sym)) = syms := by
          simp only [treeSymbols]
          have fm : ∀ (l : List Nat) (g : Nat → Byte), l.flatMap (fun n => [g n]) = l.map g := by intro l g; induction l <;> simp_all
          rw [fm]
          refine List.ext_getElem (by simp [syms]) fun i h1 h2 => ?_
          simp at h1
          simp only [List.getElem_map, List.getElem_range, syms]
          rw [hat i h1]
        rw [show (sortEntries s.work.freq) = e from rfl, this]
    obtain ⟨k, nodes, nn, root, tree, g1, g2, g3⟩ := build_merges syms (e.length - 2 + 1) t ⟨by simp [t, hr.1], by simp [t]; rw [if_pos hk]; exact hr.2⟩ (by simpa [t] using hh) (by simp [t]; intro h; simp [e, h] at hk) (by
      simp only [t, buildLeaves_work_wset]; rw [if_pos hk]; simp [e] at hk ⊢; omega) hF
    have hlv : tree.leaves = e.length := by rw [← treeSymbols_length, g3.length_eq]; simp [syms]
    refine ⟨k + 1, nodes, nn, [root], root, tree, ?_, g2, g3.nodup_iff.2 hnd, fun sym => by rw [g3.mem_iff, hsy], by omega⟩
    rw [run_succ k hst, g1]
    simp only [t, buildLeaves, show sortEntries s.work.freq = e from rfl, hk, if_true, hlv, buildDone, State.toPhase]
  · have h1 : e.length = 1 := by omega
    obtain ⟨x, hx⟩ := List.length_eq_one_iff.1 h1
    refine ⟨1, allocLeaves 0 e s.work.nodes, 1, s.work.wset, 0, .leaf (BitVec.ofNat 8 x.1), ?_, ?_, by simp [treeSymbols], ?_, by simp [FullTree.leaves]⟩
    · rw [run_one, hst]
      simp only [buildLeaves, show sortEntries s.work.freq = e from rfl, h1, FullTree.leaves]
      rfl
    · have := hat 0 (by omega)
      simp only [Represents, this]
      simp [hx]
    · intro sym; rw [← hsy]; simp [treeSymbols, syms, hx]

end Sys2Proof.Machine
end

