-- ==== Sys2Proof/Laws/Streams.lean ====
section
/-! SUPPORT. Whole streams: the source as bits, runs without host moves, the payload's length as SIZE computes it, and
ENCODE from its start to its end. -/

namespace Sys2Proof.Machine

open Sys2Proof.Safety

/-! ### Runs without host moves -/

/-- What a run without host moves keeps; a bus error can end the command with ACC full. -/
theorem run_keeps {k : Nat} : ∀ {s t : State}, run k s = .next t → s.host = [] →
    (s.status.busy = true → AccClean s.writer) → storeWf 0#32 256 s.work.freq →
    t.host = [] ∧ (t.status.busy = true → AccClean t.writer) ∧ storeWf 0#32 256 t.work.freq
      ∧ t.latched = s.latched := by
  induction k with
  | zero => intro s t h hh ha hw; cases h; exact ⟨hh, ha, hw, rfl⟩
  | succ k ih =>
    intro s t h hh ha hw
    cases hs : step s with
    | fault r => simp [run, hs] at h
    | refused r => simp [run, hs] at h
    | next u =>
      simp only [run, hs] at h
      have key : u.host = [] ∧ (u.status.busy = true → AccClean u.writer) ∧ storeWf 0#32 256 u.work.freq
          ∧ u.latched = s.latched := by
        by_cases hb : s.status.busy = true
        · have hm := engineMove_of_step (engineTurn_self hh) hb hs
          refine ⟨?_, accClean_engineMove hm (ha hb), ?_, ?_⟩
          · cases hm <;> simpa using hh
          · cases hm with
            | freqByte => exact storeWf_countSymbol _ hw
            | _ => simpa using hw
          · cases hm <;> simp
        · rw [step_engine (engineTurn_self hh), engineStep_idle (by simpa using hb)] at hs
          cases hs; exact ⟨hh, ha, hw, rfl⟩
      obtain ⟨a, b, c, d⟩ := ih h key.1 key.2.1 key.2.2.1
      exact ⟨a, b, c, d.trans key.2.2.2⟩

/-- With no command running and no host move a run changes nothing (R246). -/
theorem run_idle {s : State} (hh : s.host = []) (hb : s.status.busy = false) (k : Nat) : run k s = .next s := by
  induction k with
  | zero => rfl
  | succ k ih =>
    rw [run_succ k (by rw [step_engine (engineTurn_self hh), engineStep_idle hb])]; exact ih

/-- Two runs to the command's end end in the same state. -/
theorem run_end_unique {s t t' : State} {k k' : Nat} (h : run k s = .next t) (h' : run k' s = .next t')
    (a : t.host = []) (b : t.status.busy = false) (a' : t'.host = []) (b' : t'.status.busy = false) : t = t' := by
  have h1 : run (k + k') s = .next t := by rw [run_add _ h, run_idle a b]
  have h2 : run (k' + k) s = .next t' := by rw [run_add _ h', run_idle a' b']
  rw [Nat.add_comm, h2] at h1
  cases h1; rfl

/-! ### The source as bits -/

/-- Bit k of bytes in stream order (R65). -/
theorem bitsOfBytes_getElem (l : List Byte) (k : Nat) (h : k < 8 * l.length) :
    (bitsOfBytes l)[k]? = some ((l[k / 8]'(by omega)).getLsbD (7 - k % 8)) := by
  induction l generalizing k with
  | nil => simp at h
  | cons b l ih =>
    simp only [bitsOfBytes]
    by_cases hk : k < 8
    · rw [List.getElem?_append_left (by simp; omega)]
      have e : k / 8 = 0 := by omega
      have e2 : k % 8 = k := by omega
      simp only [e, e2, List.getElem_cons_zero, msbBits_byte]
      interval_cases k <;> rfl
    · rw [List.getElem?_append_right (by simp; omega)]
      simp only [msbBits_length]
      rw [ih (k - 8) (by simp at h; omega)]
      have e : k / 8 = (k - 8) / 8 + 1 := by omega
      have e2 : (k - 8) % 8 = k % 8 := by omega
      simp [e, e2]

theorem bitsOfBytes_length (l : List Byte) : (bitsOfBytes l).length = 8 * l.length := by
  induction l with
  | nil => rfl
  | cons b l ih => simp [bitsOfBytes, ih]; omega

/-- The reader reads the bits of the source (R106). -/
theorem peekBit_source {s : State} (hrd : s.reader.rdlimit = 8 * s.latched.srcLen.toNat) (hs : SourceReadable s)
    {k : Nat} (b : Bool) (h : (sourceBits s)[k]? = some b) : peekBit s k = .ok b := by
  have hl : (sourceBits s).length = 8 * s.latched.srcLen.toNat := by simp [sourceBits, bitsOfBytes_length, sourceBytes]
  have hk : k < 8 * s.latched.srcLen.toNat := by
    rw [← hl]; by_contra hc; rw [List.getElem?_eq_none (by omega)] at h; exact nomatch h
  have hb := hs (k / 8) (by omega)
  unfold sourceBits at h
  rw [bitsOfBytes_getElem _ _ (by simp [sourceBytes]; exact hk)] at h
  have hne : ¬ s.reader.rdlimit ≤ k := by omega
  simp only [peekBit, hne, if_false, memRead, hb]
  simp [sourceBytes] at h
  simp [h]

theorem peekBits_source {s : State} (hrd : s.reader.rdlimit = 8 * s.latched.srcLen.toNat) (hs : SourceReadable s)
    (bs : Bits) : ∀ (k : Nat) (post : Bits), (sourceBits s).drop k = bs ++ post → peekBits s k bs.length = .ok bs := by
  induction bs with
  | nil => intro k post h; rfl
  | cons b bs ih =>
    intro k post h
    rw [List.length_cons, peekBits_cons]
    refine ⟨peekBit_source hrd hs b ?_, ih (k+1) post ?_⟩
    · have := congrArg (fun l => l[0]?) h
      simpa using this
    · have := congrArg (List.drop 1) h
      simpa using this

/-- Writes in the destination window leave the source bytes alone (R66). -/
theorem sourceBytes_stable {s t : State} (hleg : windowsLegal s.latched = true) (hl : t.latched = s.latched)
    (hm : ∀ a, (∀ j, j < s.latched.dstCap.toNat → a ≠ (dstByteAddr s j).toNat) →
      readByte a t.mem = readByte a s.mem) :
    sourceBytes t = sourceBytes s := by
  unfold sourceBytes
  rw [hl]
  refine List.map_congr_left fun i hi => ?_
  have hi : i < s.latched.srcLen.toNat := List.mem_range.1 hi
  have hd : srcByteAddr t i = srcByteAddr s i := by unfold srcByteAddr; rw [hl]
  rw [hd]
  simp [windowsLegal] at hleg
  have ha := srcByteAddr_toNat hleg.1.1 hi
  apply hm
  intro j hj
  rw [ha, dstByteAddr_toNat hleg.1.2 hj]
  have hov := hleg.2
  simp [overlap] at hov
  omega

theorem sourceBytes_appended {s t : State} {bs : Bits} (hleg : windowsLegal s.latched = true)
    (hl : t.latched = s.latched) (ho : t.writer.outpos ≤ s.latched.dstCap.toNat) (h : Appended s t bs) :
    sourceBytes t = sourceBytes s := by
  apply sourceBytes_stable hleg hl
  intro a ha
  exact h.2.2.2 a fun j h1 h2 => ha j (by omega)

/-! ### The payload -/

/-- A serialized tree of K leaves has 10·K − 1 bits (R85, R153). -/
theorem serialize_length (tree : FullTree) : tree.serialize.length = 10 * tree.leaves - 1 := by
  have : tree.serialize.length = 10 * tree.leaves - 1 ∧ 1 ≤ tree.leaves := by
    induction tree with
    | leaf sym => simp [FullTree.serialize, FullTree.leaves]
    | node l r ihl ihr => simp [FullTree.serialize, FullTree.leaves]; omega
  exact this.1

/-- SIZE's sum is the payload's length. -/
theorem payloadBits_eq (code : List (Nat × CodeEntry)) (hw : storeWf CodeEntry.cleared 256 code)
    (f : List (Nat × Word)) (l : List Byte) (hf : ∀ sym, (freqAt f sym).toNat = l.count sym)
    (hc : ∀ b ∈ l, (codeAt code b).valid = true) :
    payloadBits f code = (l.flatMap fun b => (codeAt code b).bits).length := by
  have e1 : payloadBits f code = (code.map fun e => if e.2.valid then l.count (BitVec.ofNat 8 e.1) * e.2.bits.length else 0).sum := by
    have : ∀ c : List (Nat × CodeEntry), (∀ e ∈ c, e.1 < 256) → payloadBits f c = (c.map fun e => if e.2.valid then l.count (BitVec.ofNat 8 e.1) * e.2.bits.length else 0).sum := by
      intro c
      induction c with
      | nil => intro _; rfl
      | cons e rest ih =>
        intro h
        have he := h e (by simp)
        rw [payloadBits, List.map_cons, List.sum_cons, ih fun x hx => h x (by simp [hx]), ← hf]
        unfold freqAt
        rw [show (BitVec.ofNat 8 e.1).toNat = e.1 by rw [BitVec.toNat_ofNat]; omega]
    exact this code fun e he => (hw.2 e he).2
  rw [e1]
  clear hf e1
  induction l with
  | nil => simp
  | cons b l ih =>
    have ih := ih fun x hx => hc x (by simp [hx])
    have hv := hc b (by simp)
    have e2 : ∀ c : List (Nat × CodeEntry), (∀ e ∈ c, e.1 < 256) → (c.map fun e => if e.2.valid then (b :: l).count (BitVec.ofNat 8 e.1) * e.2.bits.length else 0).sum
       = (c.map fun e => if e.2.valid then l.count (BitVec.ofNat 8 e.1) * e.2.bits.length else 0).sum + (c.map fun e => if e.1 = b.toNat ∧ e.2.valid then e.2.bits.length else 0).sum := by
      intro c
      induction c with
      | nil => intro _; rfl
      | cons e rest ih2 =>
        intro h
        have he := h e (by simp)
        simp only [List.map_cons, List.sum_cons]
        rw [ih2 fun x hx => h x (by simp [hx])]
        have : (BitVec.ofNat 8 e.1 = b) ↔ e.1 = b.toNat := by
          constructor
          · rintro rfl; rw [BitVec.toNat_ofNat]; omega
          · intro h; apply BitVec.eq_of_toNat_eq; rw [BitVec.toNat_ofNat]; omega
        rw [List.count_cons]
        by_cases hb : e.1 = b.toNat
        · have : (b == BitVec.ofNat 8 e.1) = true := by simp [hb]
          cases e.2.valid <;> simp [hb]
          have h2 : b = BitVec.ofNat 8 b.toNat := by simp
          ring
        · have : (b == BitVec.ofNat 8 e.1) = false := by simp; intro hh; exact hb (this.1 hh.symm)
          cases e.2.valid <;> simp [hb, this]; omega
    rw [e2 code fun e he => (hw.2 e he).2, ih, List.flatMap_cons, List.length_append]
    have e3 := sum_storeRemove (fun e : Nat × CodeEntry => if e.1 = b.toNat ∧ e.2.valid then e.2.bits.length else 0) CodeEntry.cleared b.toNat (by simp [CodeEntry.cleared]) hw.1
    have e4 : ((storeRemove b.toNat code).map fun e : Nat × CodeEntry => if e.1 = b.toNat ∧ e.2.valid then e.2.bits.length else 0).sum = 0 := by
      apply List.sum_eq_zero
      intro x hx
      obtain ⟨e, he, rfl⟩ := List.mem_map.1 hx
      simp [storeRemove] at he
      simp [he.2]
    rw [e3, e4]
    have : storeGet CodeEntry.cleared b.toNat code = codeAt code b := rfl
    simp only [this, hv, and_self, if_true]
    omega

theorem appended_nil {s t : State} (hl : t.latched = s.latched) (hm : t.mem = s.mem) (hw : t.writer = s.writer) :
    Appended s t [] := by
  have := appended_refl s
  obtain ⟨h1, h2, h3, h4⟩ := this
  exact ⟨by rw [writtenBits_congr hl hm hw]; simp, by rw [hw]; exact h2, by rw [hw]; exact h3, fun a _ => by rw [hm]⟩

/-- The bits of one code, a step each (R102). -/
theorem encode_code (bs : Bits) : ∀ (s : State), Running .encode s → s.host = [] → s.loop.codeRest = bs →
    CanAppend s bs.length → AccClean s.writer →
    ∃ m w, run bs.length s = .next { s with mem := m, writer := w, loop := { s.loop with codeRest := [] } }
      ∧ Appended s { s with mem := m, writer := w, loop := { s.loop with codeRest := [] } } bs ∧ AccClean w := by
  induction bs with
  | nil =>
    intro s hr hh hc _ hcl
    refine ⟨s.mem, s.writer, ?_, appended_nil rfl rfl rfl, hcl⟩
    rw [show ([] : Bits).length = 0 from rfl, run_zero, ← hc]
  | cons b bs ih =>
    intro s hr hh hc hca hcl
    have hca' : CanAppend s ([b].length + bs.length) := by simpa [Nat.add_comm] using hca
    obtain ⟨t, h1, h2, h3⟩ := putBit_appends b (canAppend_left hca')
    have hct : AccClean t.writer := by
      obtain ⟨x, _, ⟨hx, _, hk⟩ | hx⟩ := putBit_frame b s
      · rw [h1] at hx; cases hx; exact hk.2 hcl
      · rw [h1] at hx; exact nomatch hx
    let u : State := { s with mem := t.mem, writer := t.writer, loop := { s.loop with codeRest := bs } }
    have hst : step s = .next u := by
      rw [step_phase (engineTurn_self hh) hr]
      simp [phaseStep, encodeStep, hc, exec_payload_encode b hr, emitPayload, h1, orBusError]
      rw [h2]; simp [u, hc]
    have hau : Appended s u [b] := by
      have : Appended s t [b] := h3
      obtain ⟨g1, g2, g3, g4⟩ := this
      exact ⟨by rw [← g1]; exact writtenBits_congr (by rw [h2]) rfl rfl, g2, g3, g4⟩
    obtain ⟨m, w, k1, k2, k3⟩ := ih u hr hh rfl (canAppend_right hca' rfl rfl hau) hct
    refine ⟨m, w, ?_, ?_, k3⟩
    · rw [List.length_cons, run_succ _ hst, k1]
    · exact appended_trans (as := [b]) (t := u) rfl hau k2

/-- ENCODE between two codes writes the codes of the source bytes that are left (R176). -/
theorem encode_source (rest : List Byte) : ∀ (s : State), Running .encode s → s.host = [] → s.loop.codeRest = [] →
    (sourceBytes s).drop s.loop.idx = rest → SourceReadable s → windowsLegal s.latched = true →
    (∀ b ∈ rest, (codeAt s.work.code b).valid = true) →
    CanAppend s (rest.flatMap fun b => (codeAt s.work.code b).bits).length → AccClean s.writer →
    ∃ k m w i, run k s = .next { s with mem := m, writer := w, loop := { s.loop with idx := i } }
      ∧ s.latched.srcLen.toNat ≤ i
      ∧ Appended s { s with mem := m, writer := w, loop := { s.loop with idx := i } }
          (rest.flatMap fun b => (codeAt s.work.code b).bits)
      ∧ AccClean w := by
  induction rest with
  | nil =>
    intro s hr hh hc hd _ _ _ _ hcl
    refine ⟨0, s.mem, s.writer, s.loop.idx, rfl, ?_, appended_nil rfl rfl rfl, hcl⟩
    have := List.drop_eq_nil_iff.1 hd
    simpa [sourceBytes] using this
  | cons b rest ih =>
    intro s hr hh hc hd hsr hleg hv hca hcl
    have hlen : (sourceBytes s).length = s.latched.srcLen.toNat := by simp [sourceBytes]
    have hi : s.loop.idx < s.latched.srcLen.toNat := by
      rw [← hlen]; by_contra hx; rw [List.drop_eq_nil_iff.2 (by omega)] at hd; exact nomatch hd
    have hget : (sourceBytes s)[s.loop.idx]'(by omega) = b := by
      have := congrArg (fun l => l[0]?) hd
      simp at this
      exact (List.getElem?_eq_some_iff.1 this).2
    have hb : readSource s s.loop.idx = .ok b := by
      simp only [readSource, memRead, hsr _ hi]
      simp [sourceBytes] at hget
      simp [hget]
    have hvb := hv b (by simp)
    let u : State := { s with loop := { s.loop with idx := s.loop.idx + 1, codeRest := (codeAt s.work.code b).bits } }
    have hst : step s = .next u := by
      rw [step_phase (engineTurn_self hh) hr]
      simp [phaseStep, encodeStep, hc, hi, hb, loadCode, hvb, u]
    rw [List.flatMap_cons, List.length_append] at hca
    have hcu : CanAppend u ((codeAt s.work.code b).bits.length + (rest.flatMap fun b => (codeAt s.work.code b).bits).length) := hca
    obtain ⟨m, w, k1, k2, k3⟩ := encode_code _ u hr hh rfl (canAppend_left hcu) hcl
    let v : State := { u with mem := m, writer := w, loop := { u.loop with codeRest := [] } }
    have hcv : CanAppend v (rest.flatMap fun b => (codeAt s.work.code b).bits).length := canAppend_right hcu rfl rfl k2
    have hsv : sourceBytes v = sourceBytes s := by
      have : sourceBytes v = sourceBytes u := sourceBytes_appended hleg rfl (by have := hcv.2.1; show v.writer.outpos ≤ v.latched.dstCap.toNat; omega) k2
      exact this
    obtain ⟨k, m', w', i, g1, g2, g3, g4⟩ := ih v hr hh rfl (by
      rw [hsv]
      have := congrArg (List.drop 1) hd
      rw [List.drop_drop] at this
      exact this) hsr hleg (fun x hx => hv x (by simp [hx])) hcv k3
    refine ⟨(codeAt s.work.code b).bits.length + 1 + k, m', w', i, ?_, g2, ?_, g4⟩
    · rw [show (codeAt s.work.code b).bits.length + 1 + k = ((codeAt s.work.code b).bits.length + k) + 1 by omega, run_succ _ hst, run_add _ k1, g1]
      simp only [v, u, hc]
    · rw [List.flatMap_cons]
      have h1 : Appended s v (codeAt s.work.code b).bits := by
        obtain ⟨a1, a2, a3, a4⟩ := k2
        exact ⟨a1, a2, a3, a4⟩
      exact appended_trans (t := v) rfl h1 g3

end Sys2Proof.Machine
end

