-- ==== Sys2Proof/Laws/FaultFree.lean ====
section
/-! SUPPORT. Bus errors are met or they are not: what the engine does without meeting one it does on a platform without
faults as well (R62, R63). So a run that ends without error is a run on the platform without faults. -/

namespace Sys2Proof.Machine

open Sys2Proof.Safety

/-- The same state on a platform none of whose accesses returns a bus error. -/
def faultFree (s : State) : State :=
  { s with platform := { s.platform with faults := [] } }

theorem busFault_faultFree (s : State) (k : AccessKind) (a : Word) : busFault (faultFree s).platform k a = false := rfl

theorem memRead_faultFree {a : Word} {s : State} {b : Byte} (h : memRead a s = .ok b) : memRead a (faultFree s) = .ok b := by
  rcases memRead_cases a s with ⟨_, h'⟩ | ⟨_, h'⟩ <;> rw [h'] at h <;> cases h
  rfl

theorem memWrite_faultFree {a : Word} {v : Byte} {s t : State} (h : memWrite a v s = .ok t) :
    memWrite a v (faultFree s) = .ok (faultFree t) := by
  cases hf : busFault s.platform .write a with
  | false => rw [memWrite_ok v hf] at h; cases h; rfl
  | true => rw [memWrite_fault v hf] at h; exact nomatch h

/-! ### The writer and the reader -/

theorem flushByte_faultFree {s t : State} (h : flushByte s = .ok t) :
    flushByte (faultFree s) = .ok (faultFree t) := by
  unfold flushByte at h ⊢
  by_cases hc : s.writer.outpos < s.latched.dstCap.toNat
  · simp only [hc, if_true] at h
    have hc' : (faultFree s).writer.outpos < (faultFree s).latched.dstCap.toNat := hc
    simp only [hc', if_true]
    cases hm : memWrite (dstByteAddr s s.writer.outpos) s.writer.acc s with
    | error x => rw [hm] at h; exact nomatch h
    | ok x =>
      rw [hm] at h; cases h
      have hm' : memWrite (dstByteAddr (faultFree s) (faultFree s).writer.outpos) (faultFree s).writer.acc (faultFree s)
          = .ok (faultFree x) := memWrite_faultFree hm
      rw [hm']; rfl
  · simp only [hc, if_false] at h
    have hc' : ¬(faultFree s).writer.outpos < (faultFree s).latched.dstCap.toNat := hc
    simp only [hc', if_false]
    cases h; rfl

theorem putBit_faultFree {b : Bool} {s t : State} (h : putBit b s = .ok t) :
    putBit b (faultFree s) = .ok (faultFree t) := by
  by_cases hc : s.writer.nacc = 7#3
  · rw [putBit_full b hc] at h
    rw [putBit_full (s := faultFree s) b hc]
    exact flushByte_faultFree h
  · rw [putBit_fill b hc] at h
    rw [putBit_fill (s := faultFree s) b hc]
    cases h; rfl

theorem putBits_faultFree {bs : Bits} {s t : State} (h : putBits bs s = .ok t) :
    putBits bs (faultFree s) = .ok (faultFree t) := by
  induction bs generalizing s with
  | nil => cases h; rfl
  | cons b bs ih =>
    unfold putBits at h ⊢
    cases hb : putBit b s with
    | error x => rw [hb] at h; exact nomatch h
    | ok x => rw [hb] at h; rw [putBit_faultFree hb]; exact ih h

theorem finalize_faultFree {s t : State} (h : finalize s = .ok t) : finalize (faultFree s) = .ok (faultFree t) := by
  unfold finalize at h ⊢
  by_cases hc : s.writer.nacc = 0#3
  · simp only [hc, if_true] at h
    have hc' : (faultFree s).writer.nacc = 0#3 := hc
    simp only [hc', if_true]
    cases h; rfl
  · simp only [hc, if_false] at h
    have hc' : ¬(faultFree s).writer.nacc = 0#3 := hc
    simp only [hc', if_false]
    exact flushByte_faultFree h

theorem peekBit_faultFree {s : State} {pos : Nat} {b : Bool} (h : peekBit s pos = .ok b) :
    peekBit (faultFree s) pos = .ok b := by
  rcases peekBit_cases s pos with ⟨_, h'⟩ | ⟨_, _, h'⟩ | ⟨hp, _, h'⟩ <;> rw [h'] at h <;> cases h
  have hp' : ¬(faultFree s).reader.rdlimit ≤ pos := by show ¬s.reader.rdlimit ≤ pos; omega
  unfold peekBit
  rw [if_neg hp']
  rfl

theorem peekBits_faultFree {s : State} {n pos : Nat} {bs : Bits} (h : peekBits s pos n = .ok bs) :
    peekBits (faultFree s) pos n = .ok bs := by
  induction n generalizing pos bs with
  | zero => exact h
  | succ n ih =>
    unfold peekBits at h
    cases hb : peekBit s pos with
    | error e => rw [hb] at h; exact nomatch h
    | ok b =>
      rw [hb] at h
      cases hr : peekBits s (pos + 1) n with
      | error e => rw [hr] at h; exact nomatch h
      | ok bs' =>
        rw [hr] at h; cases h
        exact peekBits_cons.2 ⟨peekBit_faultFree hb, ih hr⟩

/-! ### A step -/

/-- A writer operation that ends without error goes on as it does. -/
theorem orBusError_faultFree {r r' : Except State State} {k : State → Out} {t : State}
    (hr : ∀ x, r = .ok x → r' = .ok (faultFree x)) (h : orBusError r k = .next t) (ht : t.status.errcode = .noError)
    (hk : ∀ x, k x = .next t → k (faultFree x) = .next (faultFree t)) : orBusError r' k = .next (faultFree t) := by
  cases r with
  | ok x => rw [hr x rfl]; exact hk x h
  | error x => cases h; exact nomatch ht

theorem checkStep_faultFree {s t : State} (h : checkStep s = .next t) : checkStep (faultFree s) = .next (faultFree t) := by
  rcases decodeCmd_cases s.cmd with ⟨_, hd⟩ | ⟨_, hd⟩ | ⟨_, _, e, hd⟩ <;> unfold checkStep at h ⊢ <;> rw [hd] at h <;>
    rw [show (faultFree s).cmd = s.cmd from rfl, hd, show (faultFree s).latched = s.latched from rfl]
  case inr.inr => cases h; rfl
  all_goals
    cases h1 : passesTop s.latched.srcAddr s.latched.srcLen <;> cases h2 : passesTop s.latched.dstAddr s.latched.dstCap <;>
      cases h3 : overlap s.latched <;> simp only [h1, h2, h3] at h ⊢ <;> cases h <;> rfl

/-- A step of a phase that ends the command with no error, or goes on, does the same without faults. -/
theorem phaseStep_faultFree {p : Phase} {s t : State} (hr : Running p s) (h : phaseStep p s = .next t)
    (ht : t.status.errcode = .noError) : phaseStep p (faultFree s) = .next (faultFree t) := by
  have hr' : Running p (faultFree s) := hr
  have ha := active_running hr
  have ha' := active_running hr'
  have fail : ∀ {e : ErrCode} {x : State}, e ≠ .noError → (.next (endCommand e x) : Out) = .next t → False := by
    intro e x he hx; cases hx; exact he ht
  cases p <;> simp only [phaseStep] at h ⊢
  · exact nomatch h
  · exact checkStep_faultFree h
  · rcases freqStep_cases s with ⟨_, _, h'⟩ | ⟨hi, hf, h'⟩ | ⟨hi, h'⟩ <;> rw [h'] at h
    · exact (fail (by decide) h).elim
    · cases h
      rcases freqStep_cases (faultFree s) with ⟨_, hf', _⟩ | ⟨_, _, g⟩ | ⟨hi', _⟩
      · exact nomatch hf'
      · rw [g]; rfl
      · exact absurd hi (by show ¬s.loop.idx < s.latched.srcLen.toNat; exact Nat.not_lt.2 hi')
    · cases h
      rcases freqStep_cases (faultFree s) with ⟨hi', _, _⟩ | ⟨hi', _, _⟩ | ⟨_, g⟩
      · exact absurd hi' (by show ¬s.loop.idx < s.latched.srcLen.toNat; omega)
      · exact absurd hi' (by show ¬s.loop.idx < s.latched.srcLen.toNat; omega)
      · rw [g]; rfl
  · unfold buildStep at h ⊢
    by_cases h0 : s.work.nnodes = 0
    · have h0' : (faultFree s).work.nnodes = 0 := h0
      simp only [h0, if_true] at h; cases h
      simp only [h0', if_true, buildLeaves]
      rw [show (faultFree s).work.freq = s.work.freq from rfl]
      split <;> rfl
    · have h0' : ¬(faultFree s).work.nnodes = 0 := h0
      simp only [h0, if_false] at h
      simp only [h0', if_false]
      rw [show (faultFree s).work.nodes = s.work.nodes from rfl, show (faultFree s).work.wset = s.work.wset from rfl]
      split at h
      · cases h; rfl
      · split at h <;> cases h <;> rfl
  · rcases codesStep_cases s with ⟨hs, h'⟩ | ⟨top, rest, hs, h'⟩ <;> rw [h'] at h <;> cases h <;>
      (unfold codesStep; rw [show (faultFree s).work.stack = s.work.stack from rfl, hs]; rfl)
  · have key : ∀ a b c, sizeCheck a b c s = .next t → sizeCheck a b c (faultFree s) = .next (faultFree t) := by
      intro a b c h
      unfold sizeCheck at h ⊢
      by_cases hc : s.latched.dstCap.toNat < b
      · simp only [hc, if_true] at h
        exact (fail (e := .outputOverflow) (by decide) h).elim
      · have hc' : ¬(faultFree s).latched.dstCap.toNat < b := hc
        simp only [hc, if_false] at h; cases h
        simp only [hc', if_false]; rfl
    unfold sizeStep at h ⊢
    by_cases hc : s.latched.srcLen = 0#32
    · have hc' : (faultFree s).latched.srcLen = 0#32 := hc
      simp only [hc, if_true] at h; simp only [hc', if_true]; exact key _ _ _ h
    · have hc' : ¬(faultFree s).latched.srcLen = 0#32 := hc
      simp only [hc, if_false] at h; simp only [hc', if_false]; exact key _ _ _ h
  · unfold serTreeStep at h ⊢
    rw [show serToken (faultFree s) = serToken s from rfl]
    cases hi : serToken s with
    | none => rw [hi] at h; cases h; rfl
    | some i =>
      rw [hi] at h
      rcases serToken_kind hi with rfl | ⟨sym, rfl⟩
      · simp only [exec, execTokenInternal, ha, ha', emitInternal_eq] at h ⊢
        exact orBusError_faultFree (fun x => putBits_faultFree) h ht fun x hx => by cases hx; rfl
      · simp only [exec, execTokenLeaf, ha, ha', emitLeaf_eq] at h ⊢
        exact orBusError_faultFree (fun x => putBits_faultFree) h ht fun x hx => by cases hx; rfl
  · simp only [wrCountStep, exec, execCount, ha, ha', writeBits] at h ⊢
    refine orBusError_faultFree (fun x => putBits_faultFree) h ht fun x hx => ?_
    cases hx
    unfold afterCount
    rw [show (faultFree x).latched = x.latched from rfl]
    split <;> rfl
  · unfold encodeStep at h ⊢
    rw [show (faultFree s).loop = s.loop from rfl]
    cases hc : s.loop.codeRest with
    | cons b bs =>
      simp only [hc] at h
      rw [exec_payload_encode b hr] at h
      simp only
      rw [exec_payload_encode b hr']
      exact orBusError_faultFree (fun x => putBit_faultFree) h ht fun x hx => by cases hx; rfl
    | nil =>
      simp only [hc] at h
      simp only
      by_cases hi : s.loop.idx < s.latched.srcLen.toNat
      · have hi' : s.loop.idx < (faultFree s).latched.srcLen.toNat := hi
        simp only [hi, if_true] at h
        simp only [hi', if_true]
        cases hb : readSource s s.loop.idx with
        | error e =>
          rw [hb] at h
          have he : e ≠ .noError := by
            rcases memRead_cases (srcByteAddr s s.loop.idx) s with ⟨_, hm⟩ | ⟨_, hm⟩ <;>
              rw [show readSource s s.loop.idx = _ from hm] at hb <;> cases hb
            decide
          exact (fail he h).elim
        | ok b =>
          rw [hb] at h
          rw [show readSource (faultFree s) s.loop.idx = .ok b from memRead_faultFree hb]
          cases h
          simp only [loadCode]
          rw [show (faultFree s).work = s.work from rfl]
          split <;> rfl
      · have hi' : ¬s.loop.idx < (faultFree s).latched.srcLen.toNat := hi
        simp only [hi, if_false] at h; cases h
        simp only [hi', if_false]; rfl
  · exact orBusError_faultFree (fun x => finalize_faultFree) h ht fun x hx => by cases hx; rfl
  · unfold deserTreeStep execFetched at h ⊢
    have hp : poolFull (faultFree s) = poolFull s := rfl
    cases hf : fetchToken s with
    | error e =>
      rw [hf] at h
      rcases fetchToken_cases s with ⟨g, _⟩ | ⟨bs, g, _⟩ | ⟨e', g, he⟩ <;> rw [g] at hf <;> cases hf
      exact (fail (by rcases he with (rfl | rfl) | rfl <;> decide) h).elim
    | ok bs =>
      have hf' : fetchToken (faultFree s) = .ok bs := by
        unfold fetchToken at hf ⊢
        cases hb : peekBit s s.reader.rdpos with
        | error e => rw [hb] at hf; exact nomatch hf
        | ok b =>
          rw [hb] at hf
          rw [show peekBit (faultFree s) (faultFree s).reader.rdpos = .ok b from peekBit_faultFree hb]
          simp only [hp]
          cases hpf : poolFull s with
          | true => rw [hpf] at hf; exact nomatch hf
          | false =>
            rw [hpf] at hf
            cases b with
            | false => exact hf
            | true =>
              simp only at hf ⊢
              cases hr8 : peekBits s (s.reader.rdpos + 1) 8 with
              | error e => rw [hr8] at hf; exact nomatch hf
              | ok bs' =>
                rw [hr8] at hf
                rw [show peekBits (faultFree s) ((faultFree s).reader.rdpos + 1) 8 = .ok bs' from peekBits_faultFree hr8]
                exact hf
      have hpf : poolFull s = false := by
        rcases fetchToken_cases s with ⟨_, _, g⟩ | ⟨_, _, _, _, g⟩ | ⟨e, g, _⟩
        · exact g
        · exact g
        · rw [hf] at g; exact nomatch g
      rw [hf] at h
      rw [hf']
      rcases fetchToken_cases s with ⟨g, _⟩ | ⟨bs', g, _, hl, _⟩ | ⟨e, g, _⟩ <;> rw [g] at hf <;> cases hf
      · simp only [decode, decodeToken, exec, execTokenInternal, ha, ha', hp, hpf] at h ⊢
        cases h; rfl
      · have hd := decodeToken_leaf bs' [] hl
        rw [List.append_nil] at hd
        simp only [hd, exec, execTokenLeaf, ha, ha', hp, hpf] at h ⊢
        cases h
        simp only [takeLeaf]
        rw [show (faultFree s).work = s.work from rfl]
        simp only [Bool.false_eq_true, if_false]
        split <;> rfl
  · unfold rdCountStep fetchCount execFetched at h ⊢
    cases hf : peekBits s s.reader.rdpos 32 with
    | error e =>
      rw [hf] at h
      exact (fail (by rcases peekBits_error hf with rfl | rfl <;> decide) h).elim
    | ok bs =>
      rw [hf] at h
      rw [show peekBits (faultFree s) (faultFree s).reader.rdpos 32 = .ok bs from peekBits_faultFree hf]
      have hd := decodeCount_bits bs [] (peekBits_ok hf).1
      rw [List.append_nil] at hd
      simp only [hd, exec, execCount, ha, ha', checkCapacity, takeCount_latched] at h ⊢
      by_cases hc : s.latched.dstCap.toNat < (BitVec.ofNat 32 (natOfBits bs)).toNat
      · simp only [hc, if_true] at h
        exact (fail (e := .outputOverflow) (by decide) h).elim
      · have hc' : ¬(faultFree s).latched.dstCap.toNat < (BitVec.ofNat 32 (natOfBits bs)).toNat := hc
        simp only [hc, if_false] at h; cases h
        simp only [hc', if_false]; rfl
  · unfold decodeStep at h ⊢
    by_cases hn : s.results.symCount.toNat ≤ s.writer.outpos
    · have hn' : (faultFree s).results.symCount.toNat ≤ (faultFree s).writer.outpos := hn
      simp only [hn, if_true] at h; cases h
      simp only [hn', if_true]; rfl
    · have hn' : ¬(faultFree s).results.symCount.toNat ≤ (faultFree s).writer.outpos := hn
      simp only [hn, if_false] at h
      simp only [hn', if_false]
      rw [show (faultFree s).work = s.work from rfl, show (faultFree s).loop = s.loop from rfl]
      cases hk : (nodeAt s.work.nodes s.loop.cursor).kind with
      | leaf =>
        rw [hk] at h
        exact orBusError_faultFree (fun x => memWrite_faultFree) h ht fun x hx => by cases hx; rfl
      | internal =>
        rw [hk] at h
        simp only [fetchPayload, execFetched] at h ⊢
        cases hf : peekBits s s.reader.rdpos 1 with
        | error e =>
          rw [hf] at h
          exact (fail (by rcases peekBits_error hf with rfl | rfl <;> decide) h).elim
        | ok bs =>
          rw [hf] at h
          rw [show peekBits (faultFree s) (faultFree s).reader.rdpos 1 = .ok bs from peekBits_faultFree hf]
          obtain ⟨b, rfl⟩ := List.length_eq_one_iff.1 (peekBits_ok hf).1
          simp only [decodePayload_bit] at h ⊢
          rw [exec_payload_decode b hr] at h
          rw [exec_payload_decode b hr']
          cases h; rfl

/-! ### A run -/

/-- A run without host moves that ends without error is the run on the platform without faults. -/
theorem run_faultFree {k : Nat} {s t : State} (h : run k s = .next t) (hh : s.host = [])
    (he : s.status.errcode = .noError) (ht : t.status.errcode = .noError) :
    run k (faultFree s) = .next (faultFree t) := by
  induction k generalizing s with
  | zero => cases h; rfl
  | succ k ih =>
    cases hs : step s with
    | fault r => simp [run, hs] at h
    | refused r => simp [run, hs] at h
    | next u =>
      rw [run_succ k hs] at h
      by_cases hb : s.status.busy = true
      · have hu : u.host = [] ∧ (u.status.errcode = .noError ∨ u.status.busy = false) := by
          have hm := engineMove_of_step (engineTurn_self hh) hb hs
          cases hm <;> simp [hh, he]
        have hue : u.status.errcode = .noError := hu.2.elim id fun hub => by
          rw [run_idle hu.1 hub] at h; cases h; exact ht
        have hr : Running s.status.phase s := ⟨hb, rfl⟩
        rw [step_phase (engineTurn_self hh) hr] at hs
        rw [run_succ k (t := faultFree u)]
        · exact ih h hu.1 hue
        · rw [step_phase (engineTurn_self (s := faultFree s) hh) (p := s.status.phase) hr]
          exact phaseStep_faultFree hr hs hue
      · have hb : s.status.busy = false := by simpa using hb
        rw [step_engine (engineTurn_self hh), engineStep_idle hb] at hs
        cases hs
        rw [run_succ k (t := faultFree s)]
        · exact ih h hh he
        · rw [step_engine (engineTurn_self (s := faultFree s) hh), engineStep_idle (s := faultFree s) hb]

end Sys2Proof.Machine
end

