-- ==== Sys2Proof/Laws/HostMove.lean ====
section
/-! SUPPORT. Everything a move of the host can do (46_host_interface.md), for the whole-machine statements. -/

namespace Sys2Proof.Machine

theorem commandWrite_busy (v : Word) {s : State} (h : s.status.busy = true) : commandWrite v s = s := by
  simp [commandWrite, h]

theorem commandWrite_idle (v : Word) {s : State} (h : s.status.busy = false) :
    commandWrite v s = startCommand v s := by
  simp [commandWrite, h]

/-- The move of the host from `u` (its queue already shorter) to its second argument. -/
inductive HostEffect (u : State) : HostMove → State → Prop
  | read (addr : Word) (r : Reg) (h : accessedReg u.platform addr 4 = some r) :
      HostEffect u (.read addr 4) (hostRead r u)
  | command (addr : Word) (v : Word) (h : accessedReg u.platform addr 4 = some .cmd) :
      HostEffect u (.write addr 4 v) (commandWrite v u)
  | write (addr : Word) (v : Word) (r : Reg) (h : accessedReg u.platform addr 4 = some r) (hr : r ≠ .cmd) :
      HostEffect u (.write addr 4 v) (hostWriteReg r v u)
  | memRead (a : Word) (h : u.status.busy = true → inDest u.latched a.toNat = false) :
      HostEffect u (.memRead a) { u with rdata := (readByte a.toNat u.mem).setWidth 32 }
  | memWrite (a : Word) (v : Byte)
      (h : u.status.busy = true → inSource u.latched a.toNat = false ∧ inDest u.latched a.toNat = false) :
      HostEffect u (.memWrite a v) { u with mem := writeByte a.toNat v u.mem }
  | reset : HostEffect u .reset (resetBlock u)

theorem accessedReg_bytes {p : Platform} {addr : Word} {bytes : Nat} {r : Reg}
    (h : accessedReg p addr bytes = some r) : bytes = 4 := by
  unfold accessedReg at h
  by_contra hne
  simp [hne] at h

/-- A host's step that answers a next state is one of these moves. -/
theorem hostEffect_of_step {s t : State} {m : HostMove} {rest : List HostMove} (h : s.host = m :: rest)
    (hm : m ≠ .pass) (hs : step s = .next t) : HostEffect { s with host := rest } m t := by
  rw [step_host h] at hs
  generalize hu : { s with host := rest } = u at hs ⊢
  cases m <;> simp only [hostMove] at hs
  · exact absurd rfl hm
  · split at hs <;> cases hs
    next hr =>
    cases accessedReg_bytes hr
    exact .read _ _ hr
  · split at hs
    · exact nomatch hs
    · next r hr =>
      cases accessedReg_bytes hr
      cases r <;> simp only [hostWrite, hostWriteCmd_eq] at hs <;> cases hs
      · exact .command _ _ hr
      all_goals exact .write _ _ _ hr (by simp)
  · unfold hostMemRead at hs
    split at hs
    · exact nomatch hs
    · next a hb =>
      cases hs
      exact .memRead a (by simpa using hb)
  · unfold hostMemWrite at hs
    split at hs
    · exact nomatch hs
    · next a v hb =>
      cases hs
      exact .memWrite a v (by simpa using hb)
  · cases hs
    exact .reset

/-! ### Memory keeps its canonical form -/

theorem memWf_freeDest (w : Windows) (draw n : Nat) {m : List Host.Cell} (h : Memory.wf m) :
    Memory.wf (freeDest w draw n m) := by
  induction n with
  | zero => exact h
  | succ n ih =>
    simp only [freeDest]
    split
    · next hc => exact memWf_writeByte _ ih hc.1
    · exact ih

/-- Every move of the host keeps the canonical form. -/
theorem memWf_hostEffect {m : HostMove} {u t : State} (h : HostEffect u m t) (hw : Memory.wf u.mem) :
    Memory.wf t.mem := by
  cases h with
  | read _ r => unfold hostRead; split <;> exact hw
  | command _ v => unfold commandWrite; split <;> exact hw
  | write _ v r =>
    cases r <;> simp only [hostWriteReg] <;> repeat' split
    all_goals exact hw
  | memRead a => exact hw
  | memWrite a v => exact memWf_writeByte v hw a.isLt
  | reset => exact memWf_freeDest _ _ _ hw

end Sys2Proof.Machine
end

