-- ==== Sys2Proof/Laws/PerInstr.lean ====
section
/-! SUPPORT. The families of statements made once per instruction. -/

namespace Sys2Proof.Laws.EncodeLength

/-- The length in bits of an instruction's encoding (R92): 32 for a command word and the count field, 1 and 9 for the
tokens, 1 for a payload bit. -/
def Statement (i : Instr) : Prop :=
  (encode i).length = match i with
    | .compress => 32
    | .decompress => 32
    | .tokenInternal => 1
    | .tokenLeaf _ => 9
    | .count _ => 32
    | .payloadLeft => 1
    | .payloadRight => 1

theorem compress : Statement .compress := rfl

theorem decompress : Statement .decompress := rfl

theorem tokenInternal : Statement .tokenInternal := rfl

theorem tokenLeaf (sym : Byte) : Statement (.tokenLeaf sym) := rfl

theorem count (n : Word) : Statement (.count n) := rfl

theorem payloadLeft : Statement .payloadLeft := rfl

theorem payloadRight : Statement .payloadRight := rfl

end Sys2Proof.Laws.EncodeLength
end

