-- ==== Sys2Proof/Tests/Slice0.lean ====
section
/-! SUPPORT. Tests: well-formedness, decoding of words written out from the spec's encodings, one-step tests of each
instruction from the spec's vectors, and for each obligation with hypotheses a state and operands that meet them. -/

namespace Sys2Proof.Tests

open Sys2Proof Sys2Proof.Machine Sys2Proof.Safety

/-! ### Well-formedness -/

theorem test_wellFormed_accepts :
    Instr.compress.wellFormed .cmd = true ∧ (Instr.tokenLeaf 0xFF#8).wellFormed .treeToken = true
      ∧ (Instr.count 0xFFFFFFFF#32).wellFormed .count32 = true ∧ Instr.payloadRight.wellFormed .payloadBit = true := by
  decide

/-- An instruction standing where another format is read is refused. -/
theorem test_wellFormed_refuses :
    Instr.compress.wellFormed .treeToken = false ∧ Instr.tokenInternal.wellFormed .payloadBit = false
      ∧ Instr.payloadLeft.wellFormed .treeToken = false ∧ (Instr.count 1#32).wellFormed .cmd = false := by
  decide

/-! ### Decoding words written out from R81, R83, R86 and R88 -/

/-- R81: RSVD, then OP = 0001. -/
theorem test_decode_compress :
    decode .cmd [false, false, false, false, false, false, false, false, false, false, false, false, false, false,
      false, false, false, false, false, false, false, false, false, false, false, false, false, false,
      false, false, false, true] = .ok (.compress, []) := by decide

/-- R81: RSVD, then OP = 0010. -/
theorem test_decode_decompress :
    decode .cmd [false, false, false, false, false, false, false, false, false, false, false, false, false, false,
      false, false, false, false, false, false, false, false, false, false, false, false, false, false,
      false, false, true, false] = .ok (.decompress, []) := by decide

/-- R81: a reserved operation, a reserved bit, and both commands' words with bit 31 set. -/
theorem test_decode_illegal_commands :
    decodeCmd 0x00000000#32 = .error .reservedOperation ∧ decodeCmd 0x0000000F#32 = .error .reservedOperation
      ∧ decodeCmd 0x80000001#32 = .error .reservedBitsSet ∧ decodeCmd 0x80000002#32 = .error .reservedBitsSet := by
  decide

/-- R86: `0`. -/
theorem test_decode_tokenInternal : decode .treeToken [false] = .ok (.tokenInternal, []) := by decide

/-- R86: `1` and the symbol 'A' = 0x41, most significant bit first; eight bits are too few. -/
theorem test_decode_tokenLeaf :
    decode .treeToken [true, false, true, false, false, false, false, false, true] = .ok (.tokenLeaf 0x41#8, [])
      ∧ decode .treeToken [true, false, true, false, false, false, false, false] = .error .endOfBits := by decide

/-- R83: the count 10 as 32 bits. -/
theorem test_decode_count :
    decode .count32 [false, false, false, false, false, false, false, false, false, false, false, false, false, false,
      false, false, false, false, false, false, false, false, false, false, false, false, false, false,
      true, false, true, false] = .ok (.count 10#32, []) := by decide

/-- R88. -/
theorem test_decode_payload :
    decode .payloadBit [false] = .ok (.payloadLeft, []) ∧ decode .payloadBit [true] = .ok (.payloadRight, []) := by
  decide

/-- R83: the stream of "AAAAABBBCC" begins 50 54: INTERNAL, LEAF 'A', INTERNAL, and a LEAF flag. -/
theorem test_decode_vector_E1 :
    decodeBytes .treeToken [0x50#8, 0x54#8]
        = .ok (.tokenInternal, [true, false, true, false, false, false, false, false, true, false, true, false, true,
            false, false])
      ∧ decode .treeToken [true, false, true, false, false, false, false, false, true, false, true, false, true,
            false, false] = .ok (.tokenLeaf 0x41#8, [false, true, false, true, false, false]) := by
  decide

/-! ### Small states -/

/-- Two source bytes at 0x1000, sixteen destination bytes at 0x2000. -/
def windows : Windows := ⟨0x1000#32, 2#32, 0x2000#32, 16#32⟩

/-- The block idle, with the source "AB" in memory. -/
def idle : State := { State.reset with win := windows, mem := [(0x1000, 0x41#8), (0x1001, 0x42#8)] }

/-- A command in a phase, everything else as at its start. -/
def running (p : Phase) : State := (startCommand 1#32 idle).toPhase p

/-- A state with one host move pending. -/
def host (m : HostMove) (s : State) : State := { s with host := [m] }

/-- A state on a platform whose accesses of one kind fault at one address. -/
def faulty (k : AccessKind) (a : Nat) (s : State) : State := { s with platform := ⟨0#26, [⟨k, a, a⟩]⟩ }

/-- The tree of "AB" (vector B3): leaves 0 and 1 under node 2. -/
def treeAB : List (Nat × Node) :=
  [(0, ⟨.leaf, 0x41#8, 1#32, 0, 0⟩), (1, ⟨.leaf, 0x42#8, 1#32, 0, 0⟩), (2, ⟨.internal, 0#8, 2#32, 0, 1⟩)]

/-- The tree of "AB" in the node pool, its walk at the root. -/
def withTree (s : State) : State :=
  { s with
    work := { s.work with nodes := treeAB, nnodes := 3, root := 2, stack := walkFrom 2 }
    loop := { s.loop with cursor := 2 } }

/-- A state with a count in SYM_COUNT. -/
def withCount (n : Word) (s : State) : State := { s with results := { s.results with symCount := n } }

/-- A writer holding `n` zero bits. -/
def withBits (n : BitVec 3) (s : State) : State := { s with writer := ⟨0#8, n, 0, n.toNat⟩ }

/-- The state a step answers, if it answers one. -/
def after (o : Out) : Option State :=
  match o with
  | .next t => some t
  | _ => none

/-! ### One-step tests -/

/-- R211. -/
theorem test_compress_starts :
    (after (exec .compress idle)).map (fun t => (t.cmd, t.status, t.latched, t.reader.rdlimit))
      = some (1#32, ⟨true, false, .noError, .check⟩, windows, 16) := by decide

/-- R213. -/
theorem test_compress_busy : after (exec .compress (running .encode)) = some (running .encode) := by decide

/-- R211. -/
theorem test_decompress_starts :
    (after (exec .decompress idle)).map (fun t => (t.cmd, t.status, t.results))
      = some (2#32, ⟨true, false, .noError, .check⟩, ⟨0#32, 0#32, 0#32, 0#32⟩) := by decide

/-- R213. -/
theorem test_decompress_busy : after (exec .decompress (running .freq)) = some (running .freq) := by decide

/-- R152 and vector E6's first bit: `0` into an empty writer, then on to the left child, LEAF 'A'. -/
theorem test_tokenInternal_written :
    (after (exec .tokenInternal (withTree (running .serTree)))).map (fun t => (t.writer, t.work.stack.head?))
      = some (⟨0#8, 1#3, 0, 1⟩, some ⟨0, .left⟩) := by decide

/-- R156: slot 0, one bit consumed, awaiting its left child. -/
theorem test_tokenInternal_read :
    (after (exec .tokenInternal (running .deserTree))).map
        (fun t => ((nodeAt t.work.nodes 0).kind, t.work.nnodes, t.reader.rdpos, t.work.stack))
      = some (.internal, 1, 1, [⟨0, .left⟩]) := by decide

/-- R151 and vector E3: the stream of "A" begins A0, and its ninth bit is 1. -/
theorem test_tokenLeaf_written :
    (after (exec (.tokenLeaf 0x41#8) (running .serTree))).map (fun t => (readByte 0x2000 t.mem, t.writer))
      = some (0xA0#8, ⟨0x80#8, 1#3, 1, 9⟩) := by decide

/-- R158, R155 and vector E3: a single LEAF is the whole tree: LEAF_COUNT 1, TREE_BITS 9. -/
theorem test_tokenLeaf_read :
    (after (exec (.tokenLeaf 0x41#8) (running .deserTree))).map
        (fun t => (t.status.phase, t.results.leafCount, t.results.treeBits, (nodeAt t.work.nodes 0).sym))
      = some (.rdCount, 1#32, 9#32, 0x41#8) := by decide

/-- R175: the four bytes of 10, most significant first. -/
theorem test_count_written :
    (after (exec (.count 10#32) (running .wrCount))).map
        (fun t => (readByte 0x2000 t.mem, readByte 0x2002 t.mem, readByte 0x2003 t.mem, t.status.phase))
      = some (0#8, 0#8, 10#8, .encode) := by decide

/-- R193 and vector X4's rule: N = DST_CAP passes, N = DST_CAP + 1 does not. -/
theorem test_count_read :
    (after (exec (.count 16#32) (running .rdCount))).map (fun t => (t.status.phase, t.status.busy))
        = some (.decode, true)
      ∧ (after (exec (.count 17#32) (running .rdCount))).map (fun t => (t.status, t.results.outLen))
        = some (⟨false, true, .outputOverflow, .rdCount⟩, 17#32) := by decide

/-- R100: the eighth bit writes the byte. -/
theorem test_payloadLeft_written :
    (after (exec .payloadLeft { running .encode with writer := ⟨0xFE#8, 7#3, 0, 7⟩ })).map
        (fun t => (readByte 0x2000 t.mem, t.writer))
      = some (0xFE#8, ⟨0#8, 0#3, 1, 8⟩) := by decide

/-- R195: `0` descends left, to LEAF 'A'. -/
theorem test_payloadLeft_read :
    (after (exec .payloadLeft (withTree (running .decode)))).map (fun t => (t.loop.cursor, t.reader.rdpos))
      = some (0, 1) := by decide

/-- R100: `1` into bit 7 of an empty ACC; into bit 0, with a bus error on the byte's write, ACC and WBITS have it. -/
theorem test_payloadRight_written :
    (after (exec .payloadRight (running .encode))).map (fun t => t.writer) = some ⟨0x80#8, 1#3, 0, 1⟩
      ∧ (after (exec .payloadRight (faulty .write 0x2000 { running .encode with writer := ⟨0xA4#8, 7#3, 0, 7⟩ }))).map
          (fun t => (t.status.errcode, t.writer.acc, t.writer.outpos, t.writer.wbits))
        = some (.busError, 0xA5#8, 0, 8) := by decide

/-- R196: `1` descends right, to LEAF 'B'. -/
theorem test_payloadRight_read :
    (after (exec .payloadRight (withTree (running .decode)))).map (fun t => (t.loop.cursor, t.reader.rdpos))
      = some (1, 1) := by decide

/-! ### The host's checks of the two placing functions -/

theorem test_table_words :
    decodeTableWord 32 1 = some .compress ∧ decodeTableWord 32 2 = some .decompress
      ∧ decodeTableWord 8 0 = some .tokenInternal ∧ decodeTableWord 16 0x141 = some (.tokenLeaf 0x41#8)
      ∧ decodeTableWord 32 0 = some (.count 0#32) ∧ decodeTableWord 8 1 = some .payloadRight := by decide

theorem test_placed_leaf_runs_first :
    (after (step (State.reset.withFetchWord 16 0x141))).map (fun t => (t.reader.rdpos, (nodeAt t.work.nodes 0).sym))
      = some (9, 0x41#8) := by decide

/-! ### Witnesses: states and operands that meet the hypotheses of the obligations -/

theorem turn (s : State) (h : s.host = []) : EngineTurn s s := .inl ⟨h, rfl⟩

/-- A host's pass gives the turn to the engine as well. -/
theorem turn_pass (s : State) (h : s.host = []) : EngineTurn (host .pass s) s :=
  .inr ⟨[], rfl, by cases s; simp only at h; subst h; rfl⟩

theorem witness_DecodeEncodeRoundTrip :
    Instr.compress.wellFormed .cmd = true ∧ Instr.decompress.wellFormed .cmd = true
      ∧ Instr.tokenInternal.wellFormed .treeToken = true ∧ (Instr.tokenLeaf 0#8).wellFormed .treeToken = true
      ∧ (Instr.count 0#32).wellFormed .count32 = true ∧ Instr.payloadLeft.wellFormed .payloadBit = true
      ∧ Instr.payloadRight.wellFormed .payloadBit = true := by decide

theorem witness_DecodedBitsAreTheEncoding :
    decode .cmd (msbBits 1 32) = .ok (.compress, []) ∧ decode .treeToken [false, true] = .ok (.tokenInternal, [true])
      ∧ decode .count32 (msbBits 0xFFFFFFFF 32) = .ok (.count 0xFFFFFFFF#32, [])
      ∧ decode .payloadBit [true] = .ok (.payloadRight, []) := by decide

theorem witness_CommandWordsExact :
    let s := { running .check with cmd := 0x00000003#32 }
    EngineTurn s s ∧ Running .check s ∧ s.cmd ≠ 0x00000001#32 ∧ s.cmd ≠ 0x00000002#32 :=
  ⟨turn _ rfl, by decide, by decide, by decide⟩

theorem witness_StepRunsTheDecodedInstruction_command :
    (host (.write (regAddr idle.platform 0) 4 2#32) idle).host = .write (regAddr idle.platform 0) 4 2#32 :: []
      ∧ decodeCmd 2#32 = .ok .decompress := ⟨rfl, by decide⟩

/-- The source "AB" = 0100000101000010 read as tokens, as a count (with 32 bits in the window), as payload bits. -/
theorem witness_StepRunsTheDecodedInstruction_read :
    (let s := running .deserTree
     EngineTurn s s ∧ Running .deserTree s ∧ fetchToken s = .ok [false]
      ∧ decode .treeToken [false] = .ok (.tokenInternal, []))
    ∧ (let s := { running .rdCount with reader := ⟨0, 32⟩ }
     EngineTurn s s ∧ Running .rdCount s ∧ fetchCount s = .ok (msbBits 0x41420000 32)
      ∧ decode .count32 (msbBits 0x41420000 32) = .ok (.count 0x41420000#32, []))
    ∧ (let s := withCount 1#32 (withTree (running .decode))
     EngineTurn s s ∧ Running .decode s ∧ s.writer.outpos < s.results.symCount.toNat
      ∧ (nodeAt s.work.nodes s.loop.cursor).kind = .internal ∧ fetchPayload s = .ok [false]
      ∧ decode .payloadBit [false] = .ok (.payloadLeft, [])) :=
  ⟨⟨turn _ rfl, by decide, by decide, by decide⟩, ⟨turn _ rfl, by decide, by decide, by decide⟩,
    ⟨turn _ rfl, by decide, by decide, by decide, by decide, by decide⟩⟩

theorem witness_StepRunsTheDecodedInstruction_written :
    (let s := withTree (running .serTree)
     EngineTurn s s ∧ Running .serTree s ∧ serToken s = some .tokenInternal)
    ∧ (let s := running .wrCount
     EngineTurn s s ∧ Running .wrCount s)
    ∧ (let s := { running .encode with loop := ⟨1, [true], 0⟩ }
     EngineTurn s s ∧ Running .encode s ∧ s.loop.codeRest = true :: []) :=
  ⟨⟨turn _ rfl, by decide, by decide⟩, ⟨turn _ rfl, by decide⟩, ⟨turn _ rfl, by decide, by decide⟩⟩

theorem witness_CommandStart :
    let write := fun s : State => host (.write (regAddr s.platform 0) 4 0xFFFFFFFF#32) s
    ((write idle).status.busy = false
        ∧ (write idle).host = .write (regAddr (write idle).platform 0) 4 0xFFFFFFFF#32 :: [])
      ∧ ((write (running .final)).status.busy = true
        ∧ (write (running .final)).host = .write (regAddr (write (running .final)).platform 0) 4 0xFFFFFFFF#32 :: []) :=
  ⟨⟨rfl, rfl⟩, rfl, rfl⟩

/-- Every register offset, from the first to the last, with BUSY = 0 and with BUSY = 1. -/
theorem witness_register_accesses :
    ∀ k, k < 16 → ∀ s ∈ [idle, running .freq],
      (host (.write (regAddr s.platform k) 4 3#32) s).host = .write (regAddr s.platform k) 4 3#32 :: []
        ∧ (host (.read (regAddr s.platform k) 4) s).host = .read (regAddr s.platform k) 4 :: []
        ∧ (host (.read (regAddr s.platform k) 4) s).status = s.status :=
  fun _ _ _ _ => ⟨rfl, rfl, rfl⟩

theorem witness_RegisterWrites : idle.status.busy = false ∧ (running .freq).status.busy = true := by decide

theorem witness_StatusWriteClearsDone :
    (2#32).getLsbD 1 = true ∧ (0xFFFFFFFD#32).getLsbD 1 = false ∧ idle.status.busy = false
      ∧ (running .size).status.busy = true := by decide

theorem witness_OddRegisterAccessesRefused :
    let base := regBaseAddr State.reset.platform
    2 ≠ 4 ∧ (base + 2#32 - base).toNat % 4 ≠ 0 ∧ 64 ≤ (base + 64#32 - base).toNat ∧ 64 ≤ (base - 4#32 - base).toNat := by
  decide

theorem witness_InterruptLevel :
    (let s := { running .final with irqEn := true }
     EngineTurn s s ∧ s.status.busy = true ∧ ∃ t, step s = .next t ∧ t.status.busy = false)
    ∧ idle.status.busy = false ∧ (2#32).getLsbD 1 = true
    ∧ { idle with status := ⟨false, true, .noError, .final⟩ }.status.done = true :=
  ⟨⟨turn _ rfl, rfl, _, rfl, rfl⟩, rfl, by decide, rfl⟩

theorem witness_BusyChanges :
    (∃ t, step (host (.write (regAddr idle.platform 0) 4 1#32) idle) = .next t ∧ t.status.busy = true)
      ∧ (∃ t, step (host .reset (running .freq)) = .next t ∧ t.status.busy = false)
      ∧ ∃ t, step (running .final) = .next t ∧ t.status.busy = false :=
  ⟨⟨_, rfl, rfl⟩, ⟨_, rfl, rfl⟩, _, rfl, rfl⟩

theorem witness_DoneChanges :
    (∃ t, step (running .final) = .next t ∧ (running .final).status.done = false ∧ t.status.done = true)
      ∧ (let s := { idle with status := ⟨false, true, .noError, .final⟩ }
        (∃ t, step (host .reset s) = .next t ∧ t.status.done = false)
          ∧ (∃ t, step (host (.write (regAddr s.platform 0) 4 1#32) s) = .next t ∧ t.status.done = false)
          ∧ ∃ t, step (host (.write (regAddr s.platform 1) 4 2#32) s) = .next t ∧ t.status.done = false) :=
  ⟨⟨_, rfl, rfl, rfl⟩, ⟨_, rfl, rfl⟩, ⟨_, rfl, rfl⟩, _, rfl, rfl⟩

/-- The first and the last byte of the destination window, in a running command; an idle block. -/
theorem witness_ResetReturnsTheBlock :
    let s := host .reset (running .encode)
    s.host = .reset :: [] ∧ s.status.busy = true ∧ (host .reset idle).status.busy = false
      ∧ inSource s.latched 0x1001 = true ∧ inDest s.latched 0x2010 = false
      ∧ ∀ j ∈ [0, 15], j < s.latched.dstCap.toNat ∧ s.latched.dstAddr.toNat + j < 2 ^ 32
        ∧ inSource s.latched (s.latched.dstAddr.toNat + j) = false := by decide

theorem witness_HostMemoryDuties :
    let s := running .freq
    (s.status.busy = true ∧ (inSource s.latched (0x1000#32 : Word).toNat = true))
      ∧ (s.status.busy = true ∧ inDest s.latched (0x200F#32 : Word).toNat = true)
      ∧ ¬(s.status.busy = true
        ∧ (inSource s.latched (0x1002#32 : Word).toNat = true ∨ inDest s.latched (0x1002#32 : Word).toNat = true))
      ∧ ¬(idle.status.busy = true ∧ inDest idle.latched (0x2000#32 : Word).toNat = true) := by decide

theorem witness_IdleEngineChangesNothing : EngineTurn (host .pass idle) idle ∧ idle.status.busy = false :=
  ⟨turn_pass _ rfl, rfl⟩

/-- Each way CHECK refuses, one byte beyond the limit, and the limit itself. -/
theorem witness_CheckPhase :
    let at_ := fun (c : Word) (w : Windows) => { running .check with cmd := c, latched := w }
    (∀ c w, EngineTurn (at_ c w) (at_ c w) ∧ Running .check (at_ c w))
      ∧ 2 ^ 32 < (0xFFFFFFFF#32 : Word).toNat + (2#32 : Word).toNat
      ∧ ¬2 ^ 32 < (0xFFFFFFFF#32 : Word).toNat + (1#32 : Word).toNat
      ∧ windowsLegal ⟨0xFFFFFFFF#32, 2#32, 0x2000#32, 16#32⟩ = false
      ∧ windowsLegal ⟨0xFFFFFFFF#32, 1#32, 0x2000#32, 16#32⟩ = true
      ∧ windowsLegal ⟨0x1000#32, 2#32, 0xFFFFFFF1#32, 16#32⟩ = false
      ∧ windowsLegal ⟨0x1000#32, 2#32, 0xFFFFFFF0#32, 16#32⟩ = true
      ∧ windowsLegal ⟨0x1000#32, 2#32, 0x1001#32, 16#32⟩ = false
      ∧ windowsLegal ⟨0x1000#32, 2#32, 0x1002#32, 16#32⟩ = true := by
  refine ⟨fun c w => ⟨turn _ rfl, ⟨rfl, rfl⟩⟩, ?_⟩
  decide

theorem witness_PhaseOrder :
    (∃ t, step (running .check) = .next t ∧ t.status.busy = true ∧ t.status.phase = .freq)
      ∧ (∃ t, step { running .freq with loop := ⟨2, [], 0⟩ } = .next t ∧ t.status.phase = .build
        ∧ t.status.busy = true)
      ∧ (∃ t, step { running .freq with latched := ⟨0#32, 0#32, 0x2000#32, 6#32⟩ } = .next t
        ∧ t.status.phase = .size ∧ t.status.busy = true)
      ∧ (∃ t, step (running .wrCount) = .next t ∧ t.status.phase = .encode)
      ∧ ∃ t, step { running .wrCount with latched := ⟨0#32, 0#32, 0x2000#32, 6#32⟩ } = .next t
        ∧ t.status.phase = .final :=
  ⟨⟨_, rfl, rfl, rfl⟩, ⟨_, rfl, rfl, rfl⟩, ⟨_, rfl, rfl, rfl⟩, ⟨_, rfl, rfl⟩, _, rfl, rfl⟩

/-- A command ends without error, and with OUTPUT_OVERFLOW. -/
theorem witness_CommandEnd :
    (∃ t, step (running .final) = .next t ∧ t.status.busy = false ∧ t.status.errcode = .noError)
      ∧ ∃ t, step { running .size with latched := ⟨0#32, 0#32, 0x2000#32, 5#32⟩ } = .next t ∧ t.status.busy = false
        ∧ t.status.errcode = .outputOverflow :=
  ⟨⟨_, rfl, rfl, rfl⟩, _, rfl, rfl, rfl⟩

/-- Source bytes; then a token, the count and a payload bit that fail on their first, a middle and their last bit, by a
truncated stream and by a bus error (vectors T13, X13). -/
theorem witness_ReadErrors :
    (let s := faulty .read 0x1000 (running .freq)
     Running .freq s ∧ s.loop.idx < s.latched.srcLen.toNat
      ∧ busFault s.platform .read (srcByteAddr s s.loop.idx) = true)
    ∧ (let s := { faulty .read 0x1001 (running .encode) with loop := ⟨1, [], 0⟩ }
     Running .encode s ∧ s.loop.codeRest = [] ∧ s.loop.idx < s.latched.srcLen.toNat
      ∧ busFault s.platform .read (srcByteAddr s s.loop.idx) = true)
    ∧ (let s := { running .deserTree with reader := ⟨16, 16⟩ }
     FailsAfter s 0 .truncatedInput ∧ Running .deserTree s)
    ∧ (let s := { running .deserTree with reader := ⟨0, 8⟩, mem := [(0x1000, 0x80#8)] }
     FailsAfter s 8 .truncatedInput ∧ Running .deserTree s ∧ s.work.nnodes < Config.nodePool
      ∧ peekBit s s.reader.rdpos = .ok true)
    ∧ (let s := { faulty .read 0x1001 (running .deserTree) with reader := ⟨7, 16⟩ }
     FailsAfter s 1 .busError ∧ Running .deserTree s ∧ s.work.nnodes < Config.nodePool
      ∧ peekBit s s.reader.rdpos = .ok true)
    ∧ (let s := { running .rdCount with reader := ⟨9, 16⟩ }
     FailsAfter s 7 .truncatedInput ∧ Running .rdCount s)
    ∧ (let s := { faulty .read 0x1001 (running .rdCount) with reader := ⟨8, 16⟩ }
     FailsAfter s 0 .busError ∧ Running .rdCount s)
    ∧ (let s := { faulty .read 0x1004 (running .rdCount) with reader := ⟨1, 40⟩ }
     FailsAfter s 31 .busError ∧ Running .rdCount s)
    ∧ (let s := { withCount 1#32 (withTree (running .decode)) with reader := ⟨16, 16⟩ }
     FailsAfter s 0 .truncatedInput ∧ Running .decode s ∧ s.writer.outpos < s.results.symCount.toNat
      ∧ (nodeAt s.work.nodes s.loop.cursor).kind = .internal) := by
  refine ⟨?_, ?_, ?_, ?_, ?_, ?_, ?_, ?_, ?_⟩ <;> decide

/-- Vector T13's rule (R158) on its first byte: the symbol of a LEAF ends after 7 bits, its slot allocated. -/
theorem test_leaf_symbol_truncated :
    (after (step { running .deserTree with reader := ⟨0, 8⟩, mem := [(0x1000, 0x80#8)] })).map
        (fun t => (t.status, t.reader.rdpos, t.work.nnodes, t.results.leafCount))
      = some (⟨false, true, .truncatedInput, .deserTree⟩, 8, 1, 0#32) := by decide

/-- Vector X13: the count of the stream 80 00 ends after 7 bits. -/
theorem test_count_truncated :
    (after (step { running .rdCount with reader := ⟨9, 16⟩, mem := [(0x1000, 0x80#8)] })).map
        (fun t => (t.status, t.reader.rdpos, t.results.symCount))
      = some (⟨false, true, .truncatedInput, .rdCount⟩, 16, 0#32) := by decide

theorem witness_FreqStepCountsOneByte :
    (let s := running .freq
     EngineTurn s s ∧ Running .freq s ∧ s.loop.idx < s.latched.srcLen.toNat
      ∧ readSource s s.loop.idx = .ok 0x41#8)
    ∧ (let s := { running .freq with loop := ⟨2, [], 0⟩ }
     EngineTurn s s ∧ Running .freq s ∧ s.latched.srcLen.toNat ≤ s.loop.idx) :=
  ⟨⟨turn _ rfl, by decide, by decide, by decide⟩, turn _ rfl, by decide, by decide⟩

theorem readable (s : State) (h : s.platform.faults = []) : SourceReadable s := fun i _ => by
  simp [busFault, h]

theorem writable (s : State) (n : Nat) (h : s.platform.faults = []) : DestWritable s n := fun i _ => by
  simp [busFault, h]

theorem witness_FreqCountsTheSource :
    let s := running .freq
    Running .freq s ∧ s.host = [] ∧ s.loop.idx = 0 ∧ s.work.freq = [] ∧ SourceReadable s :=
  ⟨by decide, rfl, rfl, rfl, readable _ rfl⟩

/-- R126: equal frequencies are told apart by the index. -/
theorem witness_ExtractMinIsLeast : extractMin treeAB [1, 0] = some (0, [1]) ∧ extractMin treeAB [] = none := by decide

/-- BUILD of "AAAAABBBCC" at its start (vector B1). -/
def buildStart : State :=
  { running .build with
    work := { (running .build).work with freq := [(0x41, 5#32), (0x42, 3#32), (0x43, 2#32)] } }

theorem witness_LeavesInOrder :
    EngineTurn buildStart buildStart ∧ Running .build buildStart ∧ buildStart.work.nnodes = 0
      ∧ storeWf 0#32 256 buildStart.work.freq ∧ 2 ≤ buildStart.work.freq.length :=
  ⟨turn _ rfl, by decide, by decide, by decide, by decide⟩

/-- R122's example: NODE[0] = Leaf('C', 2), NODE[2] = Leaf('A', 5). -/
theorem test_build_leaves :
    (after (step buildStart)).map (fun t => (nodeAt t.work.nodes 0, nodeAt t.work.nodes 2, t.work.wset))
      = some (⟨.leaf, 0x43#8, 2#32, 0, 0⟩, ⟨.leaf, 0x41#8, 5#32, 0, 0⟩, [0, 1, 2]) := by decide

theorem witness_SingleLeafTree :
    let s := { running .build with work := { (running .build).work with freq := [(0x41, 4#32)] } }
    EngineTurn s s ∧ Running .build s ∧ s.work.nnodes = 0 ∧ s.work.freq = [((0x41#8 : Byte).toNat, 4#32)] :=
  ⟨turn _ rfl, by decide, by decide, by decide⟩

theorem witness_MergeStep :
    (let s := { running .build with work := { (running .build).work with nodes := treeAB, nnodes := 2, wset := [0, 1] } }
     EngineTurn s s ∧ Running .build s ∧ s.work.nnodes ≠ 0 ∧ extractMin s.work.nodes s.work.wset = some (0, [1])
      ∧ extractMin s.work.nodes [1] = some (1, [])
      ∧ (nodeAt s.work.nodes 0).freq.toNat + (nodeAt s.work.nodes 1).freq.toNat < 2 ^ 32)
    ∧ (let s := { running .build with work := { (running .build).work with nodes := treeAB, nnodes := 3, wset := [2] } }
     EngineTurn s s ∧ Running .build s ∧ s.work.nnodes ≠ 0 ∧ s.work.wset = [2]) :=
  ⟨⟨turn _ rfl, by decide, by decide, by decide, by decide, by decide⟩, turn _ rfl, by decide, by decide, by decide⟩

/-- The tree of "AB". -/
def fullAB : FullTree := .node (.leaf 0x41#8) (.leaf 0x42#8)

theorem represents_AB : Represents treeAB 2 fullAB :=
  ⟨by decide, ⟨by decide, by decide⟩, by decide, by decide⟩

theorem witness_CodesWalk :
    let s := withTree (running .codes)
    Running .codes s ∧ s.host = [] ∧ s.work.stack = ⟨2, .left⟩ :: [] ∧ Represents s.work.nodes 2 fullAB :=
  ⟨by decide, rfl, rfl, represents_AB⟩

theorem witness_SerializerWritesTheTree :
    let s := withTree (running .serTree)
    Running .serTree s ∧ s.host = [] ∧ s.latched.srcLen ≠ 0#32 ∧ s.work.stack = ⟨2, .left⟩ :: []
      ∧ Represents s.work.nodes 2 fullAB ∧ CanAppend s (10 * fullAB.leaves - 1) :=
  ⟨by decide, rfl, by decide, rfl, represents_AB, by decide, by decide, fun _ _ _ => rfl⟩

/-- A stream that is the single leaf 'A' (vector E3's first nine bits). -/
theorem witness_DeserializerReadsTheTree :
    let s := { running .deserTree with mem := [(0x1000, 0xA0#8), (0x1001, 0x80#8)] }
    Running .deserTree s ∧ s.host = [] ∧ s.work.stack = [] ∧ s.work.nnodes = 0 ∧ s.reader.rdpos = 0
      ∧ (FullTree.leaf 0x41#8).size ≤ Config.nodePool
      ∧ peekBits s 0 (10 * (FullTree.leaf 0x41#8).leaves - 1) = .ok (FullTree.leaf 0x41#8).serialize := by decide

theorem witness_TreeOverflow :
    let s := { running .deserTree with work := { (running .deserTree).work with nnodes := 511 } }
    EngineTurn s s ∧ Running .deserTree s ∧ Config.nodePool ≤ s.work.nnodes ∧ peekBit s s.reader.rdpos = .ok false :=
  ⟨turn _ rfl, by decide, by decide, by decide⟩

/-- SIZE of "AB", with room for `cap` bytes. -/
def sizeAB (cap : Word) : State :=
  { running .size with
    work := { (withTree (running .size)).work with
      freq := [(0x41, 1#32), (0x42, 1#32)], code := [(0x41, ⟨true, [false]⟩), (0x42, ⟨true, [true]⟩)] }
    latched := ⟨0x1000#32, 2#32, 0x2000#32, cap⟩
    results := ⟨0#32, 2#32, 2#32, 0#32⟩ }

/-- Vector E6: seven bytes are needed; at DST_CAP = 6 and at DST_CAP = 7. -/
theorem witness_SizePhase :
    (EngineTurn (sizeAB 6#32) (sizeAB 6#32) ∧ Running .size (sizeAB 6#32) ∧ (sizeAB 6#32).latched.srcLen ≠ 0#32
        ∧ storeWf CodeEntry.cleared 256 (sizeAB 6#32).work.code
        ∧ (sizeAB 6#32).latched.dstCap.toNat < streamBytes (sizeAB 6#32))
      ∧ EngineTurn (sizeAB 7#32) (sizeAB 7#32) ∧ Running .size (sizeAB 7#32) ∧ (sizeAB 7#32).latched.srcLen ≠ 0#32
        ∧ storeWf CodeEntry.cleared 256 (sizeAB 7#32).work.code
        ∧ streamBytes (sizeAB 7#32) ≤ (sizeAB 7#32).latched.dstCap.toNat :=
  ⟨⟨turn _ rfl, by decide, by decide, by decide, by decide⟩, turn _ rfl, by decide, by decide, by decide, by decide⟩

theorem witness_EmptySourceStream :
    (let s := { running .size with latched := ⟨0#32, 0#32, 0x2000#32, 5#32⟩ }
     Running .size s ∧ s.host = [] ∧ s.latched.srcLen = 0#32 ∧ s.writer = ⟨0#8, 0#3, 0, 0⟩
      ∧ s.latched.dstCap.toNat < 6)
    ∧ (let s := { running .size with latched := ⟨0#32, 0#32, 0xFFFFFFFA#32, 6#32⟩ }
     Running .size s ∧ s.host = [] ∧ s.latched.srcLen = 0#32 ∧ s.writer = ⟨0#8, 0#3, 0, 0⟩
      ∧ 6 ≤ s.latched.dstCap.toNat ∧ passesTop s.latched.dstAddr s.latched.dstCap = false
      ∧ ∀ j, j < 6 → busFault s.platform .write (dstByteAddr s j) = false) := by decide

theorem witness_TokenLeafWritten : Running .serTree (running .serTree) ∧ CanAppend (running .serTree) 9 :=
  ⟨by decide, by decide, by decide, fun _ _ _ => rfl⟩

theorem witness_TokenInternalWritten : Running .serTree (running .serTree) ∧ CanAppend (running .serTree) 1 :=
  ⟨by decide, by decide, by decide, fun _ _ _ => rfl⟩

/-- A source with bytes, and an empty one whose four bytes just fit. -/
theorem witness_CountWritten :
    (let s := running .wrCount
     Running .wrCount s ∧ CanAppend s 32 ∧ s.latched.srcLen ≠ 0#32)
    ∧ (let s := { running .wrCount with latched := ⟨0#32, 0#32, 0x2000#32, 4#32⟩ }
     Running .wrCount s ∧ CanAppend s 32 ∧ s.latched.srcLen = 0#32) :=
  ⟨⟨by decide, ⟨by decide, by decide, fun _ _ _ => rfl⟩, by decide⟩,
    by decide, ⟨by decide, by decide, fun _ _ _ => rfl⟩, by decide⟩

/-- The bit that completes the last byte of the window. -/
theorem witness_PayloadBitsWritten :
    let s := { withBits 7#3 (running .encode) with latched := ⟨0x1000#32, 2#32, 0x2000#32, 1#32⟩ }
    Running .encode s ∧ CanAppend s 1 :=
  ⟨by decide, by decide, by decide, fun _ _ _ => rfl⟩

/-- A token, the count and a payload bit whose write faults on their first and on their last byte; FINAL; DECODE. -/
theorem witness_WriteBusError :
    (let s := faulty .write 0x2001 (withBits 7#3 (running .serTree))
     WriteFaultsAt s (encode (.tokenLeaf 0xFF#8)).length 1 ∧ Running .serTree s
      ∧ (Instr.tokenLeaf 0xFF#8).format = .treeToken)
    ∧ (let s := faulty .write 0x2000 (withBits 7#3 (running .serTree))
     WriteFaultsAt s (encode .tokenInternal).length 0 ∧ Running .serTree s ∧ Instr.tokenInternal.format = .treeToken)
    ∧ (let s := faulty .write 0x2003 { running .wrCount with latched := ⟨0x1000#32, 2#32, 0x2000#32, 4#32⟩ }
     WriteFaultsAt s (encode (.count 2#32)).length 3 ∧ Running .wrCount s ∧ (Instr.count 2#32).format = .count32)
    ∧ (let s := faulty .write 0x2000 (withBits 7#3 (running .encode))
     WriteFaultsAt s (encode .payloadLeft).length 0 ∧ Running .encode s ∧ Instr.payloadRight.format = .payloadBit)
    ∧ (let s := faulty .write 0x2000 (withBits 1#3 (running .final))
     EngineTurn s s ∧ Running .final s ∧ s.writer.nacc ≠ 0#3 ∧ s.writer.outpos < s.latched.dstCap.toNat
      ∧ busFault s.platform .write (dstByteAddr s s.writer.outpos) = true)
    ∧ (let s := faulty .write 0x2000 { withCount 1#32 (withTree (running .decode)) with loop := ⟨0, [], 1⟩ }
     EngineTurn s s ∧ Running .decode s ∧ s.writer.outpos < s.results.symCount.toNat
      ∧ (nodeAt s.work.nodes s.loop.cursor).kind = .leaf
      ∧ busFault s.platform .write (dstByteAddr s s.writer.outpos) = true) := by
  refine ⟨⟨⟨by decide, by decide, by decide, by decide, fun j _ h => ?_, by decide⟩, by decide, rfl⟩,
    ⟨⟨by decide, by decide, by decide, by decide, fun j _ h => absurd h (by omega), by decide⟩, by decide, rfl⟩,
    ⟨⟨by decide, by decide, by decide, by decide, fun j _ h => ?_, by decide⟩, by decide, rfl⟩,
    ⟨⟨by decide, by decide, by decide, by decide, fun j _ h => absurd h (by omega), by decide⟩, by decide, rfl⟩,
    ⟨turn _ rfl, by decide, by decide, by decide, by decide⟩,
    turn _ rfl, by decide, by decide, by decide, by decide⟩
  · obtain rfl : j = 0 := by omega
    decide
  · obtain rfl | rfl | rfl : j = 0 ∨ j = 1 ∨ j = 2 := by omega
    all_goals decide

theorem witness_EncodeTakesUpTheNextCode :
    (let s := { running .encode with work := { (running .encode).work with code := [(0x41, ⟨true, [false]⟩)] } }
     EngineTurn s s ∧ Running .encode s ∧ s.loop.codeRest = [] ∧ s.loop.idx < s.latched.srcLen.toNat
      ∧ readSource s s.loop.idx = .ok 0x41#8 ∧ (codeAt s.work.code 0x41#8).valid = true)
    ∧ (let s := { running .encode with loop := ⟨2, [], 0⟩ }
     EngineTurn s s ∧ Running .encode s ∧ s.loop.codeRest = [] ∧ s.latched.srcLen.toNat ≤ s.loop.idx) :=
  ⟨⟨turn _ rfl, by decide, by decide, by decide, by decide, by decide⟩, turn _ rfl, by decide, by decide, by decide⟩

theorem witness_FinalFlushes :
    (let s := running .final
     EngineTurn s s ∧ Running .final s ∧ s.writer.nacc = 0#3)
    ∧ (let s := withBits 5#3 (running .final)
     EngineTurn s s ∧ Running .final s ∧ s.writer.nacc ≠ 0#3 ∧ s.writer.outpos < s.latched.dstCap.toNat
      ∧ busFault s.platform .write (dstByteAddr s s.writer.outpos) = false ∧ AccClean s.writer
      ∧ passesTop s.latched.dstAddr s.latched.dstCap = false) :=
  ⟨⟨turn _ rfl, by decide, rfl⟩, turn _ rfl, by decide, by decide, by decide, by decide, by unfold AccClean; decide,
    by decide⟩

/-- The first and the last bit of the source. -/
theorem witness_ReadBitOrder :
    let s := running .deserTree
    (0 < s.reader.rdlimit ∧ busFault s.platform .read (srcByteAddr s (0 / 8)) = false)
      ∧ 15 < s.reader.rdlimit ∧ busFault s.platform .read (srcByteAddr s (15 / 8)) = false := by decide

/-- No node awaits a child; one awaits its left child; one its right child, the last; two await their right and one its
left child, at the last free slot. -/
theorem witness_TokenLeafRead :
    let at_ := fun (n : Nat) (st : List Frame) =>
      { running .deserTree with work := { (running .deserTree).work with nnodes := n, stack := st } }
    let cases_ : List (Nat × List Frame × List Frame) :=
      [(0, [], []), (1, [], [⟨0, .left⟩]), (2, [⟨0, .right⟩], []), (510, [⟨2, .right⟩, ⟨1, .right⟩], [⟨0, .left⟩])]
    ∀ c ∈ cases_, let s := at_ c.1 (c.2.1 ++ c.2.2)
      Running .deserTree s ∧ s.work.nnodes < Config.nodePool ∧ s.work.stack = c.2.1 ++ c.2.2
        ∧ (∀ f ∈ c.2.1, f.mark = .right) ∧ (∀ f ∈ c.2.2, f.mark = .left)
        ∧ (s.work.stack.map Frame.node).Pairwise (· > ·) ∧ ∀ f ∈ s.work.stack, f.node < s.work.nnodes := by decide

theorem witness_TokenInternalRead :
    let s := { running .deserTree with work := { (running .deserTree).work with nnodes := 510 } }
    Running .deserTree s ∧ s.work.nnodes < Config.nodePool := by decide

/-- N = DST_CAP and N = DST_CAP + 1. -/
theorem witness_CountRead :
    let s := running .rdCount
    Running .rdCount s ∧ (16#32 : Word).toNat ≤ s.latched.dstCap.toNat
      ∧ s.latched.dstCap.toNat < (17#32 : Word).toNat := by decide

theorem witness_PayloadBitsWalk : Running .decode (withTree (running .decode)) := by decide

theorem witness_ElementsOutOfPhaseRefused :
    (idle.status.busy = false ∧ Instr.payloadLeft.format ≠ .cmd)
      ∧ ¬Running .serTree (running .encode) ∧ ¬Running .deserTree (running .encode)
      ∧ ¬Running .wrCount (running .encode) ∧ ¬Running .rdCount (running .encode)
      ∧ ¬Running .encode (running .final) ∧ ¬Running .decode (running .final) := by decide

/-- The right leaf of "AB" on a stream beginning with bit 1, and a single-leaf tree, whose code is empty. -/
theorem witness_DecodeFollowsACode :
    (let s := { withCount 1#32 (withTree (running .decode)) with reader := ⟨1, 16⟩ }
     Running .decode s ∧ s.host = [] ∧ s.writer.outpos < s.results.symCount.toNat ∧ s.loop.cursor = s.work.root
      ∧ Represents s.work.nodes s.work.root fullAB ∧ fullAB.follow [true] = some 0x42#8
      ∧ peekBits s s.reader.rdpos 1 = .ok [true]
      ∧ busFault s.platform .write (dstByteAddr s s.writer.outpos) = false)
    ∧ (let w := (withTree (running .decode)).work
     let s := { withCount 16#32 (running .decode) with work := { w with root := 0 }, writer := ⟨0#8, 0#3, 15, 0⟩ }
     Running .decode s ∧ s.host = [] ∧ s.writer.outpos < s.results.symCount.toNat ∧ s.loop.cursor = s.work.root
      ∧ Represents s.work.nodes s.work.root (.leaf 0x41#8) ∧ (FullTree.leaf 0x41#8).follow [] = some 0x41#8
      ∧ peekBits s s.reader.rdpos 0 = .ok []
      ∧ busFault s.platform .write (dstByteAddr s s.writer.outpos) = false) :=
  ⟨⟨by decide, rfl, by decide, rfl, represents_AB, by decide, by decide, by decide⟩,
    by decide, rfl, by decide, rfl, ⟨by decide, by decide⟩, by decide, by decide, by decide⟩

theorem witness_DecodeEnds :
    let s := { withCount 16#32 (running .decode) with writer := ⟨0#8, 0#3, 16, 0⟩ }
    EngineTurn s s ∧ Running .decode s ∧ s.writer.outpos = s.results.symCount.toNat :=
  ⟨turn _ rfl, by decide, by decide⟩

/-- A running command meets the register invariant in every phase. -/
theorem machineInv_running (p : Phase) (hp : p ≠ .idle) : MachineInv (running p) := by
  cases p <;> constructor <;> first
    | exact fun _ => hp
    | decide
    | exact fun i _ => by simp [running, startCommand, State.toPhase]

theorem treeInv_running (p : Phase) (hp : p ∈ [.check, .freq, .deserTree, .rdCount, .decode]) :
    TreeInv (running p) := by
  simp only [List.mem_cons, List.not_mem_nil, or_false] at hp
  constructor
  · rcases hp with rfl | rfl | rfl | rfl | rfl <;> decide
  · rcases hp with rfl | rfl | rfl | rfl | rfl <;> decide
  · rcases hp with rfl | rfl | rfl | rfl | rfl <;> decide
  · exact fun _ => ⟨rfl, rfl, rfl⟩
  · rcases hp with rfl | rfl | rfl | rfl | rfl <;> decide
  · rcases hp with rfl | rfl | rfl | rfl | rfl <;> exact fun h => absurd h (by decide)
  · rcases hp with rfl | rfl | rfl | rfl | rfl <;> exact fun h => absurd h (by decide)
  · rcases hp with rfl | rfl | rfl | rfl | rfl <;> decide
  · rcases hp with rfl | rfl | rfl | rfl | rfl <;> exact fun h => absurd h (by decide)
  · exact fun _ => .inl ⟨rfl, rfl⟩
  · rcases hp with rfl | rfl | rfl | rfl | rfl <;> decide
  · exact fun _ => ⟨List.Pairwise.nil, fun f hf => nomatch hf⟩
  · rcases hp with rfl | rfl | rfl | rfl | rfl <;> decide
  · exact ⟨fun _ => ⟨Nat.succ_pos _, Nat.succ_pos _⟩, Nat.succ_pos _, fun _ h => (nomatch h),
      fun _ h => (nomatch h), Nat.succ_pos _⟩
  · rcases hp with rfl | rfl | rfl | rfl | rfl <;> decide
  · rcases hp with rfl | rfl | rfl | rfl | rfl <;> exact fun h => absurd h (by decide)
  · rcases hp with rfl | rfl | rfl | rfl | rfl <;> exact fun h => absurd h (by decide)
  · rcases hp with rfl | rfl | rfl | rfl | rfl <;> exact fun h => absurd h (by decide)
  · rcases hp with rfl | rfl | rfl | rfl | rfl <;> exact fun h => absurd h (by decide)
  · rcases hp with rfl | rfl | rfl | rfl | rfl <;> exact fun h => absurd h (by decide)
  · rcases hp with rfl | rfl | rfl | rfl | rfl <;> decide
  · rcases hp with rfl | rfl | rfl | rfl | rfl <;> exact fun e he => nomatch he

/-- For the invariants and what follows from them: a command on its first step, and one that reads its tree. -/
theorem witness_invariants :
    ∀ p ∈ [Phase.check, .deserTree],
      MachineInv (running p) ∧ TreeInv (running p) ∧ EngineTurn (running p) (running p) ∧ (running p).host = []
        ∧ (running p).status.busy = true ∧ ∃ t, step (running p) = .next t := by
  intro p hp
  simp only [List.mem_cons, List.not_mem_nil, or_false] at hp
  rcases hp with rfl | rfl
  · exact ⟨machineInv_running _ (by decide), treeInv_running _ (by decide), turn _ rfl, rfl, rfl, _, rfl⟩
  · exact ⟨machineInv_running _ (by decide), treeInv_running _ (by decide), turn _ rfl, rfl, rfl, _, rfl⟩

/-- The walk of the tree of "AB" at its left leaf: as many entries on the stack as leaves in the tree. -/
def walkingAB (p : Phase) : State :=
  { withTree (running p) with
    work := { (withTree (running p)).work with
      freq := [(0x41, 1#32), (0x42, 1#32)], stack := [⟨0, .left⟩, ⟨2, .left⟩] }
    results := ⟨0#32, 0#32, 2#32, 0#32⟩ }

theorem treeInv_walkingAB (p : Phase) (hp : p ∈ [.codes, .serTree]) : TreeInv (walkingAB p) := by
  simp only [List.mem_cons, List.not_mem_nil, or_false] at hp
  constructor
  all_goals rcases hp with rfl | rfl <;> first
    | decide
    | exact fun h => absurd h (by decide)
    | exact fun _ => (by decide : ∀ i, i < 3 → (nodeAt treeAB i).kind = .internal →
        (nodeAt treeAB i).left < i ∧ (nodeAt treeAB i).right < i)
    | exact fun _ => ⟨by decide, by decide⟩
    | exact ⟨fun n => by
        simp only [walkingAB, withTree, treeAB, nodeAt, storeGet]
        split <;> (try split) <;> (try split) <;> decide, by decide, by decide, by decide, by decide⟩

/-- The invariants of the walks and their stack, on a stack as deep as R142 lets it be for two leaves. -/
theorem witness_StepKeepsTreeInv_walks :
    ∀ p ∈ [Phase.codes, .serTree],
      MachineInv (walkingAB p) ∧ TreeInv (walkingAB p)
        ∧ (walkingAB p).work.stack.length = (walkingAB p).results.leafCount.toNat
        ∧ ∃ t, step (walkingAB p) = .next t := by
  intro p hp
  refine ⟨?_, treeInv_walkingAB p hp, ?_⟩ <;> simp only [List.mem_cons, List.not_mem_nil, or_false] at hp
  · rcases hp with rfl | rfl <;> constructor <;> first
      | decide
      | exact fun i _ => by simp [walkingAB, withTree, running, startCommand, State.toPhase]
  · rcases hp with rfl | rfl <;> exact ⟨rfl, _, rfl⟩

/-- A memory that differs from the state's outside the source window only. -/
theorem witness_ReadsStayInTheSourceWindow :
    MachineInv (running .freq) ∧ EngineTurn (running .freq) (running .freq)
      ∧ (∀ a, inSource (running .freq).latched a = true →
          readByte a ((0, 0xFF#8) :: (running .freq).mem) = readByte a (running .freq).mem)
      ∧ ∃ t, step (running .freq) = .next t := by
  refine ⟨machineInv_running _ (by decide), turn _ rfl, fun a ha => ?_, _, rfl⟩
  have h : a ≠ 0 := by rintro rfl; exact absurd ha (by decide)
  simp [readByte, storeGet, h]

/-! ### Whole commands: the empty source, into a window that just holds its six bytes -/

/-- The block idle, with no source bytes and a destination of six. -/
def emptyIdle : State := { State.reset with win := ⟨0#32, 0#32, 0x2000#32, 6#32⟩ }

/-- COMPRESS just started. -/
def emptyStart : State := startCommand 1#32 emptyIdle

/-- The end of that command, seven engine steps later. -/
def emptyEnd : State := (after (run 7 emptyStart)).getD State.reset

/-- The block idle again, the six bytes its source. -/
def backIdle : State := { emptyEnd with win := ⟨0x2000#32, 6#32, 0x3000#32, 0#32⟩ }

theorem witness_CompressWritesTheStream :
    emptyIdle.status.busy = false ∧ exec .compress emptyIdle = .next emptyStart ∧ emptyStart.host = []
      ∧ windowsLegal emptyStart.latched = true ∧ SourceReadable emptyStart ∧ DestWritable emptyStart 6
      ∧ 6 ≤ emptyStart.latched.dstCap.toNat :=
  ⟨rfl, rfl, rfl, by decide, readable _ rfl, writable _ _ rfl, by decide⟩

/-- Vector X10, decompressed: both leaves of the tree hold 'A'. -/
def twiceStart : State :=
  startCommand 2#32 { State.reset with
    win := ⟨0x1000#32, 7#32, 0x3000#32, 2#32⟩
    mem := [(0x1000, 0x50#8), (0x1001, 0x68#8), (0x1002, 0x20#8), (0x1006, 0x48#8)] }

theorem witness_DecompressDecodesTheStream :
    let tree := FullTree.node (.leaf 0x41#8) (.leaf 0x41#8)
    let paths := [[false], [true]]
    twiceStart.host = [] ∧ windowsLegal twiceStart.latched = true ∧ SourceReadable twiceStart
      ∧ DestWritable twiceStart 2 ∧ tree.size ≤ Config.nodePool
      ∧ paths.map tree.follow = [0x41#8, 0x41#8].map some ∧ [0x41#8, 0x41#8].length ≤ twiceStart.latched.dstCap.toNat
      ∧ sourceBits twiceStart = tree.stream paths ++ [false, false, false] :=
  ⟨rfl, by decide, readable _ rfl, writable _ _ rfl, by decide, by decide, by decide, by decide⟩

theorem witness_RoundTrip :
    emptyIdle.status.busy = false ∧ exec .compress emptyIdle = .next emptyStart ∧ emptyStart.host = []
      ∧ run 7 emptyStart = .next emptyEnd ∧ emptyEnd.status = ⟨false, true, .noError, .final⟩
      ∧ backIdle.status.busy = false ∧ exec .decompress backIdle = .next (startCommand 2#32 backIdle)
      ∧ (let s' := startCommand 2#32 backIdle
        s'.host = [] ∧ windowsLegal s'.latched = true ∧ SourceReadable s'
          ∧ DestWritable s' emptyStart.latched.srcLen.toNat ∧ s'.latched.srcLen = emptyEnd.results.outLen
          ∧ (∀ j, j < emptyEnd.results.outLen.toNat →
            readByte (srcByteAddr s' j).toNat s'.mem = readByte (dstByteAddr emptyStart j).toNat emptyEnd.mem)
          ∧ emptyStart.latched.srcLen.toNat ≤ s'.latched.dstCap.toNat) :=
  ⟨rfl, rfl, rfl, rfl, by decide, by decide, rfl,
    rfl, by decide, readable _ rfl, writable _ _ rfl, by decide, by decide, by decide⟩

end Sys2Proof.Tests
end

/-!
The round trip (R2, R178). COMPRESS from its start to its end writes the stream of a tree and of paths of it to the
source's symbols (`compress_writes`); DECOMPRESS of such a stream writes those symbols (`decompress_decodes`).
-/

/-! ## From the command start to SIZE -/

namespace Sys2Proof.Machine

open Sys2Proof.Safety

/-- A step of a running command with no host move pending. -/
theorem step_running {p : Phase} {s : State} (hh : s.host = []) (hp : Running p s) : step s = phaseStep p s :=
  step_phase (engineTurn_self hh) hp

/-- What windows must be to pass CHECK (R212 (b), (c), (d)). -/
theorem windowsLegal_iff {w : Windows} : windowsLegal w = true ↔
    passesTop w.srcAddr w.srcLen = false ∧ passesTop w.dstAddr w.dstCap = false ∧ overlap w = false := by
  simp [windowsLegal, and_assoc]

/-- CHECK of a COMPRESS in legal windows (R212). -/
theorem step_check_compress {s : State} (hh : s.host = []) (hr : Running .check s) (hc : s.cmd = 0x00000001#32)
    (hl : windowsLegal s.latched = true) : step s = .next (s.toPhase .freq) := by
  obtain ⟨h1, h2, h3⟩ := windowsLegal_iff.1 hl
  rw [step_running hh hr]
  simp [phaseStep, checkStep, hc, decodeCmd_compress.2, h1, h2, h3, startPhases]

/-- CHECK of a DECOMPRESS in legal windows (R212). -/
theorem step_check_decompress {s : State} (hh : s.host = []) (hr : Running .check s) (hc : s.cmd = 0x00000002#32)
    (hl : windowsLegal s.latched = true) : step s = .next (State.toPhase .deserTree (fromBytes s)) := by
  obtain ⟨h1, h2, h3⟩ := windowsLegal_iff.1 hl
  rw [step_running hh hr]
  simp [phaseStep, checkStep, hc, decodeCmd_decompress.2, h1, h2, h3, startPhases]

/-- CHECK of windows that are not legal ends the command (R212). -/
theorem step_check_illegal {s : State} (hh : s.host = []) (hr : Running .check s)
    (hl : windowsLegal s.latched = false) : step s = .next (endCommand .invalidArgument s) := by
  rw [step_running hh hr, phaseStep]
  rcases checkStep_cases s with h | ⟨hl', _⟩ | ⟨hl', _⟩
  · exact h
  all_goals rw [hl] at hl'; exact nomatch hl'

/-! ### The source -/

theorem sourceBytes_length (s : State) : (sourceBytes s).length = s.latched.srcLen.toNat := by
  simp [sourceBytes]

theorem sourceBytes_eq_nil_iff {s : State} : sourceBytes s = [] ↔ s.latched.srcLen = 0#32 := by
  rw [← List.length_eq_zero_iff, sourceBytes_length, BitVec.toNat_eq]
  rfl

/-- A readable source byte is read as memory holds it (R62, R65). -/
theorem readSource_readable {s : State} (hs : SourceReadable s) {i : Nat} (hi : i < s.latched.srcLen.toNat) :
    readSource s i = .ok (readByte (srcByteAddr s i).toNat s.mem) := by
  simp [readSource, memRead, hs i hi]

/-- The source from a byte on is that byte and the source from the next one on. -/
theorem sourceBytes_drop {s : State} {i : Nat} (hi : i < s.latched.srcLen.toNat) :
    (sourceBytes s).drop i = readByte (srcByteAddr s i).toNat s.mem :: (sourceBytes s).drop (i + 1) := by
  rw [List.drop_eq_getElem_cons (by rw [sourceBytes_length]; exact hi)]
  simp [sourceBytes]

/-! ### FREQ (R120) -/

/-- FREQ from any source byte on: a step for each byte left counts it. -/
theorem freq_counts_rest (n : Nat) : ∀ s : State, Running .freq s → s.host = [] → SourceReadable s →
    s.loop.idx + n = s.latched.srcLen.toNat →
    ∃ f, run n s = .next { s with
        work := { s.work with freq := f }, loop := { s.loop with idx := s.latched.srcLen.toNat } }
      ∧ ∀ sym, freqAt f sym
          = freqAt s.work.freq sym + BitVec.ofNat 32 (((sourceBytes s).drop s.loop.idx).count sym) := by
  induction n with
  | zero =>
    intro s _ _ _ hi
    refine ⟨s.work.freq, by rw [run_zero, ← hi]; rfl, fun sym => ?_⟩
    rw [List.drop_of_length_le (by rw [sourceBytes_length]; omega)]
    simp
  | succ n ih =>
    intro s hr hh hs hi
    have hlt : s.loop.idx < s.latched.srcLen.toNat := by omega
    let b := readByte (srcByteAddr s s.loop.idx).toNat s.mem
    let u : State := { s with
      work := { s.work with freq := countSymbol b s.work.freq }, loop := { s.loop with idx := s.loop.idx + 1 } }
    have hst : step s = .next u := by
      rw [step_running hh hr]
      simp [phaseStep, freqStep, hlt, readSource_readable hs hlt, u, b]
    have hidx : u.loop.idx + n = u.latched.srcLen.toNat := by
      show s.loop.idx + 1 + n = s.latched.srcLen.toNat
      omega
    obtain ⟨f, hrun, hf⟩ := ih u hr hh hs hidx
    refine ⟨f, by rw [run_succ n hst, hrun], fun sym => ?_⟩
    have hdrop : (sourceBytes s).drop s.loop.idx = b :: (sourceBytes s).drop (s.loop.idx + 1) := sourceBytes_drop hlt
    rw [hf sym, hdrop, List.count_cons]
    show freqAt (countSymbol b s.work.freq) sym
      + BitVec.ofNat 32 (((sourceBytes s).drop (s.loop.idx + 1)).count sym) = _
    rw [freqAt_countSymbol]
    by_cases h : sym = b
    · subst h
      rw [if_pos rfl, if_pos (beq_self_eq_true _), BitVec.ofNat_add, BitVec.add_assoc, BitVec.add_comm 1#32]
    · have hne : ¬(b == sym) = true := by simpa using fun e => h e.symm
      rw [if_neg h, if_neg hne]
      rfl

/-- FREQ after the last source byte. -/
theorem step_freq_done {s : State} (hh : s.host = []) (hr : Running .freq s)
    (hi : s.latched.srcLen.toNat ≤ s.loop.idx) : step s = .next (freqDone s) := by
  rw [step_running hh hr, phaseStep, freqStep, if_neg (Nat.not_lt.2 hi)]

/-- FREQ whole (R120): L steps count every source byte, one more writes SYM_COUNT and goes on. -/
theorem freq_counts_source {s : State} (hr : Running .freq s) (hh : s.host = []) (hi : s.loop.idx = 0)
    (hf : s.work.freq = []) (hs : SourceReadable s) :
    ∃ f, run (s.latched.srcLen.toNat + 1) s = .next (freqDone { s with
        work := { s.work with freq := f }, loop := { s.loop with idx := s.latched.srcLen.toNat } })
      ∧ ∀ sym, (freqAt f sym).toNat = (sourceBytes s).count sym := by
  obtain ⟨f, hrun, hcount⟩ := freq_counts_rest s.latched.srcLen.toNat s hr hh hs (by omega)
  refine ⟨f, ?_, fun sym => ?_⟩
  · rw [run_add 1 hrun, run_one]
    exact step_freq_done hh hr (Nat.le_refl _)
  · have hle := List.count_le_length (l := sourceBytes s) (a := sym)
    rw [sourceBytes_length] at hle
    rw [hcount sym, hi, hf]
    simp [freqAt, storeGet]
    omega

/-! ### CODES (R140) -/

theorem pathOf_cons (n : Nat) (m : Mark) (rest : List Frame) : pathOf (⟨n, m⟩ :: rest) = pathOf rest ++ [m.bit] := by
  simp [pathOf]

/-- The walk of CODES over a subtree, one node a step, gives the code table the recursive walk gives, and goes on with
the next subtree. -/
theorem codes_walk (tree : FullTree) : ∀ (s : State) (top : Frame) (rest : List Frame), Running .codes s →
    s.host = [] → s.work.stack = top :: rest → Represents s.work.nodes top.node tree →
    run tree.size s = .next { s with work := { s.work with
      code := tree.assignCodes (pathOf rest) s.work.code
      stack := nextSubtree s.work.nodes rest } } := by
  induction tree with
  | leaf sym =>
    intro s top rest hr hh hs ht
    obtain ⟨hk, hsym⟩ := ht
    show run 1 s = _
    rw [run_one, step_running hh hr]
    simp [phaseStep, codesStep, hs, visitCode, hk, hsym, walkOn, FullTree.assignCodes]
  | node l r ihl ihr =>
    intro s top rest hr hh hs ht
    obtain ⟨hk, hl, hrt⟩ := ht
    have hst : step s = .next { s with work := { s.work with
        stack := ⟨(nodeAt s.work.nodes top.node).left, .left⟩ :: ⟨top.node, .left⟩ :: rest } } := by
      rw [step_running hh hr]
      simp [phaseStep, codesStep, hs, visitCode, hk, walkOn]
    have hleft := ihl { s with work := { s.work with
        stack := ⟨(nodeAt s.work.nodes top.node).left, .left⟩ :: ⟨top.node, .left⟩ :: rest } } _ _ hr hh rfl hl
    simp only [pathOf_cons, Mark.bit, nextSubtree] at hleft
    have hright := ihr { s with work := { s.work with
        code := l.assignCodes (pathOf rest ++ [false]) s.work.code
        stack := ⟨(nodeAt s.work.nodes top.node).right, .left⟩ :: ⟨top.node, .right⟩ :: rest } } _ _ hr hh rfl hrt
    simp only [pathOf_cons, Mark.bit, nextSubtree] at hright
    rw [FullTree.size, run_succ _ hst, run_add _ hleft, hright]
    rfl

/-! ### BUILD and CODES whole -/

/-- CODES with nothing left to walk. -/
theorem step_codes_done {s : State} (hh : s.host = []) (hr : Running .codes s) (hs : s.work.stack = []) :
    step s = .next (s.toPhase .size) := by
  rw [step_running hh hr, phaseStep, codesStep, hs]

/-- BUILD and CODES from the counters to SIZE: a tree over the counted symbols, each a leaf once, and the code table of
its paths (R122 to R127, R140). -/
theorem build_codes {s : State} (hr : Running .build s) (hh : s.host = []) (h0 : s.work.nnodes = 0)
    (hw : storeWf 0#32 256 s.work.freq) (hne : s.work.freq ≠ []) :
    ∃ k nodes nn ws root tree,
      run k s = .next { s with
        status := { s.status with phase := .size }
        work := { s.work with
          nodes := nodes, nnodes := nn, wset := ws, root := root
          code := FullTree.assignCodes [] tree s.work.code, stack := [] }
        results := { s.results with leafCount := BitVec.ofNat 32 tree.leaves } }
      ∧ Represents nodes root tree ∧ (treeSymbols tree).Nodup
      ∧ (∀ sym, sym ∈ treeSymbols tree ↔ freqAt s.work.freq sym ≠ 0#32) ∧ tree.leaves ≤ 256 := by
  obtain ⟨k, nodes, nn, ws, root, tree, hbuild, hrep, hnd, hsym, hle⟩ := build_tree s hr hh h0 hw hne
  let u : State := buildDone root { s with
    work := { s.work with nodes := nodes, nnodes := nn, wset := ws }
    results := { s.results with leafCount := BitVec.ofNat 32 tree.leaves } }
  have hwalk := codes_walk tree u ⟨root, .left⟩ [] ⟨hr.1, rfl⟩ hh rfl hrep
  refine ⟨k + (tree.size + 1), nodes, nn, ws, root, tree, ?_, hrep, hnd, hsym, hle⟩
  rw [run_add _ hbuild, run_add _ hwalk, run_one]
  exact step_codes_done hh ⟨hr.1, rfl⟩ rfl

/-! ### COMPRESS up to SIZE -/

/-- What a COMPRESS has made by the start of SIZE: a tree, and codes that are its paths to the source's symbols. For an
empty source, which makes no tree, it is the tree of the marker (R87, R171). -/
structure ReadyToSize (s : State) (tree : FullTree) : Prop where
  running : Running .size s
  host : s.host = []
  writer : s.writer = ⟨0#8, 0#3, 0, 0⟩
  symCount : s.results.symCount = s.latched.srcLen
  marker : s.latched.srcLen = 0#32 → tree = .leaf 0#8
  freqWf : storeWf 0#32 256 s.work.freq
  codeWf : storeWf CodeEntry.cleared 256 s.work.code
  codes : ∀ b ∈ sourceBytes s, ∃ q, tree.follow q = some b ∧ codeAt s.work.code b = ⟨true, q⟩
  counted : ∀ sym, (freqAt s.work.freq sym).toNat = (sourceBytes s).count sym
  represents : s.latched.srcLen ≠ 0#32 → Represents s.work.nodes s.work.root tree
  leafCount : s.latched.srcLen ≠ 0#32 → s.results.leafCount.toNat = tree.leaves
  leaves : tree.leaves ≤ 256

/-- A COMPRESS of a readable source in legal windows comes to SIZE with nothing written (R170). -/
theorem compress_ready {s0 : State} (hh : s0.host = []) (hl : windowsLegal s0.win = true)
    (hs : SourceReadable (startCommand 0x00000001#32 s0)) :
    ∃ k u tree, run k (startCommand 0x00000001#32 s0) = .next u ∧ ReadyToSize u tree
      ∧ u.latched = s0.win ∧ u.platform = s0.platform ∧ u.mem = s0.mem := by
  let s := startCommand 0x00000001#32 s0
  have hcheck : step s = .next (s.toPhase .freq) := step_check_compress hh ⟨rfl, rfl⟩ rfl hl
  obtain ⟨f, hfreq, hcount⟩ := freq_counts_source (s := s.toPhase .freq) ⟨rfl, rfl⟩ hh rfl rfl hs
  rw [show (s.toPhase .freq).latched = s0.win from rfl] at hfreq
  let v : State := freqDone { s.toPhase .freq with
    work := { s.work with freq := f }, loop := { s.loop with idx := s0.win.srcLen.toNat } }
  have hrun : run (s0.win.srcLen.toNat + 1 + 1) s = .next v := by
    rw [run_succ _ hcheck]
    exact hfreq
  have hcount : ∀ sym, (freqAt f sym).toNat = (sourceBytes v).count sym := hcount
  obtain ⟨_, _, hwf, _⟩ := run_keeps hrun hh (fun _ => accClean_zero _ _ _) (storeWf_nil _ _)
  by_cases h0 : s0.win.srcLen = 0#32
  · have hphase : v.status.phase = .size := if_pos h0
    exact ⟨_, v, .leaf 0#8, hrun,
      { running := ⟨rfl, hphase⟩, host := hh, writer := rfl, symCount := rfl, marker := fun _ => rfl
        freqWf := hwf, codeWf := storeWf_nil _ _
        codes := fun b hb => by rw [sourceBytes_eq_nil_iff.2 h0] at hb; exact nomatch hb
        counted := hcount, represents := fun h => absurd h0 h, leafCount := fun h => absurd h0 h
        leaves := by decide }, rfl, rfl, rfl⟩
  · have hphase : v.status.phase = .build := if_neg h0
    have hmem : ∀ b ∈ sourceBytes v, freqAt f b ≠ 0#32 := fun b hb hz => by
      have hpos := List.count_pos_iff.2 hb
      rw [← hcount b, hz] at hpos
      exact Nat.lt_irrefl 0 hpos
    obtain ⟨b, hb⟩ := List.exists_mem_of_ne_nil _ (mt (sourceBytes_eq_nil_iff (s := v)).1 h0)
    have hne : f ≠ [] := fun hf => hmem b hb (by rw [hf]; rfl)
    obtain ⟨k, nodes, nn, ws, root, tree, hbuild, hrep, hnd, hsym, hle⟩ :=
      build_codes (s := v) ⟨rfl, hphase⟩ hh rfl hwf hne
    refine ⟨_, _, tree, (run_add k hrun).trans hbuild,
      { running := ⟨rfl, rfl⟩, host := hh, writer := rfl, symCount := rfl, marker := fun h => absurd h h0
        freqWf := hwf, codeWf := storeWf_assignCodes _ _ (storeWf_nil _ _), codes := fun c hc => ?_
        counted := hcount, represents := fun _ => hrep, leafCount := fun _ => ?_, leaves := hle }, rfl, rfl, rfl⟩
    · obtain ⟨q, hq, hcode⟩ := codeAt_assignCodes tree [] [] c hnd ((hsym c).2 (hmem c hc))
      exact ⟨q, hq, hcode⟩
    · rw [BitVec.toNat_ofNat]
      exact Nat.mod_eq_of_lt (by omega)

/-! ### SIZE (R173, R171) -/

/-- The codes of the source bytes, in order. -/
def payloadCodes (s : State) : List Bits :=
  (sourceBytes s).map fun b => (codeAt s.work.code b).bits

theorem ReadyToSize.valid {s : State} {tree : FullTree} (h : ReadyToSize s tree) {b : Byte} (hb : b ∈ sourceBytes s) :
    (codeAt s.work.code b).valid = true := by
  obtain ⟨q, _, hq⟩ := h.codes b hb
  rw [hq]

theorem ReadyToSize.follow {s : State} {tree : FullTree} (h : ReadyToSize s tree) {b : Byte} (hb : b ∈ sourceBytes s) :
    tree.follow (codeAt s.work.code b).bits = some b := by
  obtain ⟨q, hf, hq⟩ := h.codes b hb
  rw [hq]
  exact hf

theorem stream_length (tree : FullTree) (codes : List Bits) :
    (tree.stream codes).length = tree.serialize.length + (32 + codes.flatten.length) := by
  simp [FullTree.stream]

/-- SIZE checks DST_CAP against the bytes of the stream to be written. -/
theorem ReadyToSize.step_eq {s : State} {tree : FullTree} (h : ReadyToSize s tree) :
    step s = sizeCheck tree.serialize.length (((tree.stream (payloadCodes s)).length + 7) / 8)
      (if s.latched.srcLen = 0#32 then [] else walkFrom s.work.root) s := by
  rw [step_running h.host h.running, phaseStep, sizeStep]
  by_cases h0 : s.latched.srcLen = 0#32
  · rw [if_pos h0, if_pos h0, h.marker h0, payloadCodes, sourceBytes_eq_nil_iff.2 h0]
    simp [FullTree.stream, FullTree.serialize]
  · have hp := payloadBits_eq s.work.code h.codeWf s.work.freq (sourceBytes s) h.counted fun b hb => h.valid hb
    rw [if_neg h0, if_neg h0, streamBytes, bytesFor, treeBitsOf, h.leafCount h0, hp, stream_length, serialize_length,
      payloadCodes, ← List.flatMap_def, Nat.add_assoc (10 * tree.leaves - 1)]

/-! ## Writing the stream -/

/-- The bits of an element written with room for them (R100 to R102). -/
theorem putBits_written {s : State} {bs : Bits} (h : CanAppend s bs.length) :
    ∃ m w, putBits bs s = .ok { s with mem := m, writer := w } ∧ Appended s { s with mem := m, writer := w } bs := by
  obtain ⟨t, ht, hf, ha⟩ := putBits_appends bs h
  have hf : t = { s with mem := t.mem, writer := t.writer } := hf
  exact ⟨t.mem, t.writer, by rw [ht, ← hf], by rw [← hf]; exact ha⟩

/-- After an append there is room for the rest. -/
theorem canAppend_written {s : State} {m : List Host.Cell} {w : Writer} {as : Bits} {n : Nat}
    (ha : Appended s { s with mem := m, writer := w } as) (h : CanAppend s (as.length + n)) :
    CanAppend { s with mem := m, writer := w } n :=
  canAppend_right h rfl rfl ha

/-- One append after another. -/
theorem appended_written {s u : State} {m : List Host.Cell} {w : Writer} {as bs : Bits}
    (ha : Appended s { s with mem := m, writer := w } as) (h : Appended { s with mem := m, writer := w } u bs) :
    Appended s u (as ++ bs) :=
  appended_trans (t := { s with mem := m, writer := w }) rfl ha h

/-- While a command runs the unfilled bits of ACC are 0 (R100). -/
theorem accClean_run {k : Nat} {s t : State} (h : run k s = .next t) (hh : s.host = []) (hcl : AccClean s.writer)
    (hwf : storeWf 0#32 256 s.work.freq) (hb : t.status.busy = true) : AccClean t.writer :=
  (run_keeps h hh (fun _ => hcl) hwf).2.1 hb

/-! ### SER_TREE (R150 to R153) -/

/-- A step of SER_TREE writes the walk's next token, and the walk goes on. -/
theorem step_serToken {s : State} {i : Instr} (hh : s.host = []) (hr : Running .serTree s) (hi : serToken s = some i)
    (hc : CanAppend s (encode i).length) :
    ∃ m w, step s = .next (serNext { s with mem := m, writer := w })
      ∧ Appended s { s with mem := m, writer := w } (encode i) := by
  obtain ⟨m, w, hput, ha⟩ := putBits_written hc
  refine ⟨m, w, ?_, ha⟩
  rw [step_running hh hr, phaseStep, serTreeStep, hi]
  have hact := active_running hr
  rcases serToken_kind hi with rfl | ⟨sym, rfl⟩
  · simp only [exec, execTokenInternal, hact, emitInternal_eq, hput, orBusError]
  · simp only [exec, execTokenLeaf, hact, emitLeaf_eq, hput, orBusError]

/-- SER_TREE with no token left. -/
theorem step_serTree_done {s : State} (hh : s.host = []) (hr : Running .serTree s) (hi : serToken s = none) :
    step s = .next (s.toPhase .wrCount) := by
  rw [step_running hh hr, phaseStep, serTreeStep, hi]

/-- The walk of SER_TREE over a subtree appends its serialized form, and goes on with the next subtree. -/
theorem serTree_walk (tree : FullTree) : ∀ (s : State) (top : Frame) (rest : List Frame), Running .serTree s →
    s.host = [] → s.latched.srcLen ≠ 0#32 → s.work.stack = top :: rest → Represents s.work.nodes top.node tree →
    CanAppend s tree.serialize.length →
    ∃ m w, run tree.size s = .next
        { s with mem := m, writer := w, work := { s.work with stack := nextSubtree s.work.nodes rest } }
      ∧ Appended s { s with mem := m, writer := w } tree.serialize := by
  induction tree with
  | leaf sym =>
    intro s top rest hr hh h0 hs ht hc
    obtain ⟨hk, hsym⟩ := ht
    have hi : serToken s = some (.tokenLeaf sym) := by simp [serToken, h0, hs, hk, hsym]
    obtain ⟨m, w, hst, ha⟩ := step_serToken hh hr hi hc
    refine ⟨m, w, ?_, ha⟩
    show run 1 s = _
    rw [run_one, hst]
    simp [serNext, hs, walkOn, hk]
  | node l r ihl ihr =>
    intro s top rest hr hh h0 hs ht hc
    obtain ⟨hk, hl, hrt⟩ := ht
    have hi : serToken s = some .tokenInternal := by simp [serToken, h0, hs, hk]
    have hlen : (FullTree.node l r).serialize.length
        = (encode .tokenInternal).length + (l.serialize.length + r.serialize.length) := by
      simp [FullTree.serialize, encode]
      omega
    rw [hlen] at hc
    obtain ⟨m₁, w₁, hst, ha₁⟩ := step_serToken hh hr hi (canAppend_left hc)
    let s₁ : State := { s with
      mem := m₁, writer := w₁
      work := { s.work with
        stack := ⟨(nodeAt s.work.nodes top.node).left, .left⟩ :: ⟨top.node, .left⟩ :: rest } }
    have hst₁ : step s = .next s₁ := by
      rw [hst]
      simp [serNext, hs, walkOn, hk, s₁]
    have hc₁ : CanAppend s₁ (l.serialize.length + r.serialize.length) := canAppend_written ha₁ hc
    obtain ⟨m₂, w₂, hrun₂, ha₂⟩ := ihl s₁ _ _ hr hh h0 rfl hl (canAppend_left hc₁)
    let s₂ : State := { s with
      mem := m₂, writer := w₂
      work := { s.work with
        stack := ⟨(nodeAt s.work.nodes top.node).right, .left⟩ :: ⟨top.node, .right⟩ :: rest } }
    have hc₂ : CanAppend s₂ r.serialize.length := canAppend_written (s := s₁) ha₂ hc₁
    obtain ⟨m₃, w₃, hrun₃, ha₃⟩ := ihr s₂ _ _ hr hh h0 rfl hrt hc₂
    refine ⟨m₃, w₃, ?_, ?_⟩
    · rw [FullTree.size, run_succ _ hst₁]
      exact (run_add _ hrun₂).trans hrun₃
    · have ha₂₃ : Appended s₁ { s₁ with mem := m₃, writer := w₃ } (l.serialize ++ r.serialize) :=
        appended_written ha₂ ha₃
      exact appended_written ha₁ ha₂₃

/-- SER_TREE whole: it appends the serialized tree, or the marker for an empty source (R87, R171). -/
theorem serTree_written {s : State} {tree : FullTree} (hr : Running .serTree s) (hh : s.host = [])
    (hs : s.work.stack = if s.latched.srcLen = 0#32 then [] else walkFrom s.work.root)
    (hm : s.latched.srcLen = 0#32 → tree = .leaf 0#8 ∧ s.writer.wbits = 0)
    (ht : s.latched.srcLen ≠ 0#32 → Represents s.work.nodes s.work.root tree)
    (hc : CanAppend s tree.serialize.length) :
    ∃ k m w, run k s = .next (State.toPhase .wrCount
        { s with mem := m, writer := w, work := { s.work with stack := [] } })
      ∧ Appended s { s with mem := m, writer := w } tree.serialize := by
  by_cases h0 : s.latched.srcLen = 0#32
  · obtain ⟨rfl, hw⟩ := hm h0
    have hi : serToken s = some (.tokenLeaf 0#8) := by simp [serToken, h0, hw]
    rw [if_pos h0] at hs
    obtain ⟨m, w, hst, ha⟩ := step_serToken hh hr hi hc
    have hstack : serNext { s with mem := m, writer := w }
        = { s with mem := m, writer := w, work := { s.work with stack := [] } } := by
      simp [serNext, hs, walkOn]
    rw [hstack] at hst
    have hwb : w.wbits = 9 := by
      have h := ha.2.1
      rw [hw] at h
      exact h
    refine ⟨2, m, w, ?_, ha⟩
    rw [run_succ 1 hst, run_one]
    exact step_serTree_done hh hr (by simp [serToken, h0, hwb])
  · rw [if_neg h0] at hs
    obtain ⟨m, w, hrun, ha⟩ := serTree_walk tree s _ _ hr hh h0 hs (ht h0) hc
    refine ⟨tree.size + 1, m, w, ?_, ha⟩
    rw [run_add 1 hrun, run_one]
    exact step_serTree_done hh hr (by simp [serToken, h0, nextSubtree])

/-! ### WR_COUNT and ENCODE (R175, R176) -/

/-- WR_COUNT appends the count. -/
theorem step_wrCount {s : State} (hh : s.host = []) (hr : Running .wrCount s) (hc : CanAppend s 32) :
    ∃ m w, step s = .next (afterCount { s with mem := m, writer := w })
      ∧ Appended s { s with mem := m, writer := w } (msbBits s.latched.srcLen.toNat 32) := by
  obtain ⟨m, w, hput, ha⟩ := putBits_written (s := s) (bs := msbBits s.latched.srcLen.toNat 32)
    (by rw [msbBits_length]; exact hc)
  refine ⟨m, w, ?_, ha⟩
  rw [step_running hh hr]
  simp only [phaseStep, wrCountStep, exec, execCount, active_running hr, writeBits, hput, orBusError]

/-- ENCODE after the last source byte. -/
theorem step_encode_done {s : State} (hh : s.host = []) (hr : Running .encode s) (hc : s.loop.codeRest = [])
    (hi : s.latched.srcLen.toNat ≤ s.loop.idx) : step s = .next (s.toPhase .final) := by
  rw [step_running hh hr, phaseStep, encodeStep, hc]
  exact if_neg (Nat.not_lt.2 hi)

/-- WR_COUNT and ENCODE append the count and the source's codes; ENCODE runs for a source that is not empty. -/
theorem payload_written {s : State} (hr : Running .wrCount s) (hh : s.host = []) (hs : SourceReadable s)
    (hl : windowsLegal s.latched = true) (hcl : AccClean s.writer)
    (hwf : storeWf 0#32 256 s.work.freq)
    (hv : ∀ b ∈ sourceBytes s, (codeAt s.work.code b).valid = true)
    (hc : CanAppend s (32 + (payloadCodes s).flatten.length)) :
    ∃ k m w lp, run k s = .next (State.toPhase .final { s with mem := m, writer := w, loop := lp })
      ∧ Appended s { s with mem := m, writer := w }
          (msbBits s.latched.srcLen.toNat 32 ++ (payloadCodes s).flatten) := by
  obtain ⟨m, w, hst, ha⟩ := step_wrCount hh hr (canAppend_left hc)
  rw [← msbBits_length s.latched.srcLen.toNat 32] at hc
  have hc' := canAppend_written ha hc
  by_cases h0 : s.latched.srcLen = 0#32
  · have hp : (payloadCodes s).flatten = [] := by rw [payloadCodes, sourceBytes_eq_nil_iff.2 h0]; rfl
    refine ⟨1, m, w, s.loop, ?_, by rw [hp, List.append_nil]; exact ha⟩
    rw [run_one, hst, afterCount]
    exact congrArg _ (if_pos h0)
  · let u : State := State.toPhase .encode { s with mem := m, writer := w, loop := ⟨0, [], s.loop.cursor⟩ }
    have hst : step s = .next u := by
      rw [hst, afterCount]
      exact congrArg _ (if_neg h0)
    have hclu : AccClean w := accClean_run (k := 1) (t := u) (by rw [run_one, hst]) hh hcl hwf hr.1
    have hu : sourceBytes u = sourceBytes s :=
      sourceBytes_appended hl rfl (le_trans (Nat.le_add_right w.outpos _) hc'.2.1) ha
    have hpay : ((sourceBytes u).drop 0).flatMap (fun b => (codeAt u.work.code b).bits) = (payloadCodes s).flatten := by
      rw [hu, List.drop_zero, payloadCodes, List.flatMap_def]
      rfl
    obtain ⟨k, m', w', i, hrun, hi, ha', -⟩ := encode_source ((sourceBytes u).drop 0) u ⟨hr.1, rfl⟩ hh rfl rfl hs hl
      (fun b hb => hv b (by rw [hu] at hb; exact hb)) (by rw [hpay]; exact hc') hclu
    rw [hpay] at ha'
    refine ⟨k + 1 + 1, m', w', { u.loop with idx := i }, ?_, appended_written ha ha'⟩
    rw [Nat.add_right_comm, run_succ _ hst, run_add 1 hrun, run_one]
    exact step_encode_done hh ⟨hr.1, rfl⟩ rfl hi

/-! ### FINAL (R103, R177) -/

/-- FINAL ends the command with the written bits, padded with zeros, in the destination. -/
theorem step_final {s : State} (hh : s.host = []) (hr : Running .final s) (hcl : AccClean s.writer)
    (hp : passesTop s.latched.dstAddr s.latched.dstCap = false) {n : Nat} (hn : n = ((writtenBits s).length + 7) / 8)
    (hcap : n ≤ s.latched.dstCap.toNat) (hw : DestWritable s n) :
    ∃ t, step s = .next t ∧ t.status = ⟨false, true, .noError, .final⟩
      ∧ t.results = { s.results with outLen := BitVec.ofNat 32 n } ∧ t.latched = s.latched
      ∧ destBits t n = writtenBits s ++ List.replicate (8 * n - (writtenBits s).length) false
      ∧ ∀ a, (∀ j, j < n → a ≠ (dstByteAddr s j).toNat) → readByte a t.mem = readByte a s.mem := by
  have h8 : s.writer.nacc.toNat < 8 := s.writer.nacc.isLt
  have hlen := writtenBits_length s
  by_cases h0 : s.writer.nacc = 0#3
  · have hz : s.writer.nacc.toNat = 0 := by rw [h0]; rfl
    obtain rfl : n = s.writer.outpos := by omega
    refine ⟨endCommand .noError
      { s with results := { s.results with outLen := BitVec.ofNat 32 s.writer.outpos } }, ?_, ?_, rfl, rfl, ?_,
      fun _ _ => rfl⟩
    · rw [step_running hh hr]
      simp only [phaseStep, finalStep, finalize, h0, if_true, orBusError, raise]
    · rw [← hr.2]; rfl
    · rw [hlen, hz, Nat.add_zero, Nat.sub_self, List.replicate_zero, List.append_nil, writtenBits, hz, List.take_zero,
        List.append_nil]
      rfl
  · have hpos : s.writer.nacc.toNat ≠ 0 := fun h => h0 (BitVec.eq_of_toNat_eq h)
    obtain rfl : n = s.writer.outpos + 1 := by omega
    have hflush := flushByte_ok (s := s) hcap (hw _ (Nat.lt_succ_self _))
    let u : State := { s with
      mem := writeByte (dstByteAddr s s.writer.outpos).toNat s.writer.acc s.mem
      writer := ⟨0#8, 0#3, s.writer.outpos + 1, s.writer.wbits⟩ }
    have hold : destBits u s.writer.outpos = destBits s s.writer.outpos := destBits_congr rfl fun j hj =>
      readByte_writeByte_ne _ _ (by
        rw [dstByteAddr_toNat hp (by omega), dstByteAddr_toNat hp (by omega)]; omega)
    refine ⟨endCommand .noError
      { u with results := { s.results with outLen := BitVec.ofNat 32 (s.writer.outpos + 1) } }, ?_, ?_, rfl, rfl, ?_,
      fun a ha => readByte_writeByte_ne _ _ (ha _ (Nat.lt_succ_self _))⟩
    · rw [step_running hh hr]
      simp only [phaseStep, finalStep, finalize, h0, if_false, hflush, orBusError, raise]
      rfl
    · rw [← hr.2]; rfl
    · have hbyte : readByte (dstByteAddr u s.writer.outpos).toNat u.mem = s.writer.acc := readByte_writeByte_self _ _ _
      have hpad : 8 * (s.writer.outpos + 1) - (writtenBits s).length = 8 - s.writer.nacc.toNat := by omega
      show destBits u (s.writer.outpos + 1) = _
      rw [hpad, destBits_succ, hold, hbyte, accClean_bits hcl, writtenBits, List.append_assoc]

/-! ## Whole COMPRESS -/

/-- From SIZE, a stream that does not fit ends the command with nothing written (R173, R171). -/
theorem ReadyToSize.overflows {s : State} {tree : FullTree} (h : ReadyToSize s tree) {n : Nat}
    (hn : n = ((tree.stream (payloadCodes s)).length + 7) / 8) (hlt : s.latched.dstCap.toNat < n) :
    ∃ t, step s = .next t ∧ t.status = ⟨false, true, .outputOverflow, .size⟩
      ∧ t.results.outLen = BitVec.ofNat 32 (min n 0xFFFFFFFF) ∧ t.mem = s.mem := by
  rw [h.step_eq, ← hn, sizeCheck, if_pos hlt]
  exact ⟨_, rfl, by rw [← h.running.2]; rfl, rfl, rfl⟩

/-- SER_TREE, WR_COUNT and ENCODE append the stream (R172). -/
theorem stream_appended {s : State} {tree : FullTree} (hr : Running .serTree s) (hh : s.host = [])
    (hs : SourceReadable s) (hl : windowsLegal s.latched = true) (hw : s.writer = ⟨0#8, 0#3, 0, 0⟩)
    (hwf : storeWf 0#32 256 s.work.freq)
    (hst : s.work.stack = if s.latched.srcLen = 0#32 then [] else walkFrom s.work.root)
    (hm : s.latched.srcLen = 0#32 → tree = .leaf 0#8)
    (ht : s.latched.srcLen ≠ 0#32 → Represents s.work.nodes s.work.root tree)
    (hv : ∀ b ∈ sourceBytes s, (codeAt s.work.code b).valid = true)
    (hc : CanAppend s (tree.stream (payloadCodes s)).length) :
    ∃ k t, run k s = .next t ∧ Running .final t ∧ t.host = [] ∧ t.latched = s.latched ∧ t.platform = s.platform
      ∧ t.results = s.results ∧ AccClean t.writer ∧ Appended s t (tree.stream (payloadCodes s)) := by
  rw [stream_length] at hc
  obtain ⟨k₁, m₁, w₁, hrun₁, ha₁⟩ := serTree_written hr hh hst (fun h0 => ⟨hm h0, by rw [hw]⟩) ht (canAppend_left hc)
  let u : State := State.toPhase .wrCount
    { s with mem := m₁, writer := w₁, work := { s.work with stack := [] } }
  have hc₁ : CanAppend u (32 + (payloadCodes s).flatten.length) := (canAppend_written ha₁ hc :)
  have hsrc : sourceBytes u = sourceBytes s :=
    sourceBytes_appended hl rfl (le_trans (Nat.le_add_right w₁.outpos _) hc₁.2.1) ha₁
  have hcodes : payloadCodes u = payloadCodes s := by
    rw [payloadCodes, hsrc]
    rfl
  have hcl₁ : AccClean u.writer := accClean_run hrun₁ hh (by rw [hw]; exact accClean_zero _ _ _) hwf hr.1
  rw [← hcodes] at hc₁
  obtain ⟨k₂, m₂, w₂, lp, hrun₂, ha₂⟩ := payload_written (s := u) ⟨hr.1, rfl⟩ hh hs hl hcl₁ hwf
    (fun b hb => hv b (by rw [hsrc] at hb; exact hb)) hc₁
  refine ⟨k₁ + k₂, State.toPhase .final { u with mem := m₂, writer := w₂, loop := lp }, (run_add _ hrun₁).trans hrun₂,
    ⟨hr.1, rfl⟩, hh, rfl, rfl, rfl, accClean_run hrun₂ hh hcl₁ hwf hr.1, ?_⟩
  have hlen : (payloadCodes s).length = s.latched.srcLen.toNat := by
    rw [payloadCodes, List.length_map, sourceBytes_length]
  rw [FullTree.stream, hlen, ← hcodes]
  exact (appended_written ha₁ ha₂ :)

/-- From SIZE, a stream that fits is written, zero padded, and the command ends without error (R173 to R177). -/
theorem ReadyToSize.writes {s : State} {tree : FullTree} (h : ReadyToSize s tree)
    (hl : windowsLegal s.latched = true) (hs : SourceReadable s) {n : Nat}
    (hn : n = ((tree.stream (payloadCodes s)).length + 7) / 8) (hcap : n ≤ s.latched.dstCap.toNat)
    (hd : DestWritable s n) :
    ∃ k t, run k s = .next t ∧ t.status = ⟨false, true, .noError, .final⟩
      ∧ t.results = { s.results with
          treeBits := BitVec.ofNat 32 tree.serialize.length, outLen := BitVec.ofNat 32 n }
      ∧ t.latched = s.latched
      ∧ destBits t n = tree.stream (payloadCodes s)
          ++ List.replicate (8 * n - (tree.stream (payloadCodes s)).length) false
      ∧ ∀ a, (∀ j, j < n → a ≠ (dstByteAddr s j).toNat) → readByte a t.mem = readByte a s.mem := by
  have hp := (windowsLegal_iff.1 hl).2.1
  let v : State := State.toPhase .serTree { s with
    results := { s.results with treeBits := BitVec.ofNat 32 tree.serialize.length }
    work := { s.work with stack := if s.latched.srcLen = 0#32 then [] else walkFrom s.work.root } }
  have hv : step s = .next v := by
    rw [h.step_eq, ← hn, sizeCheck, if_neg (Nat.not_lt.2 hcap)]
  have hw : v.writer = ⟨0#8, 0#3, 0, 0⟩ := h.writer
  have hbytes : v.writer.outpos + bytesCompleted v (tree.stream (payloadCodes s)).length ≤ n := by
    simp only [bytesCompleted, hw, BitVec.toNat_ofNat]
    omega
  obtain ⟨k, u, hrun, hr, hh, hlat, hplat, hres, hcl, hbits, -, hout, hmem⟩ := stream_appended (s := v) (tree := tree)
    ⟨h.running.1, rfl⟩ h.host hs hl hw h.freqWf rfl h.marker h.represents (fun _ hb => h.valid hb)
    ⟨hp, le_trans hbytes hcap, fun j _ hj => hd j (lt_of_lt_of_le hj hbytes)⟩
  have hempty : writtenBits v = [] := by
    rw [writtenBits, hw]
    rfl
  have hpay : payloadCodes v = payloadCodes s := rfl
  rw [hempty, List.nil_append, hpay] at hbits
  have haddr : ∀ j, dstByteAddr u j = dstByteAddr s j := fun j => by rw [dstByteAddr, hlat]; rfl
  obtain ⟨t, hst, hstatus, hres', hlat', hdest, hmem'⟩ := step_final hh hr hcl (by rw [hlat]; exact hp)
    (n := n) (by rw [hbits]; exact hn) (by rw [hlat]; exact hcap)
    (fun j hj => by rw [hplat, haddr]; exact hd j hj)
  refine ⟨k + 1 + 1, t, ?_, hstatus, by rw [hres', hres]; rfl, hlat'.trans hlat, by rw [hdest, hbits], fun a ha => ?_⟩
  · rw [run_succ _ hv, run_add _ hrun, run_one, hst]
  · rw [hmem' a fun j hj => by rw [haddr]; exact ha j hj]
    refine hmem a fun j _ hj => ha j ?_
    rw [hout] at hj
    exact lt_of_lt_of_le hj hbytes

/-- COMPRESS of a readable source in legal windows (R170 to R177, R83): it has a tree whose paths are the codes of the
source's symbols; it writes their stream, zero padded, or ends with OUTPUT_OVERFLOW where that does not fit. -/
theorem compress_writes {s0 s : State} (hst : s = startCommand 0x00000001#32 s0) (hh : s.host = [])
    (hl : windowsLegal s.latched = true) (hs : SourceReadable s) :
    ∃ (tree : FullTree) (code : Byte → Bits), tree.size ≤ Config.nodePool
      ∧ (∀ b ∈ sourceBytes s, tree.follow (code b) = some b)
      ∧ ∀ stream n, stream = tree.stream ((sourceBytes s).map code) → n = (stream.length + 7) / 8 →
        (s.latched.dstCap.toNat < n →
          ∃ k t, run k s = .next t ∧ t.status = ⟨false, true, .outputOverflow, .size⟩
            ∧ t.results.outLen = BitVec.ofNat 32 (min n 0xFFFFFFFF) ∧ t.mem = s.mem)
        ∧ (n ≤ s.latched.dstCap.toNat → DestWritable s n →
          ∃ k t, run k s = .next t ∧ t.status = ⟨false, true, .noError, .final⟩
            ∧ t.results.outLen.toNat = n ∧ t.results.symCount = s.latched.srcLen
            ∧ t.results.treeBits.toNat = tree.serialize.length
            ∧ (s.latched.srcLen ≠ 0#32 → t.results.leafCount.toNat = tree.leaves)
            ∧ t.latched = s.latched
            ∧ destBits t n = stream ++ List.replicate (8 * n - stream.length) false
            ∧ ∀ a, (∀ j, j < n → a ≠ (dstByteAddr s j).toNat) → readByte a t.mem = readByte a s.mem) := by
  obtain ⟨k, u, tree, hrun, hu, hlat, hplat, hmem⟩ : ∃ k u tree, run k s = .next u ∧ ReadyToSize u tree
      ∧ u.latched = s.latched ∧ u.platform = s.platform ∧ u.mem = s.mem := by
    subst hst
    exact compress_ready hh hl hs
  have hleaves := hu.leaves
  have hsize := tree_size_leaves tree
  have hsrcAddr : ∀ i, srcByteAddr u i = srcByteAddr s i := fun i => by rw [srcByteAddr, hlat]; rfl
  have hdstAddr : ∀ j, dstByteAddr u j = dstByteAddr s j := fun j => by rw [dstByteAddr, hlat]; rfl
  have hsrc : sourceBytes u = sourceBytes s := by simp only [sourceBytes, hsrcAddr, hlat, hmem]
  refine ⟨tree, fun b => (codeAt u.work.code b).bits, by simp only [Config.nodePool]; omega,
    fun b hb => hu.follow (by rw [hsrc]; exact hb), fun stream n hstream hn => ⟨fun hlt => ?_, fun hcap hd => ?_⟩⟩
  all_goals
    have hcodes : stream = tree.stream (payloadCodes u) := by rw [hstream, payloadCodes, hsrc]
    subst hcodes
  · obtain ⟨t, hst, hstatus, hout, hmem'⟩ := hu.overflows hn (by rw [hlat]; exact hlt)
    exact ⟨k + 1, t, by rw [run_add 1 hrun, run_one, hst], hstatus, hout, by rw [hmem', hmem]⟩
  · obtain ⟨k', t, hrun', hstatus, hres, hlat', hdest, hframe⟩ := hu.writes (by rw [hlat]; exact hl)
      (fun i hi => by rw [hplat, hsrcAddr]; exact hs i (by rw [← hlat]; exact hi)) hn (by rw [hlat]; exact hcap)
      (fun j hj => by rw [hplat, hdstAddr]; exact hd j hj)
    have hn32 := s.latched.dstCap.isLt
    have htb : tree.serialize.length < 2 ^ 32 := by rw [serialize_length]; omega
    refine ⟨k + k', t, by rw [run_add k' hrun, hrun'], hstatus, ?_, ?_, ?_, fun h0 => ?_, by rw [hlat', hlat], hdest,
      fun a ha => ?_⟩
    · rw [hres, BitVec.toNat_ofNat]
      exact Nat.mod_eq_of_lt (by omega)
    · rw [hres, ← hlat]
      exact hu.symCount
    · rw [hres, BitVec.toNat_ofNat]
      exact Nat.mod_eq_of_lt htb
    · rw [hres]
      exact hu.leafCount (by rw [hlat]; exact h0)
    · rw [hframe a fun j hj => by rw [hdstAddr]; exact ha j hj, hmem]

/-! ## Reading the stream -/

/-! ### DESER_TREE (R155 to R158) -/

/-- Slot `n` is the root of a tree whose slots are all from `lo` on and below `hi`. -/
def RepresentsIn (nodes : List (Nat × Node)) (lo hi : Nat) : Nat → FullTree → Prop
  | n, .leaf sym => (lo ≤ n ∧ n < hi) ∧ (nodeAt nodes n).kind = .leaf ∧ (nodeAt nodes n).sym = sym
  | n, .node l r =>
    (lo ≤ n ∧ n < hi) ∧ (nodeAt nodes n).kind = .internal ∧ RepresentsIn nodes lo hi (nodeAt nodes n).left l
      ∧ RepresentsIn nodes lo hi (nodeAt nodes n).right r

theorem representsIn_represents {nodes : List (Nat × Node)} {lo hi : Nat} {t : FullTree} {n : Nat}
    (h : RepresentsIn nodes lo hi n t) : Represents nodes n t := by
  induction t generalizing n with
  | leaf sym => exact h.2
  | node l r ihl ihr =>
    obtain ⟨_, hk, hl, hr⟩ := h
    exact ⟨hk, ihl hl, ihr hr⟩

/-- A tree survives changes outside its slots. -/
theorem representsIn_congr {nodes nodes' : List (Nat × Node)} {lo hi lo' hi' : Nat} {t : FullTree} {n : Nat}
    (h : RepresentsIn nodes lo hi n t) (hlo : lo' ≤ lo) (hhi : hi ≤ hi')
    (hn : ∀ i, lo ≤ i → i < hi → nodeAt nodes' i = nodeAt nodes i) : RepresentsIn nodes' lo' hi' n t := by
  induction t generalizing n with
  | leaf sym =>
    obtain ⟨⟨h1, h2⟩, h3⟩ := h
    rw [← hn n h1 h2] at h3
    exact ⟨⟨by omega, by omega⟩, h3⟩
  | node l r ihl ihr =>
    obtain ⟨⟨h1, h2⟩, hk, hl, hr⟩ := h
    rw [← hn n h1 h2] at hk hl hr
    exact ⟨⟨by omega, by omega⟩, hk, ihl hl, ihr hr⟩

/-- An internal node `n` over a left subtree in the slots after it and a right subtree in the slots after those, once
its two children are attached to it. -/
theorem representsIn_node {nodes₂ nodes₃ : List (Nat × Node)} {n m hi : Nat} {l r : FullTree} (hm : n < m)
    (hmi : m ≤ hi) (hk : (nodeAt nodes₂ n).kind = .internal) (hl : RepresentsIn nodes₂ (n + 1) m (n + 1) l)
    (hold : ∀ i, i < m → nodeAt nodes₃ i = nodeAt (setNode n { nodeAt nodes₂ n with left := n + 1 } nodes₂) i)
    (hr : RepresentsIn nodes₃ m hi m r) :
    RepresentsIn (setNode n { nodeAt nodes₃ n with right := m } nodes₃) n hi n (.node l r) := by
  have hself : nodeAt (setNode n { nodeAt nodes₃ n with right := m } nodes₃) n
      = { nodeAt nodes₂ n with left := n + 1, right := m } := by
    rw [nodeAt_setNode_self, hold n hm, nodeAt_setNode_self]
  refine ⟨⟨le_refl n, by omega⟩, by rw [hself]; exact hk, ?_, ?_⟩
  · rw [hself]
    refine representsIn_congr hl (Nat.le_succ n) hmi fun i hlo hhi => ?_
    rw [nodeAt_setNode_ne _ _ (by omega), hold i hhi, nodeAt_setNode_ne _ _ (by omega)]
  · rw [hself]
    exact representsIn_congr hr (Nat.le_of_lt hm) (le_refl hi) fun i hlo _ => nodeAt_setNode_ne _ _ (by omega)

/-- Changing a slot but not its kind changes no count of leaves. -/
theorem countLeaves_setNode {nodes : List (Nat × Node)} {n : Nat} {v : Node} (h : v.kind = (nodeAt nodes n).kind)
    (k : Nat) : countLeaves (setNode n v nodes) k = countLeaves nodes k :=
  countLeaves_congr fun i _ => by
    rw [nodeAt_setNode]
    split
    · next hi => rw [h, hi]
    · rfl

/-- A new internal node is no leaf. -/
theorem countLeaves_takeInternal (s : State) :
    countLeaves (takeInternal s).work.nodes (s.work.nnodes + 1) = countLeaves s.work.nodes s.work.nnodes := by
  have hkind : (nodeAt (takeInternal s).work.nodes s.work.nnodes).kind ≠ .leaf := by simp
  rw [countLeaves, if_neg hkind]
  exact countLeaves_congr fun i hi => by rw [takeInternal_work_nodes, nodeAt_setNode_ne _ _ (by omega)]

/-- A new leaf is one leaf more. -/
theorem countLeaves_setLeaf (sym : Byte) (nodes : List (Nat × Node)) (n : Nat) :
    countLeaves (setLeaf n sym 0#32 nodes) (n + 1) = countLeaves nodes n + 1 := by
  have hkind : (nodeAt (setLeaf n sym 0#32 nodes) n).kind = .leaf := by simp [nodeAt_setLeaf]
  rw [countLeaves, if_pos hkind]
  exact congrArg (· + 1) (countLeaves_congr fun i hi => by rw [nodeAt_setLeaf, if_neg (by omega)])

/-- The state after a subtree with root `n` is finished, `nn` slots allocated and `len` more bits consumed: it is
attached to the node that awaits it (R155, R156). `takeLeaf` is the case of a single leaf. -/
def closeSubtree (n nn len : Nat) (nodes : List (Nat × Node)) (s : State) : State :=
  let r := attach n s.work.stack nodes
  let s' := State.advance len { s with work := { s.work with nodes := r.2.1, nnodes := nn, stack := r.1 } }
  match r.2.2 with
  | none => s'
  | some root => deserDone root s'

theorem takeLeaf_eq_closeSubtree (sym : Byte) (s : State) :
    takeLeaf sym s
      = closeSubtree s.work.nnodes (s.work.nnodes + 1) 9 (setLeaf s.work.nnodes sym 0#32 s.work.nodes) s := rfl

/-- A finished right subtree finishes its parent as well. -/
theorem closeSubtree_right {s : State} {len len' pos : Nat} (h : pos + len = s.reader.rdpos + len') (p n nn k : Nat)
    (nodes nodes' : List (Nat × Node)) :
    closeSubtree n nn len nodes
        { s with
          reader := { s.reader with rdpos := pos }
          work := { s.work with nodes := nodes', nnodes := k, stack := ⟨p, .right⟩ :: s.work.stack } }
      = closeSubtree p nn len' (setNode p { nodeAt nodes p with right := n } nodes) s := by
  simp only [closeSubtree, attach, State.advance, h]

/-- A LEAF token read with a slot free. -/
theorem step_deser_leaf {s : State} {sym : Byte} (hh : s.host = []) (hr : Running .deserTree s)
    (hn : s.work.nnodes < Config.nodePool)
    (hp : peekBits s s.reader.rdpos 9 = .ok (true :: msbBits sym.toNat 8)) : step s = .next (takeLeaf sym s) := by
  obtain ⟨hflag, hsym⟩ := peekBits_cons.1 hp
  have hfull : poolFull s = false := decide_eq_false (Nat.not_le.2 hn)
  have hdec : decode .treeToken (true :: msbBits sym.toNat 8) = .ok (.tokenLeaf sym, []) := by
    have h := decodeToken_leaf (msbBits sym.toNat 8) [] (msbBits_length _ _)
    rw [List.append_nil, natOfBits_msbBits, Nat.mod_eq_of_lt sym.isLt, BitVec.ofNat_toNat, BitVec.setWidth_eq] at h
    exact h
  rw [step_running hh hr]
  simp [phaseStep, deserTreeStep, fetchToken, hflag, hfull, hsym, execFetched, hdec, exec, execTokenLeaf,
    active_running hr]

/-- An INTERNAL token read with a slot free. -/
theorem step_deser_internal {s : State} (hh : s.host = []) (hr : Running .deserTree s)
    (hn : s.work.nnodes < Config.nodePool) (hp : peekBit s s.reader.rdpos = .ok false) :
    step s = .next (takeInternal s) := by
  have hfull : poolFull s = false := decide_eq_false (Nat.not_le.2 hn)
  rw [step_running hh hr]
  simp [phaseStep, deserTreeStep, fetchToken, hp, hfull, execFetched, decode, decodeToken, exec, execTokenInternal,
    active_running hr]

/-- The serialized form of a subtree read from any place of the stream: its nodes take the next slots, and it is
attached to the node that awaits it. -/
theorem deser_subtree (tree : FullTree) : ∀ s : State, Running .deserTree s → s.host = [] →
    s.work.nnodes + tree.size ≤ Config.nodePool →
    peekBits s s.reader.rdpos tree.serialize.length = .ok tree.serialize →
    ∃ nodes, run tree.size s
        = .next (closeSubtree s.work.nnodes (s.work.nnodes + tree.size) tree.serialize.length nodes s)
      ∧ RepresentsIn nodes s.work.nnodes (s.work.nnodes + tree.size) s.work.nnodes tree
      ∧ (∀ i, i < s.work.nnodes → nodeAt nodes i = nodeAt s.work.nodes i)
      ∧ countLeaves nodes (s.work.nnodes + tree.size) = countLeaves s.work.nodes s.work.nnodes + tree.leaves := by
  induction tree with
  | leaf sym =>
    intro s hr hh hn hp
    have hst := step_deser_leaf hh hr hn hp
    rw [takeLeaf_eq_closeSubtree] at hst
    refine ⟨_, (run_one s).trans hst, ⟨⟨le_refl _, Nat.lt_succ_self _⟩, ?_, ?_⟩,
      fun i hi => ?_, countLeaves_setLeaf sym _ _⟩
    · rw [nodeAt_setLeaf, if_pos rfl]
    · rw [nodeAt_setLeaf, if_pos rfl]
    · rw [nodeAt_setLeaf, if_neg (by omega)]
  | node l r ihl ihr =>
    intro s hr hh hn hp
    have hlen : (FullTree.node l r).serialize.length = l.serialize.length + r.serialize.length + 1 := by
      simp [FullTree.serialize]
    have hsize : (FullTree.node l r).size = l.size + r.size + 1 := rfl
    rw [hlen] at hp
    obtain ⟨hflag, hrest⟩ := peekBits_cons.1 hp
    obtain ⟨hpl, hpr⟩ := peekBits_append.1 hrest
    -- the node itself
    let n := s.work.nnodes
    let s₁ := takeInternal s
    have hst : step s = .next s₁ := step_deser_internal hh hr (by omega) hflag
    -- its left subtree
    obtain ⟨nodes₂, hrun₂, hrep₂, hold₂, hcount₂⟩ := ihl s₁ hr hh (by show n + 1 + l.size ≤ _; omega)
      ((peekBits_congr (s := s) (t := s₁) rfl rfl rfl rfl _ _).trans hpl)
    let s₂ : State := { s with
      reader := { s.reader with rdpos := s.reader.rdpos + 1 + l.serialize.length }
      work := { s.work with
        nodes := setNode n { nodeAt nodes₂ n with left := n + 1 } nodes₂
        nnodes := n + 1 + l.size, stack := ⟨n, .right⟩ :: s.work.stack } }
    have hrun₂ : run l.size s₁ = .next s₂ := hrun₂
    -- its right subtree
    obtain ⟨nodes₃, hrun₃, hrep₃, hold₃, hcount₃⟩ := ihr s₂ hr hh (by show n + 1 + l.size + r.size ≤ _; omega)
      ((peekBits_congr (s := s) (t := s₂) rfl rfl rfl rfl _ _).trans hpr)
    have hother : ∀ i, i < n → nodeAt nodes₃ i = nodeAt s.work.nodes i := fun i hi => by
      rw [hold₃ i (by show i < n + 1 + l.size; omega), nodeAt_setNode_ne _ _ (by omega),
        hold₂ i (by show i < n + 1; omega), takeInternal_work_nodes, nodeAt_setNode_ne _ _ (by show i ≠ n; omega)]
    have hkind : (nodeAt nodes₂ n).kind = .internal := by
      rw [hold₂ n (Nat.lt_succ_self n), takeInternal_work_nodes, nodeAt_setNode_self]
    have hend : n + (l.size + r.size + 1) = n + 1 + l.size + r.size := by omega
    rw [hsize, hlen]
    refine ⟨setNode n { nodeAt nodes₃ n with right := n + 1 + l.size } nodes₃, ?_, ?_, fun i hi => ?_, ?_⟩
    · rw [run_succ _ hst, run_add _ hrun₂, hrun₃,
        ← closeSubtree_right (pos := s.reader.rdpos + 1 + l.serialize.length) (len := r.serialize.length) (by omega)
          n (n + 1 + l.size) _ (n + 1 + l.size) nodes₃ s₂.work.nodes]
      exact congrArg _ (by rw [hend])
    · rw [hend]
      exact representsIn_node (by omega) (by omega) hkind hrep₂ hold₃ hrep₃
    · rw [nodeAt_setNode_ne _ _ (Nat.ne_of_lt hi), hother i hi]
    · have hcount₂ : countLeaves nodes₂ (n + 1 + l.size) = countLeaves s.work.nodes n + l.leaves := by
        rw [← countLeaves_takeInternal]
        exact hcount₂
      have hcount₃ : countLeaves nodes₃ (n + 1 + l.size + r.size)
          = countLeaves nodes₂ (n + 1 + l.size) + r.leaves := by
        rw [← countLeaves_setNode (nodes := nodes₂) (n := n) (v := { nodeAt nodes₂ n with left := n + 1 }) rfl]
        exact hcount₃
      rw [hend]
      refine (countLeaves_setNode ?_ _).trans ?_
      · rfl
      · rw [hcount₃, hcount₂, FullTree.leaves, Nat.add_assoc]

/-- DESER_TREE whole: the tree is in the pool, its root in slot 0, and RD_COUNT follows (R155, R159). -/
theorem deser_tree {tree : FullTree} {s : State} (hr : Running .deserTree s) (hh : s.host = [])
    (hstack : s.work.stack = []) (h0 : s.work.nnodes = 0) (hpos : s.reader.rdpos = 0)
    (hsize : tree.size ≤ Config.nodePool) (hp : peekBits s 0 tree.serialize.length = .ok tree.serialize) :
    ∃ nodes, run tree.size s = .next { s with
        status := { s.status with phase := .rdCount }
        results := { s.results with
          leafCount := BitVec.ofNat 32 tree.leaves, treeBits := BitVec.ofNat 32 tree.serialize.length }
        reader := { s.reader with rdpos := tree.serialize.length }
        work := { s.work with nodes := nodes, nnodes := tree.size, root := 0, stack := [] } }
      ∧ Represents nodes 0 tree := by
  obtain ⟨nodes, hrun, hrep, -, hcount⟩ := deser_subtree tree s hr hh (by rw [h0, Nat.zero_add]; exact hsize)
    (by rw [hpos]; exact hp)
  rw [h0, Nat.zero_add] at hrun hrep hcount
  refine ⟨nodes, ?_, representsIn_represents hrep⟩
  rw [hrun]
  simp [closeSubtree, hstack, attach, deserDone, State.advance, State.toPhase, hpos, hcount, countLeaves]

/-! ### RD_COUNT (R192, R193) -/

/-- RD_COUNT with room for the count. -/
theorem step_rdCount {s : State} {n : Word} (hh : s.host = []) (hr : Running .rdCount s)
    (hp : peekBits s s.reader.rdpos 32 = .ok (msbBits n.toNat 32)) (hn : n.toNat ≤ s.latched.dstCap.toNat) :
    step s = .next (startDecode (takeCount n s)) := by
  have hdec : decode .count32 (msbBits n.toNat 32) = .ok (.count n, []) := by
    have h := decodeCount_bits (msbBits n.toNat 32) [] (msbBits_length _ _)
    rw [List.append_nil, natOfBits_msbBits, Nat.mod_eq_of_lt n.isLt, BitVec.ofNat_toNat, BitVec.setWidth_eq] at h
    exact h
  rw [step_running hh hr]
  simp [phaseStep, rdCountStep, fetchCount, hp, execFetched, hdec, exec, execCount, active_running hr, checkCapacity,
    Nat.not_lt.2 hn]

/-! ### DECODE (R194 to R196) -/

/-- A payload bit read at an internal node goes to its child. -/
theorem step_decode_bit {s : State} {b : Bool} (hh : s.host = []) (hr : Running .decode s)
    (ho : s.writer.outpos < s.results.symCount.toNat) (hk : (nodeAt s.work.nodes s.loop.cursor).kind = .internal)
    (hp : peekBit s s.reader.rdpos = .ok b) :
    step s = .next (walkStep
      (if b then (nodeAt s.work.nodes s.loop.cursor).right else (nodeAt s.work.nodes s.loop.cursor).left) s) := by
  rw [step_running hh hr]
  simp [phaseStep, decodeStep, Nat.not_le.2 ho, hk, fetchPayload, peekBits, hp, execFetched, decodePayload_bit,
    exec_payload_decode b hr]

/-- At a leaf its symbol is written, and the walk goes back to the root. -/
theorem step_decode_symbol {s : State} (hh : s.host = []) (hr : Running .decode s)
    (ho : s.writer.outpos < s.results.symCount.toNat) (hk : (nodeAt s.work.nodes s.loop.cursor).kind = .leaf)
    (hf : busFault s.platform .write (dstByteAddr s s.writer.outpos) = false) :
    step s = .next { s with
      mem := writeByte (dstByteAddr s s.writer.outpos).toNat (nodeAt s.work.nodes s.loop.cursor).sym s.mem
      writer := { s.writer with outpos := s.writer.outpos + 1 }
      loop := { s.loop with cursor := s.work.root } } := by
  rw [step_running hh hr]
  simp [phaseStep, decodeStep, Nat.not_le.2 ho, hk, emitSymbol, memWrite_ok _ hf, orBusError]

/-- With all symbols written the command ends. -/
theorem step_decode_done {s : State} (hh : s.host = []) (hr : Running .decode s)
    (ho : s.writer.outpos = s.results.symCount.toNat) :
    step s = .next (endCommand .noError { s with results := { s.results with outLen := s.results.symCount } }) := by
  rw [step_running hh hr]
  simp [phaseStep, decodeStep, ho, raise]

/-- The bits of a path lead from a node to the leaf the path leads to. -/
theorem decode_path (tree : FullTree) : ∀ (path : Bits) (sym : Byte) (s : State), Running .decode s → s.host = [] →
    s.writer.outpos < s.results.symCount.toNat → Represents s.work.nodes s.loop.cursor tree →
    tree.follow path = some sym → peekBits s s.reader.rdpos path.length = .ok path →
    ∃ c, run path.length s = .next { s with
        reader := { s.reader with rdpos := s.reader.rdpos + path.length }, loop := { s.loop with cursor := c } }
      ∧ (nodeAt s.work.nodes c).kind = .leaf ∧ (nodeAt s.work.nodes c).sym = sym := by
  induction tree with
  | leaf sym' =>
    intro path sym s hr hh ho ht hf hp
    obtain ⟨hk, hsym⟩ := ht
    cases path with
    | nil =>
      cases hf
      exact ⟨s.loop.cursor, rfl, hk, hsym⟩
    | cons b bs => exact nomatch hf
  | node l r ihl ihr =>
    intro path sym s hr hh ho ht hf hp
    obtain ⟨hk, hl, hrt⟩ := ht
    cases path with
    | nil => exact nomatch hf
    | cons b bs =>
      obtain ⟨hb, hbs⟩ := peekBits_cons.1 hp
      have hst := step_decode_bit hh hr ho hk hb
      have hbs' : ∀ c, peekBits (walkStep c s) (walkStep c s).reader.rdpos bs.length = .ok bs := fun c =>
        (peekBits_congr (s := s) (t := walkStep c s) rfl rfl rfl rfl _ _).trans hbs
      have hchild : ∃ c, run bs.length (walkStep
            (if b then (nodeAt s.work.nodes s.loop.cursor).right else (nodeAt s.work.nodes s.loop.cursor).left) s)
          = .next { s with
            reader := { s.reader with rdpos := s.reader.rdpos + 1 + bs.length }, loop := { s.loop with cursor := c } }
          ∧ (nodeAt s.work.nodes c).kind = .leaf ∧ (nodeAt s.work.nodes c).sym = sym := by
        cases b with
        | false => exact ihl bs sym (walkStep _ s) hr hh ho hl hf (hbs' _)
        | true => exact ihr bs sym (walkStep _ s) hr hh ho hrt hf (hbs' _)
      obtain ⟨c, hrun, hleaf⟩ := hchild
      refine ⟨c, ?_, hleaf⟩
      rw [List.length_cons, run_succ _ hst, hrun, Nat.add_assoc, Nat.add_comm 1]

/-- The bits of a leaf's path and one more step write the leaf's symbol. -/
theorem decode_code {tree : FullTree} {path : Bits} {sym : Byte} {s : State} (hr : Running .decode s)
    (hh : s.host = []) (ho : s.writer.outpos < s.results.symCount.toNat) (hc : s.loop.cursor = s.work.root)
    (ht : Represents s.work.nodes s.work.root tree) (hf : tree.follow path = some sym)
    (hp : peekBits s s.reader.rdpos path.length = .ok path)
    (hw : busFault s.platform .write (dstByteAddr s s.writer.outpos) = false) :
    run (path.length + 1) s = .next { s with
      mem := writeByte (dstByteAddr s s.writer.outpos).toNat sym s.mem
      writer := { s.writer with outpos := s.writer.outpos + 1 }
      reader := { s.reader with rdpos := s.reader.rdpos + path.length } } := by
  obtain ⟨c, hrun, hk, hsym⟩ := decode_path tree path sym s hr hh ho (by rw [hc]; exact ht) hf hp
  have hst := step_decode_symbol (s := { s with
    reader := { s.reader with rdpos := s.reader.rdpos + path.length }, loop := { s.loop with cursor := c } })
    hh hr ho hk hw
  rw [run_add 1 hrun, run_one, hst]
  simp only [hsym, ← hc]
  rfl

/-- The paths of symbols, one after the other in the source, write those symbols. -/
theorem decode_symbols {tree : FullTree} {pad : Bits} (paths : List Bits) : ∀ (syms : List Byte) (s : State),
    Running .decode s → s.host = [] → windowsLegal s.latched = true → SourceReadable s →
    s.reader.rdlimit = 8 * s.latched.srcLen.toNat → s.loop.cursor = s.work.root →
    Represents s.work.nodes s.work.root tree → paths.map tree.follow = syms.map some →
    s.writer.outpos + syms.length = s.results.symCount.toNat →
    s.results.symCount.toNat ≤ s.latched.dstCap.toNat → DestWritable s s.results.symCount.toNat →
    (sourceBits s).drop s.reader.rdpos = paths.flatten ++ pad →
    ∃ k m, run k s = .next { s with
        mem := m
        writer := { s.writer with outpos := s.results.symCount.toNat }
        reader := { s.reader with rdpos := s.reader.rdpos + paths.flatten.length } }
      ∧ (∀ j, (h : j < syms.length) → readByte (dstByteAddr s (s.writer.outpos + j)).toNat m = syms[j])
      ∧ ∀ a, (∀ j, s.writer.outpos ≤ j → j < s.results.symCount.toNat → a ≠ (dstByteAddr s j).toNat) →
          readByte a m = readByte a s.mem := by
  induction paths with
  | nil =>
    intro syms s hr hh hl hs hrd hc ht hf hn hcap hw hsrc
    have hnil : syms = [] := List.map_eq_nil_iff.1 hf.symm
    subst hnil
    exact ⟨0, s.mem, by rw [run_zero, ← hn]; rfl, fun j h => absurd h (Nat.not_lt_zero j), fun _ _ => rfl⟩
  | cons path paths ih =>
    intro syms s hr hh hl hs hrd hc ht hf hn hcap hw hsrc
    cases syms with
    | nil => exact nomatch hf
    | cons sym syms =>
      obtain ⟨hf₁, hf⟩ := List.cons_eq_cons.1 hf
      rw [List.length_cons] at hn
      rw [List.flatten_cons, List.append_assoc] at hsrc
      have hp := (windowsLegal_iff.1 hl).2.1
      have ho : s.writer.outpos < s.results.symCount.toNat := by omega
      have haddr : ∀ j, j < s.results.symCount.toNat → (dstByteAddr s j).toNat = s.latched.dstAddr.toNat + j :=
        fun j hj => dstByteAddr_toNat hp (by omega)
      let u : State := { s with
        mem := writeByte (dstByteAddr s s.writer.outpos).toNat sym s.mem
        writer := { s.writer with outpos := s.writer.outpos + 1 }
        reader := { s.reader with rdpos := s.reader.rdpos + path.length } }
      have hrun : run (path.length + 1) s = .next u :=
        decode_code hr hh ho hc ht hf₁ (peekBits_source hrd hs path _ _ hsrc) (hw _ ho)
      have hsu : sourceBits u = sourceBits s := by
        rw [sourceBits, sourceBits, sourceBytes_stable (s := s) (t := u) hl rfl fun a ha =>
          readByte_writeByte_ne _ _ (ha _ (by omega))]
      obtain ⟨k, m, hrun', hwritten, hframe⟩ := ih syms u hr hh hl hs hrd hc ht hf
        (by show s.writer.outpos + 1 + syms.length = s.results.symCount.toNat; omega) hcap hw (by
          rw [hsu]
          show (sourceBits s).drop (s.reader.rdpos + path.length) = _
          rw [← List.drop_drop, hsrc, List.drop_left])
      refine ⟨path.length + 1 + k, m, ?_, fun j hj => ?_, fun a ha => ?_⟩
      · rw [run_add k hrun, hrun', List.flatten_cons, List.length_append, ← Nat.add_assoc]
      · cases j with
        | zero =>
          refine (hframe _ fun i hi hi' => ?_).trans (readByte_writeByte_self _ _ _)
          have hi : s.writer.outpos + 1 ≤ i := hi
          show (dstByteAddr s s.writer.outpos).toNat ≠ (dstByteAddr s i).toNat
          rw [haddr _ ho, haddr i hi']
          omega
        | succ j =>
          have h := hwritten j (by simpa using hj)
          rw [show u.writer.outpos + j = s.writer.outpos + (j + 1) from Nat.add_right_comm _ _ _] at h
          exact h
      · rw [hframe a fun j hj hj' => ha j (le_trans (Nat.le_succ _) hj) hj']
        exact readByte_writeByte_ne _ _ (ha _ (le_refl _) ho)

/-! ## Whole DECOMPRESS -/

/-- DECOMPRESS of the stream of a tree and paths of it, in legal windows, whatever bits follow (R190 to R198): it ends
without error, with the symbols of the paths in the destination. -/
theorem decompress_decodes {s0 s : State} {tree : FullTree} {paths : List Bits} {syms : List Byte} {pad : Bits}
    (hst : s = startCommand 0x00000002#32 s0) (hh : s.host = []) (hl : windowsLegal s.latched = true)
    (hs : SourceReadable s) (hw : DestWritable s syms.length) (hsize : tree.size ≤ Config.nodePool)
    (hf : paths.map tree.follow = syms.map some) (hcap : syms.length ≤ s.latched.dstCap.toNat)
    (hsrc : sourceBits s = tree.stream paths ++ pad) :
    ∃ k t, run k s = .next t ∧ t.status = ⟨false, true, .noError, .decode⟩
      ∧ t.results = ⟨BitVec.ofNat 32 syms.length, BitVec.ofNat 32 syms.length, BitVec.ofNat 32 tree.leaves,
          BitVec.ofNat 32 tree.serialize.length⟩
      ∧ t.reader.rdpos = (tree.stream paths).length
      ∧ (∀ j, (h : j < syms.length) → readByte (dstByteAddr s j).toNat t.mem = syms[j])
      ∧ ∀ a, (∀ j, j < syms.length → a ≠ (dstByteAddr s j).toNat) → readByte a t.mem = readByte a s.mem := by
  subst hst
  let s := startCommand 0x00000002#32 s0
  have hlen : paths.length = syms.length := by simpa using congrArg List.length hf
  let n : Word := BitVec.ofNat 32 syms.length
  have hn : n.toNat = syms.length := by
    have h32 := s.latched.dstCap.isLt
    have hcap : syms.length ≤ s.latched.dstCap.toNat := hcap
    rw [BitVec.toNat_ofNat]
    exact Nat.mod_eq_of_lt (by omega)
  rw [FullTree.stream, hlen, ← hn, List.append_assoc, List.append_assoc] at hsrc
  -- CHECK and DESER_TREE
  let u : State := State.toPhase .deserTree (fromBytes s)
  have hcheck : step s = .next u := step_check_decompress hh ⟨rfl, rfl⟩ rfl hl
  obtain ⟨nodes, hdeser, hrep⟩ := deser_tree (s := u) ⟨rfl, rfl⟩ hh rfl rfl rfl hsize
    (peekBits_source (s := u) rfl hs tree.serialize 0 _ hsrc)
  -- RD_COUNT
  let v : State := { u with
    status := { u.status with phase := .rdCount }
    results := { u.results with
      leafCount := BitVec.ofNat 32 tree.leaves, treeBits := BitVec.ofNat 32 tree.serialize.length }
    reader := { u.reader with rdpos := tree.serialize.length }
    work := { u.work with nodes := nodes, nnodes := tree.size, root := 0, stack := [] } }
  have hdrop : (sourceBits v).drop tree.serialize.length = msbBits n.toNat 32 ++ (paths.flatten ++ pad) := by
    rw [show sourceBits v = _ from hsrc, List.drop_left]
  have hpeek := peekBits_source (s := v) rfl hs _ _ _ hdrop
  rw [msbBits_length] at hpeek
  have hcount : step v = .next (startDecode (takeCount n v)) :=
    step_rdCount hh ⟨rfl, rfl⟩ hpeek (by rw [hn]; exact hcap)
  -- DECODE
  let d : State := startDecode (takeCount n v)
  have hdrop' : (sourceBits d).drop (tree.serialize.length + 32) = paths.flatten ++ pad := by
    rw [show sourceBits d = sourceBits v from rfl, ← List.drop_drop, hdrop, List.drop_left' (msbBits_length _ _)]
  obtain ⟨k, m, hdecode, hwritten, hframe⟩ := decode_symbols paths syms d ⟨rfl, rfl⟩ hh hl hs rfl rfl hrep hf
    (by show 0 + syms.length = n.toNat; rw [hn, Nat.zero_add]) (by show n.toNat ≤ _; rw [hn]; exact hcap)
    (by show DestWritable d n.toNat; rw [hn]; exact hw) hdrop'
  let e : State := { d with
    mem := m
    writer := { d.writer with outpos := n.toNat }
    reader := { d.reader with rdpos := tree.serialize.length + 32 + paths.flatten.length } }
  have hend := step_decode_done (s := e) hh ⟨rfl, rfl⟩ rfl
  have hrun : run (tree.size + (k + 1 + 1) + 1) s = .next (endCommand .noError
      { e with results := { e.results with outLen := n } }) := by
    rw [run_succ _ hcheck, run_add _ hdeser]
    exact (run_succ _ hcount).trans ((run_add 1 hdecode).trans ((run_one e).trans hend))
  refine ⟨_, _, hrun, rfl, ?_, ?_, fun j hj => ?_, fun a ha => ?_⟩
  · show Results.mk (BitVec.ofNat 32 n.toNat) n _ _ = _
    rw [BitVec.ofNat_toNat, BitVec.setWidth_eq]
    rfl
  · rw [stream_length, ← Nat.add_assoc]
    rfl
  · have h := hwritten j hj
    rw [show d.writer.outpos + j = j from Nat.zero_add j] at h
    exact h
  · exact hframe a fun j _ hj => ha j (by rw [← hn]; exact hj)

/-! ## Round trip (R2, R178) -/

/-- A run from a command start keeps the host's queue empty and the latched windows. -/
theorem run_start_keeps {s0 s t : State} {w : Word} {k : Nat} (hst : s = startCommand w s0) (hh : s.host = [])
    (hrun : run k s = .next t) : t.host = [] ∧ t.latched = s.latched := by
  subst hst
  obtain ⟨hht, -, -, hlat⟩ := run_keeps hrun hh (fun _ => accClean_zero _ _ _) (storeWf_nil _ _)
  exact ⟨hht, hlat⟩

/-- A COMPRESS that ends without error passed CHECK: its windows are legal (R212). -/
theorem windowsLegal_of_end {s0 s t : State} {k : Nat} (hst : s = startCommand 0x00000001#32 s0) (hh : s.host = [])
    (hrun : run k s = .next t) (ht : t.status = ⟨false, true, .noError, .final⟩) : windowsLegal s.latched = true := by
  by_contra hl
  have hbad : step s = .next (endCommand .invalidArgument s) :=
    step_check_illegal hh (by rw [hst]; exact ⟨rfl, rfl⟩) (Bool.eq_false_iff.2 hl)
  have hend := run_end_unique hrun ((run_one s).trans hbad) (run_start_keeps hst hh hrun).1 (by rw [ht]) hh rfl
  rw [hend] at ht
  exact nomatch congrArg Status.errcode ht

/-- What a COMPRESS that ended without error wrote (R177): the stream of a tree of at most 511 nodes and of paths of it
to the source's symbols, zero padded. It met no bus error, so it ran as on a platform without faults. -/
theorem compress_wrote {s0 s t : State} {k : Nat} (hst : s = startCommand 0x00000001#32 s0) (hh : s.host = [])
    (hrun : run k s = .next t) (ht : t.status = ⟨false, true, .noError, .final⟩) :
    ∃ (tree : FullTree) (paths : List Bits) (pad : Bits), tree.size ≤ Config.nodePool
      ∧ paths.map tree.follow = (sourceBytes s).map some
      ∧ destBits t t.results.outLen.toNat = tree.stream paths ++ pad := by
  have hst' : faultFree s = startCommand 0x00000001#32 (faultFree s0) := by rw [hst]; rfl
  have hrun' : run k (faultFree s) = .next (faultFree t) :=
    run_faultFree hrun hh (by rw [hst]; rfl) (by rw [ht])
  have hends : ∀ {k' : Nat} {t' : State}, run k' (faultFree s) = .next t' → t'.status.busy = false →
      t' = faultFree t := fun hrun'' hb =>
    run_end_unique hrun'' hrun' (run_start_keeps hst' hh hrun'').1 hb (run_start_keeps hst hh hrun).1
      (congrArg Status.busy ht)
  have hl : windowsLegal (faultFree s).latched = true := (windowsLegal_of_end hst hh hrun ht :)
  obtain ⟨tree, code, hsize, hfollow, hcases⟩ :=
    compress_writes hst' hh hl fun i _ => busFault_faultFree s .read _
  obtain ⟨stream, hstream⟩ : ∃ stream, stream = tree.stream ((sourceBytes s).map code) := ⟨_, rfl⟩
  obtain ⟨hover, hfits⟩ := hcases stream ((stream.length + 7) / 8) hstream rfl
  by_cases hcap : s.latched.dstCap.toNat < (stream.length + 7) / 8
  · obtain ⟨k', t', hrun'', hstatus, -⟩ := hover hcap
    obtain rfl := hends hrun'' (by rw [hstatus])
    exact nomatch congrArg Status.errcode (ht.symm.trans hstatus)
  · obtain ⟨k', t', hrun'', hstatus, hout, -, -, -, -, hdest, -⟩ :=
      hfits (Nat.le_of_not_lt hcap) fun j _ => busFault_faultFree s .write _
    obtain rfl := hends hrun'' (by rw [hstatus])
    rw [← hout, hstream] at hdest
    exact ⟨tree, (sourceBytes s).map code, _, hsize, by rw [List.map_map]; exact List.map_congr_left hfollow, hdest⟩

theorem bitsOfBytes_eq_flatMap (l : List Byte) : bitsOfBytes l = l.flatMap fun b => msbBits b.toNat 8 := by
  induction l with
  | nil => rfl
  | cons b l ih => rw [bitsOfBytes, ih, List.flatMap_cons]

/-- A source window that holds what a destination window got holds its bits. -/
theorem sourceBits_eq_destBits {s t : State} {n : Nat} (hn : s.latched.srcLen.toNat = n)
    (h : ∀ j, j < n → readByte (srcByteAddr s j).toNat s.mem = readByte (dstByteAddr t j).toNat t.mem) :
    sourceBits s = destBits t n := by
  rw [sourceBits, bitsOfBytes_eq_flatMap, sourceBytes, hn, List.flatMap_map]
  exact List.flatMap_congr fun j hj => by rw [h j (List.mem_range.1 hj)]

/-- COMPRESS executed while no command runs is a command start (R211). -/
theorem exec_compress_idle {s0 s : State} (hb : s0.status.busy = false) (h : exec .compress s0 = .next s) :
    s = startCommand 0x00000001#32 s0 := by
  simp only [exec, execCompress, commandWrite_idle _ hb] at h
  cases h
  rfl

/-- DECOMPRESS executed while no command runs is a command start (R211). -/
theorem exec_decompress_idle {s0 s : State} (hb : s0.status.busy = false) (h : exec .decompress s0 = .next s) :
    s = startCommand 0x00000002#32 s0 := by
  simp only [exec, execDecompress, commandWrite_idle _ hb] at h
  cases h
  rfl

/-- Settles O60: the COMPRESS wrote the stream of a tree and of paths to the source's symbols, zero padded
(`compress_wrote`), and DECOMPRESS of a tree's stream gives the symbols of its paths (`decompress_decodes`). -/
theorem roundTrip : Obligations.RoundTrip := by
  unfold Obligations.RoundTrip
  intro s0 s t s0' s' k hidle hcmd hh hrun ht hidle' hcmd' hh' hl' hs' hw' hsrcLen hmem hcap
  have hst := exec_compress_idle hidle hcmd
  have hst' := exec_decompress_idle hidle' hcmd'
  have haddr : ∀ j, dstByteAddr t j = dstByteAddr s j := fun j => by
    rw [dstByteAddr, (run_start_keeps hst hh hrun).2]
    rfl
  obtain ⟨tree, paths, pad, hsize, hfollow, hdest⟩ := compress_wrote hst hh hrun ht
  have hbits : sourceBits s' = tree.stream paths ++ pad := by
    rw [sourceBits_eq_destBits (t := t) (by rw [hsrcLen]) fun j hj => by rw [haddr]; exact hmem j hj]
    exact hdest
  have hlen := sourceBytes_length s
  obtain ⟨k', t', hrun', hstatus, hres, -, hwritten, -⟩ := decompress_decodes hst' hh' hl' hs'
    (by rw [hlen]; exact hw') hsize hfollow (by rw [hlen]; exact hcap) hbits
  refine ⟨k', t', hrun', hstatus, ?_, hwritten⟩
  rw [hres, hlen, BitVec.ofNat_toNat, BitVec.setWidth_eq]

end Sys2Proof.Machine

/-!
The register map as the host reads it (10_state.md), what every step keeps of BUSY and DONE (R24, R25), and the two
invariants of the whole machine.
-/

/-! ## What a move does to the block -/

namespace Sys2Proof.Machine

open Sys2Proof.Safety

/-- A move of the engine ends the command, DONE set and PHASE kept (R235), or leaves it running in its phase or in one
that may follow it (R172, R191); it writes nothing else of STATUS. -/
theorem engineMove_status {u t : State} (h : EngineMove u t) :
    (∃ e, t.status = ⟨false, true, e, u.status.phase⟩)
      ∨ ∃ p, t.status = { u.status with phase := p }
          ∧ (p = u.status.phase ∨ phaseFollows u.status.phase p = true) := by
  cases h
  case checkBad | freqError | sizeOverflow | serError | countError | encodeBitError | encodeReadError | finalDone
      | finalError | deserError | countReadError | countTooLarge | decodeDone | decodeWriteError | decodeReadError =>
    exact .inl ⟨_, rfl⟩
  case freqByte | buildMerge | codesVisit | serToken | encodeBit | deserInternal | decodeSymbol | decodeBit =>
    exact .inr ⟨_, rfl, .inl rfl⟩
  case checkCompress h _ _ | checkDecompress h _ _ | buildEmpty h _ _ | buildLast h _ _ _ | codesDone h _
      | sizeOk h _ _ _ | serDone h _ | encodeDone h _ _ | countRead h _ _ _ =>
    exact .inr ⟨_, rfl, .inr (by rw [h.2]; rfl)⟩
  case encodeByte => exact .inr ⟨u.status.phase, loadCode_status _ _, .inl rfl⟩
  case freqDone h _ =>
    refine .inr ⟨_, rfl, .inr ?_⟩
    rw [h.2]
    split <;> rfl
  case buildLeaves h _ =>
    unfold Machine.buildLeaves
    dsimp only
    split
    · exact .inr ⟨_, rfl, .inl rfl⟩
    · exact .inr ⟨_, rfl, .inr (by rw [h.2]; rfl)⟩
  case countWritten h m w d _ _ =>
    unfold afterCount
    split <;> exact .inr ⟨_, rfl, .inr (by rw [h.2]; rfl)⟩
  case deserLeaf h _ _ sym =>
    unfold takeLeaf
    dsimp only
    split
    · exact .inr ⟨_, rfl, .inl rfl⟩
    · exact .inr ⟨_, rfl, .inr (by rw [h.2]; rfl)⟩

/-- Nothing that a running command works on changes: all but the window registers, IRQ_EN, memory and the model's own
fields is as it was. -/
def BlockKept (u t : State) : Prop :=
  t = { u with win := t.win, irqEn := t.irqEn, mem := t.mem, rdata := t.rdata, draws := t.draws }

theorem BlockKept.refl (s : State) : BlockKept s s := rfl

/-- A host read changes what it returns, and the model's counter where it draws (log 6). -/
theorem hostRead_eq (r : Reg) (s : State) :
    hostRead r s = { s with rdata := (hostRead r s).rdata, draws := (hostRead r s).draws } := by
  unfold hostRead
  split <;> rfl

theorem hostRead_kept (r : Reg) (s : State) : BlockKept s (hostRead r s) := by
  rw [hostRead_eq]
  rfl

/-- A host write of a register other than CMD and STATUS reaches the window registers and IRQ_EN only (R214, R37). -/
theorem hostWriteReg_kept {r : Reg} (v : Word) (s : State) (hr : r ≠ .status) : BlockKept s (hostWriteReg r v s) := by
  cases r <;> simp only [hostWriteReg]
  case status => exact absurd rfl hr
  case srcAddr | srcLen | dstAddr | dstCap => split <;> rfl
  all_goals rfl

/-- A host write of STATUS clears DONE, with bit 1 set and BUSY = 0, or does nothing (R215). -/
theorem hostWriteReg_status (v : Word) (s : State) :
    (s.status.busy = false ∧ v.getLsbD 1 = true
        ∧ hostWriteReg .status v s = { s with status := { s.status with done := false } })
      ∨ hostWriteReg .status v s = s := by
  unfold hostWriteReg
  by_cases hb : s.status.busy = true
  · exact .inr (if_pos hb)
  · by_cases hv : v.getLsbD 1 = true
    · exact .inl ⟨by simpa using hb, hv, (if_neg hb).trans (if_pos hv)⟩
    · exact .inr ((if_neg hb).trans (if_neg hv))

/-- The moves of the host that reach the block are a command start (R211), the clear of DONE (R215) and reset (R260). -/
theorem hostEffect_cases {m : HostMove} {u t : State} (h : HostEffect u m t) :
    (∃ addr v, m = .write addr 4 v ∧ accessedReg u.platform addr 4 = some .cmd ∧ u.status.busy = false
        ∧ t = startCommand v u)
      ∨ (∃ addr v, m = .write addr 4 v ∧ accessedReg u.platform addr 4 = some .status ∧ u.status.busy = false
          ∧ v.getLsbD 1 = true ∧ t = { u with status := { u.status with done := false } })
      ∨ (m = .reset ∧ t = resetBlock u)
      ∨ BlockKept u t := by
  cases h with
  | read addr r h => exact .inr (.inr (.inr (hostRead_kept r u)))
  | command addr v h =>
    cases hb : u.status.busy with
    | false => exact .inl ⟨addr, v, rfl, h, rfl, commandWrite_idle v hb⟩
    | true => exact .inr (.inr (.inr (by rw [commandWrite_busy v hb]; exact .refl u)))
  | write addr v r h hr =>
    by_cases hs : r = .status
    · subst hs
      rcases hostWriteReg_status v u with ⟨hb, hv, ht⟩ | ht
      · exact .inr (.inl ⟨addr, v, rfl, h, hb, hv, ht⟩)
      · exact .inr (.inr (.inr (by rw [ht]; exact .refl u)))
    · exact .inr (.inr (.inr (hostWriteReg_kept v u hs)))
  | memRead a h => exact .inr (.inr (.inr rfl))
  | memWrite a v h => exact .inr (.inr (.inr rfl))
  | reset => exact .inr (.inr (.inl ⟨rfl, rfl⟩))

/-- A step is a move of a running command, an engine turn with BUSY = 0, which changes nothing (R246), or a move of the
host. -/
theorem step_cases {s t : State} (h : step s = .next t) :
    (∃ u, EngineTurn s u ∧ u.status.busy = true ∧ EngineMove u t)
      ∨ (EngineTurn s t ∧ t.status.busy = false)
      ∨ ∃ m rest, s.host = m :: rest ∧ HostEffect { s with host := rest } m t := by
  rcases turn_cases s with ⟨u, hu⟩ | ⟨m, rest, hs, hm⟩
  · cases hb : u.status.busy with
    | true => exact .inl ⟨u, hu, hb, engineMove_of_step hu hb h⟩
    | false =>
      rw [step_engine hu, engineStep_idle hb] at h
      cases h
      exact .inr (.inl ⟨hu, hb⟩)
  · exact .inr (.inr ⟨m, rest, hs, hostEffect_of_step hs hm h⟩)

/-- The engine moves from a state with the STATUS of the one before the turn. -/
theorem engineTurn_status {s u : State} (h : EngineTurn s u) : u.status = s.status := by
  rw [engineTurn_host h]

/-! ## BUSY and DONE -/

/-- A bit that keeps its value neither rises nor falls. -/
theorem bit_unchanged {b c : Bool} (h : c = b) {P Q : Prop} :
    (b = false → c = true → P) ∧ (b = true → c = false → Q) := by
  subst h
  cases c <;> simp

/-- Settles O13: of the moves a step can be (`step_cases`), only a command start sets BUSY, and only a command's end
(`engineMove_status`) and reset clear it. -/
theorem busyChangesOnlyAtStartEndAndReset : Obligations.BusyChangesOnlyAtStartEndAndReset := by
  unfold Obligations.BusyChangesOnlyAtStartEndAndReset
  intro s t h
  rcases step_cases h with ⟨u, hu, hb, hm⟩ | ⟨hu, -⟩ | ⟨m, rest, hs, he⟩
  · rw [← engineTurn_status hu]
    rcases engineMove_status hm with ⟨e, ht⟩ | ⟨p, ht, -⟩
    · exact ⟨fun h0 _ => absurd hb (by simp [h0]), fun _ _ => .inr ⟨u, hu, by rw [ht]⟩⟩
    · exact bit_unchanged (by rw [ht])
  · exact bit_unchanged (by rw [engineTurn_status hu])
  · rcases hostEffect_cases he with ⟨addr, v, rfl, hr, hb, rfl⟩ | ⟨-, -, -, -, -, -, rfl⟩ | ⟨rfl, rfl⟩ | hk
    · exact ⟨fun _ _ => ⟨addr, v, rest, hs, hr, rfl⟩, fun _ h0 => nomatch h0⟩
    · exact bit_unchanged rfl
    · exact ⟨fun _ h1 => (nomatch h1), fun _ _ => .inl ⟨_, hs⟩⟩
    · exact bit_unchanged (by rw [hk])

/-- Settles O14: of the moves a step can be (`step_cases`), only a command's end sets DONE, and the engine clears it
nowhere (`engineMove_status`); of the host's moves (`hostEffect_cases`) three clear it. -/
theorem doneChangesOnlyWhereTheRulesSay : Obligations.DoneChangesOnlyWhereTheRulesSay := by
  unfold Obligations.DoneChangesOnlyWhereTheRulesSay
  intro s t h
  rcases step_cases h with ⟨u, hu, hb, hm⟩ | ⟨hu, -⟩ | ⟨m, rest, hs, he⟩
  · rw [← engineTurn_status hu]
    rcases engineMove_status hm with ⟨e, ht⟩ | ⟨p, ht, -⟩
    · exact ⟨fun _ _ => ⟨hb, by rw [ht], u, hu⟩, fun _ h0 => by rw [ht] at h0; exact nomatch h0⟩
    · exact bit_unchanged (by rw [ht])
  · exact bit_unchanged (by rw [engineTurn_status hu])
  · rcases hostEffect_cases he with ⟨addr, v, rfl, hr, hb, rfl⟩ | ⟨addr, v, rfl, hr, hb, hv, rfl⟩ | ⟨rfl, rfl⟩ | hk
    · exact ⟨fun _ h1 => (nomatch h1), fun _ _ => .inr ⟨hb, addr, v, rest, hs, .inl ⟨hr, rfl⟩⟩⟩
    · exact ⟨fun _ h1 => (nomatch h1), fun _ _ => .inr ⟨hb, addr, v, rest, hs, .inr ⟨hr, hv⟩⟩⟩
    · exact ⟨fun _ h1 => (nomatch h1), fun _ _ => .inl ⟨_, hs⟩⟩
    · exact bit_unchanged (by rw [hk])

/-! ## Register reads -/

/-- A read of a register whose value is fixed returns it and has no other effect (R216, R40). -/
theorem hostRead_fixed {r : Reg} {s : State} (h : s.status.busy = false ∨ r.openWhileBusy = false) :
    hostRead r s = { s with rdata := readReg r s } := by
  unfold hostRead
  rw [if_neg]
  rcases h with h | h <;> simp [h]

/-- A read of STATUS while BUSY = 1 leaves PHASE open (R40). -/
theorem hostRead_status_busy {s : State} (h : s.status.busy = true) :
    hostRead .status s
      = { s with rdata := busyStatusWord (Config.freePhase s.draws), draws := s.draws + 1 } := by
  simp [hostRead, h, Reg.openWhileBusy, busyRead]

/-- A read of a register of the block, as a step. -/
theorem step_read {s : State} {k : Nat} {rest : List HostMove} (hk : k < 16)
    (hs : s.host = .read (regAddr s.platform k) 4 :: rest) :
    step s = .next (hostRead (regAt k) { s with host := rest }) := by
  rw [step_host hs]
  exact hostMove_read (s := { s with host := rest }) hk

/-- Offsets 0x30 to 0x3C are reserved (R21, R39). -/
theorem regAt_reserved {k : Nat} (h : 12 ≤ k) : regAt k = .reserved := by
  obtain ⟨j, rfl⟩ := Nat.exists_eq_add_of_le' h
  rfl

/-- IRQ_EN reads as its bit 0 (R37). -/
theorem readReg_irqEn (s : State) : readReg .irqEn s = if s.irqEn then 1#32 else 0#32 := by
  unfold readReg
  cases s.irqEn <;> rfl

/-- The fields of the STATUS word stand where R23 has them. -/
theorem packStatus_toNat (busy done err : Bool) {errcode phase : Nat} (he : errcode < 16) (hp : phase < 16) :
    (packStatus busy done err errcode phase).toNat
      = busy.toNat + 2 * done.toNat + 4 * err.toNat + 16 * errcode + 256 * phase := by
  have hb := busy.toNat_lt
  have hd := done.toNat_lt
  have hr := err.toNat_lt
  unfold packStatus
  rw [BitVec.toNat_ofNat]
  exact Nat.mod_eq_of_lt (by omega)

/-- A bit of a word, as a digit of its value. -/
theorem getLsbD_eq_digit {w : Word} {b : Bool} {i : Nat} (h : w.toNat / 2 ^ i % 2 = b.toNat) : w.getLsbD i = b := by
  rw [← BitVec.testBit_toNat, Nat.testBit_eq_decide_div_mod_eq, h]
  cases b <;> rfl

/-- A field of a word, as digits of its value. -/
theorem toNat_field (w : Word) (i n : Nat) : (w.extractLsb' i n).toNat = w.toNat / 2 ^ i % 2 ^ n := by
  rw [BitVec.extractLsb'_toNat, Nat.shiftRight_eq_div_pow]

theorem errCode_value_lt (e : ErrCode) : e.value < 16 := by cases e <;> decide

theorem phase_value_lt (p : Phase) : p.value < 16 := by cases p <;> decide

/-- The STATUS word read while BUSY = 0, field by field (R23 to R28). -/
theorem statusWord_fields (s : State) :
    (statusWord s).getLsbD 0 = s.status.busy ∧ (statusWord s).getLsbD 1 = s.status.done
      ∧ (statusWord s).getLsbD 2 = decide (s.status.errcode ≠ .noError) ∧ (statusWord s).getLsbD 3 = false
      ∧ ((statusWord s).extractLsb' 4 4).toNat = s.status.errcode.value
      ∧ ((statusWord s).extractLsb' 8 4).toNat = s.status.phase.value
      ∧ (statusWord s).extractLsb' 12 20 = 0#20 := by
  have he := errCode_value_lt s.status.errcode
  have hp := phase_value_lt s.status.phase
  have herr : errBit s = decide (s.status.errcode ≠ .noError) := by
    unfold errBit
    cases s.status.errcode <;> rfl
  have hw : (statusWord s).toNat = _ := packStatus_toNat s.status.busy s.status.done (errBit s) he hp
  have hb := s.status.busy.toNat_lt
  have hd := s.status.done.toNat_lt
  have hr := (errBit s).toNat_lt
  refine ⟨getLsbD_eq_digit ?_, getLsbD_eq_digit ?_, herr ▸ getLsbD_eq_digit ?_, getLsbD_eq_digit ?_, ?_, ?_,
    BitVec.eq_of_toNat_eq ?_⟩
  all_goals
    simp only [toNat_field, hw, Bool.toNat_false, BitVec.toNat_ofNat]
    omega

/-- The STATUS word read while BUSY = 1, field by field but PHASE (R40). -/
theorem busyStatusWord_fields (p : BitVec 4) :
    (busyStatusWord p).getLsbD 0 = true ∧ (busyStatusWord p).extractLsb' 1 7 = 0#7
      ∧ (busyStatusWord p).extractLsb' 12 20 = 0#20 := by
  have hw : (busyStatusWord p).toNat = _ := packStatus_toNat true false false (by decide : 0 < 16) p.isLt
  have hp := p.isLt
  refine ⟨getLsbD_eq_digit ?_, BitVec.eq_of_toNat_eq ?_, BitVec.eq_of_toNat_eq ?_⟩
  all_goals
    simp only [toNat_field, hw, Bool.toNat_false, Bool.toNat_true, BitVec.toNat_ofNat]
    omega

/-- Settles O9: a read while BUSY = 0 returns the register at its offset (`hostRead_fixed`); STATUS is packed field by
field (`statusWord_fields`). -/
theorem registerMapWhileIdle : Obligations.RegisterMapWhileIdle := by
  unfold Obligations.RegisterMapWhileIdle
  intro s k rest hk hb hs
  refine ⟨readReg (regAt k) { s with host := rest }, ?_, ?_, ?_, ?_⟩
  · rw [step_read hk hs, hostRead_fixed (s := { s with host := rest }) (.inl hb)]
  · rintro rfl; rfl
  · rintro rfl
    obtain ⟨hbusy, hfields⟩ := statusWord_fields { s with host := rest }
    exact ⟨hbusy.trans hb, hfields⟩
  refine ⟨?_, ?_, ?_, ?_, ?_, ?_, ?_, ?_, ?irqEn, ?_, fun h => ?reserved⟩
  case irqEn => rintro rfl; exact readReg_irqEn _
  case reserved => rw [regAt_reserved h]; rfl
  all_goals rintro rfl; rfl

/-- Settles O10: while BUSY = 1 a read of STATUS is fixed but for PHASE (`busyStatusWord_fields`), and the registers
that are no results read as stored (`hostRead_fixed`). -/
theorem registerReadsWhileBusy : Obligations.RegisterReadsWhileBusy := by
  unfold Obligations.RegisterReadsWhileBusy
  intro s k rest hk hb hs
  let u : State := { s with host := rest }
  have hstep : step s = .next { u with
      rdata := (hostRead (regAt k) u).rdata, draws := (hostRead (regAt k) u).draws } := by
    rw [step_read hk hs]
    exact congrArg _ (hostRead_eq (regAt k) u)
  have hfixed : (regAt k).openWhileBusy = false → (hostRead (regAt k) u).rdata = readReg (regAt k) u := fun ho => by
    rw [hostRead_fixed (.inr ho)]
  refine ⟨_, _, hstep, ?_, ?status, ?_, ?_, ?_, ?_, ?irqEn, ?_, fun h => ?reserved⟩
  case status =>
    rintro rfl
    rw [show regAt 1 = .status from rfl, hostRead_status_busy (s := u) hb]
    exact busyStatusWord_fields _
  case irqEn => rintro rfl; exact (hfixed rfl).trans (readReg_irqEn u)
  case reserved => rw [hfixed (by rw [regAt_reserved h]; rfl), regAt_reserved h]; rfl
  all_goals rintro rfl; exact hfixed rfl

/-! ## The invariant of registers, memory and stream positions -/

/-- The windows of a command stay the ones it has latched (R211). -/
theorem engineMove_latched {u t : State} (h : EngineMove u t) : t.latched = u.latched := by
  cases h <;> simp

/-- ENCODE starts with the first source byte (R176). -/
theorem afterCount_idx_le (s : State) : (afterCount s).loop.idx ≤ s.loop.idx := by
  unfold afterCount
  split
  · exact Nat.le_refl _
  · exact Nat.zero_le _

/-- The reader stays inside the source window (R48, R108): an element is consumed only where its bits remain. -/
theorem engineMove_reader {u t : State} (h : EngineMove u t)
    (hi : u.reader.rdpos ≤ u.reader.rdlimit ∧ u.reader.rdlimit = 8 * u.latched.srcLen.toNat) :
    t.reader.rdpos ≤ t.reader.rdlimit ∧ t.reader.rdlimit = 8 * t.latched.srcLen.toNat := by
  cases h
  case checkDecompress => exact ⟨Nat.zero_le _, rfl⟩
  case deserInternal hr _ => exact ⟨hr, hi.2⟩
  case deserLeaf hr _ sym => simpa using ⟨hr, hi.2⟩
  case countRead hr _ _ | countTooLarge hr _ _ => exact ⟨hr, hi.2⟩
  case decodeBit hr _ _ => exact ⟨hr, hi.2⟩
  case deserError hj | countReadError hj | decodeReadError hj =>
    exact ⟨hj.1.elim (fun h0 => by simpa [h0] using hi.1) id, hi.2⟩
  all_goals simpa using hi

/-- The source index stays inside the source window (R120, R176). -/
theorem engineMove_idx {u t : State} (h : EngineMove u t) (hi : u.loop.idx ≤ u.latched.srcLen.toNat) :
    t.loop.idx ≤ t.latched.srcLen.toNat := by
  rw [engineMove_latched h]
  cases h
  case freqByte hlt => exact hlt
  case encodeByte hlt => simpa using hlt
  case countWritten => exact (afterCount_idx_le _).trans hi
  all_goals simpa using hi

/-- OUTPOS stays inside the destination window (R104; in DECODE by R193). -/
theorem engineMove_outpos {u t : State} (h : EngineMove u t) (hi : u.writer.outpos ≤ u.latched.dstCap.toNat)
    (hn : Running .decode u → u.results.symCount.toNat ≤ u.latched.dstCap.toNat) :
    t.writer.outpos ≤ t.latched.dstCap.toNat := by
  rw [engineMove_latched h]
  cases h
  case serToken hf _ _ | serError hf | countError hf | encodeBit hf _ | encodeBitError hf | finalDone hf
      | finalError hf =>
    exact hf.outIn hi
  case countWritten hf _ => simpa using hf.outIn hi
  case decodeSymbol hr hlt v => exact hlt.trans_le (hn hr)
  all_goals simpa using hi

/-- A move that leaves the command running keeps NACC in step with WBITS (R104). -/
theorem engineMove_nacc {u t : State} (h : EngineMove u t) (hi : u.writer.nacc.toNat = u.writer.wbits % 8)
    (hb : t.status.busy = true) : t.writer.nacc.toNat = t.writer.wbits % 8 := by
  cases h
  case serToken hk | encodeBit hk => exact hk.1 hi
  case countWritten hk => simpa using hk.1 hi
  case checkBad | freqError | sizeOverflow | serError | countError | encodeBitError | encodeReadError | finalDone
      | finalError | deserError | countReadError | countTooLarge | decodeDone | decodeWriteError | decodeReadError =>
    exact nomatch hb
  all_goals simpa using hi

/-- A command is past CHECK only if its windows passed it (R66, R212). -/
theorem engineMove_windows {u t : State} (h : EngineMove u t)
    (hi : u.status.phase ≠ .check → windowsLegal u.latched = true) (hb : t.status.busy = true)
    (hp : t.status.phase ≠ .check) : windowsLegal t.latched = true := by
  rw [engineMove_latched h]
  by_cases hu : u.status.phase = .check
  · cases h
    case checkBad => exact nomatch hb
    case checkCompress hl _ | checkDecompress hl _ => exact hl
    all_goals
      rename Running _ u => hr
      exact nomatch hu.symm.trans hr.2
  · exact hi hu

/-- DECODE is entered only with a count that fits the destination, and keeps it (R193). -/
theorem engineMove_decodeCap {u t : State} (h : EngineMove u t)
    (hi : Running .decode u → u.results.symCount.toNat ≤ u.latched.dstCap.toNat) (hb : t.status.busy = true)
    (hp : t.status.phase = .decode) : t.results.symCount.toNat ≤ t.latched.dstCap.toNat := by
  rw [engineMove_latched h]
  cases h
  case countRead hn => exact hn
  case decodeSymbol h _ _ | decodeBit h _ _ _ _ => exact hi h
  all_goals
    rename Running _ u => hr
    simp [hr.2, ite_eq_iff] at hb hp

/-- No phase is followed by IDLE or CHECK (R172, R191). -/
theorem phaseFollows_ne_idle {p q : Phase} (h : phaseFollows p q = true) : q ≠ .idle := by
  rintro rfl
  cases p <;> exact nomatch h

/-- Every move of the engine keeps the invariant. -/
theorem engineMove_machineInv {u t : State} (h : EngineMove u t) (hb : u.status.busy = true) (hi : MachineInv u) :
    MachineInv t := by
  have hstatus := engineMove_status h
  have hrun : t.status.busy = true → ∃ p, t.status = { u.status with phase := p }
      ∧ (p = u.status.phase ∨ phaseFollows u.status.phase p = true) := fun hbt =>
    hstatus.resolve_left fun ⟨e, ht⟩ => by rw [ht] at hbt; exact nomatch hbt
  exact {
    memWf := memWf_engineMove h hi.memWf
    busyDone := fun ⟨hbt, hd⟩ => by
      obtain ⟨p, ht, -⟩ := hrun hbt
      rw [ht] at hd
      exact hi.busyDone ⟨hb, hd⟩
    busyErr := fun hbt => by
      obtain ⟨p, ht, -⟩ := hrun hbt
      rw [ht]
      exact hi.busyErr hb
    busyPhase := fun hbt => by
      obtain ⟨p, ht, hp⟩ := hrun hbt
      rw [ht]
      exact hp.elim (fun he => he ▸ hi.busyPhase hb) phaseFollows_ne_idle
    windows := engineMove_windows h (hi.windows hb)
    readerIn := engineMove_reader h hi.readerIn
    idxIn := engineMove_idx h hi.idxIn
    outIn := engineMove_outpos h hi.outIn hi.decodeCap
    accClean := accClean_engineMove h (hi.accClean hb)
    naccIn := engineMove_nacc h (hi.naccIn hb)
    decodeCap := fun hr => engineMove_decodeCap h hi.decodeCap hr.1 hr.2 }

/-- The invariant says nothing of the window registers, IRQ_EN, the host and the model's counter, of memory only its
form, and lets DONE be cleared. -/
theorem machineInv_of_kept {u : State} (hi : MachineInv u) {d : Bool} (hd : d = true → u.status.done = true)
    {m : List Host.Cell} (hm : Memory.wf m) (w : Windows) (irq : Bool) (q : List HostMove) (r : Word) (n : Nat) :
    MachineInv { u with
      status := { u.status with done := d }
      win := w, irqEn := irq, mem := m, host := q, rdata := r, draws := n } :=
  { hi with
    memWf := hm
    busyDone := fun ⟨hb, hd'⟩ => hi.busyDone ⟨hb, hd hd'⟩ }

/-- A command start begins a running command in CHECK, its reader and its writer at the start of their windows
(R211). -/
theorem startCommand_machineInv (w : Word) {u : State} (hm : Memory.wf u.mem) : MachineInv (startCommand w u) where
  memWf := hm
  busyDone := fun ⟨_, hd⟩ => nomatch hd
  busyErr := fun _ => rfl
  busyPhase := fun _ => nofun
  windows := fun _ hp => absurd rfl hp
  readerIn := ⟨Nat.zero_le _, rfl⟩
  idxIn := Nat.zero_le _
  outIn := Nat.zero_le _
  accClean := fun _ => accClean_zero _ _ _
  naccIn := fun _ => rfl
  decodeCap := fun hr => nomatch hr.2

/-- After reset no command runs, and every position is at its start (R260). -/
theorem resetBlock_machineInv {u : State} (hm : Memory.wf u.mem) : MachineInv (resetBlock u) where
  memWf := memWf_freeDest _ _ _ hm
  busyDone := fun ⟨hb, _⟩ => nomatch hb
  busyErr := nofun
  busyPhase := nofun
  windows := nofun
  readerIn := ⟨Nat.zero_le _, rfl⟩
  idxIn := Nat.zero_le _
  outIn := Nat.zero_le _
  accClean := nofun
  naccIn := nofun
  decodeCap := fun hr => nomatch hr.1

/-- Every move of the host keeps the invariant. -/
theorem hostEffect_machineInv {m : HostMove} {u t : State} (h : HostEffect u m t) (hi : MachineInv u) :
    MachineInv t := by
  have hm := memWf_hostEffect h hi.memWf
  rcases hostEffect_cases h with ⟨-, v, -, -, -, rfl⟩ | ⟨-, -, -, -, -, -, rfl⟩ | ⟨-, rfl⟩ | hk
  · exact startCommand_machineInv v hi.memWf
  · exact machineInv_of_kept hi (d := false) nofun hm _ _ _ _ _
  · exact resetBlock_machineInv hi.memWf
  · rw [hk]
    exact machineInv_of_kept hi id hm _ _ _ _ _

/-- The host's queue is not the invariant's. -/
theorem machineInv_withHost {s : State} (hi : MachineInv s) (q : List HostMove) : MachineInv { s with host := q } :=
  machineInv_of_kept hi id hi.memWf _ _ _ _ _

/-- Settles O51: the engine's moves keep the invariant field by field (`engineMove_machineInv`), and so do the moves of
the host (`hostEffect_machineInv`). -/
theorem stepKeepsInv : Obligations.StepKeepsInv := by
  unfold Obligations.StepKeepsInv
  intro s t hi h
  rcases step_cases h with ⟨u, hu, hb, hm⟩ | ⟨hu, -⟩ | ⟨m, rest, hs, he⟩
  · rw [engineTurn_host hu] at hb hm
    exact engineMove_machineInv hm hb (machineInv_withHost hi _)
  · rw [engineTurn_host hu]
    exact machineInv_withHost hi _
  · exact hostEffect_machineInv he (machineInv_withHost hi rest)

/-! ## The invariant of the tables -/

/-! ### `TreeInv`, phase by phase -/

/-- The clauses of `TreeInv` that hold in every phase. -/
structure TablesInv (s : State) : Prop where
  freqWf : storeWf 0#32 256 s.work.freq
  slots : s.work.nnodes ≤ Config.nodePool
  leaves : s.results.leafCount.toNat ≤ 256
  codeWf : storeWf CodeEntry.cleared 256 s.work.code
  nodesWf : storeWf Node.unwritten Config.nodePool s.work.nodes
  indices : IndicesIn s
  wsetFits : s.work.wset.length ≤ Config.wsetSize
  stackFits : s.work.stack.length ≤ Config.stackDepth
  codesFit : ∀ e ∈ s.work.code, e.2.bits.length ≤ Config.maxCodeLen

/-- From the end of FREQ to CODES the counters add up to L (R120, R124). -/
abbrev Counted (s : State) : Prop :=
  freqTotal s.work.freq = s.latched.srcLen.toNat ∧ s.latched.srcLen ≠ 0#32

/-- The slots of COMPRESS: children below their parents, the leaves first (R122, R125). -/
structure SlotsInv (s : State) : Prop where
  below : ChildrenBelow s.work.nodes s.work.nnodes
  leavesFirst : ∀ i, i < s.work.nnodes → i < s.results.leafCount.toNat → (nodeAt s.work.nodes i).kind = .leaf

/-- The tree of a source that is not empty has 2·K − 1 nodes (R129). -/
abbrev Built (s : State) : Prop :=
  s.latched.srcLen ≠ 0#32 → s.work.nnodes + 1 = 2 * s.results.leafCount.toNat

/-- ROOT of the tree of a source that is not empty is an allocated slot (R43). -/
abbrev Rooted (s : State) : Prop :=
  s.latched.srcLen ≠ 0#32 → s.work.root < s.work.nnodes

/-- A walk of CODES or SER_TREE goes down in the tree, with at most LEAF_COUNT entries on its stack (R46, R142). -/
structure WalkInv (s : State) : Prop where
  walking : StackIn s.work.nodes s.work.nnodes s.work.stack
  descending : (s.work.stack.map Frame.node).Pairwise (· < ·)
  depth : s.work.stack.length ≤ s.results.leafCount.toNat

/-- Before BUILD (R211, R120). -/
structure EarlyInv (s : State) : Prop where
  noSlots : s.work.nnodes = 0
  noWalk : s.work.stack = []
  counted : s.loop.idx = freqTotal s.work.freq

/-- In BUILD (R121 to R127). -/
structure BuildInv (s : State) : Prop where
  counted : Counted s
  building : s.work.nnodes = 0 ∨ Merging s
  tree : SlotsInv s

/-- In CODES (R140). -/
structure CodesInv (s : State) : Prop where
  counted : Counted s
  tree : SlotsInv s
  built : Built s
  rooted : Rooted s
  walk : WalkInv s

/-- In SIZE (R173). -/
structure SizeInv (s : State) : Prop where
  tree : SlotsInv s
  built : Built s
  rooted : Rooted s

/-- In SER_TREE (R150, R171). -/
structure SerTreeInv (s : State) : Prop where
  tree : SlotsInv s
  built : Built s
  walk : WalkInv s
  emptyWalk : s.latched.srcLen = 0#32 → s.work.stack = []

/-- In DESER_TREE (R155, R157). -/
structure DeserTreeInv (s : State) : Prop where
  balance : (s.work.stack = [] ∧ s.work.nnodes = 0)
    ∨ (s.work.stack ≠ [] ∧ 2 * countLeaves s.work.nodes s.work.nnodes + awaited s.work.stack = s.work.nnodes + 1)
  awaiting : (s.work.stack.map Frame.node).Pairwise (· > ·) ∧ ∀ f ∈ s.work.stack, f.node < s.work.nnodes

/-- The clauses of `TreeInv` that a running command in phase `p` meets besides. -/
def PhaseInv (p : Phase) (s : State) : Prop :=
  match p with
  | .check => EarlyInv s
  | .freq => EarlyInv s
  | .build => BuildInv s
  | .codes => CodesInv s
  | .size => SizeInv s
  | .serTree => SerTreeInv s
  | .deserTree => DeserTreeInv s
  | _ => True

theorem treeInv_tables {s : State} (hi : TreeInv s) : TablesInv s := { hi with }

theorem treeInv_early {s : State} (hi : TreeInv s) (hr : Running .check s ∨ Running .freq s) : EarlyInv s := by
  obtain ⟨hnodes, hstack, hcount⟩ := hi.early hr
  exact ⟨hnodes, hstack, hcount⟩

theorem treeInv_slots {s : State} (hi : TreeInv s)
    (hr : Running .build s ∨ Running .codes s ∨ Running .size s ∨ Running .serTree s) : SlotsInv s :=
  ⟨hi.below hr, hi.leavesFirst hr⟩

theorem treeInv_walk {s : State} (hi : TreeInv s) (hr : Running .codes s ∨ Running .serTree s) : WalkInv s :=
  ⟨hi.walking hr, hi.descending hr, hi.walkDepth hr⟩

theorem treeInv_phase {p : Phase} {s : State} (hi : TreeInv s) (hr : Running p s) : PhaseInv p s := by
  cases p <;> simp only [PhaseInv]
  case check => exact treeInv_early hi (.inl hr)
  case freq => exact treeInv_early hi (.inr hr)
  case build => exact ⟨hi.counted (.inl hr), hi.building hr, treeInv_slots hi (.inl hr)⟩
  case codes =>
    exact ⟨hi.counted (.inr hr), treeInv_slots hi (.inr (.inl hr)), hi.built (.inl hr), hi.rooted (.inl hr),
      treeInv_walk hi (.inl hr)⟩
  case size => exact ⟨treeInv_slots hi (.inr (.inr (.inl hr))), hi.built (.inr (.inl hr)), hi.rooted (.inr hr)⟩
  case serTree =>
    exact ⟨treeInv_slots hi (.inr (.inr (.inr hr))), hi.built (.inr (.inr hr)), treeInv_walk hi (.inr hr),
      hi.emptyWalk hr⟩
  case deserTree => exact ⟨hi.deser hr, hi.awaiting hr⟩

/-- `TreeInv` is its clauses for every phase and those of the phase the command is in. -/
theorem treeInv_of_phase {s : State} (ht : TablesInv s) (hp : ∀ p, Running p s → PhaseInv p s) : TreeInv s := by
  have hearly : Running .check s ∨ Running .freq s → EarlyInv s := fun h => h.elim (hp _) (hp _)
  have hslots : Running .build s ∨ Running .codes s ∨ Running .size s ∨ Running .serTree s → SlotsInv s := by
    rintro (h | h | h | h)
    exacts [(hp _ h).tree, (hp _ h).tree, (hp _ h).tree, (hp _ h).tree]
  have hwalk : Running .codes s ∨ Running .serTree s → WalkInv s :=
    fun h => h.elim (fun h => (hp _ h).walk) fun h => (hp _ h).walk
  exact { ht with
    early := fun h => ⟨(hearly h).noSlots, (hearly h).noWalk, (hearly h).counted⟩
    counted := fun h => h.elim (fun h => (hp _ h).counted) fun h => (hp _ h).counted
    building := fun h => (hp _ h).building
    below := fun h => (hslots h).below
    leavesFirst := fun h => (hslots h).leavesFirst
    rooted := fun h => h.elim (fun h => (hp _ h).rooted) fun h => (hp _ h).rooted
    built := by
      rintro (h | h | h)
      exacts [(hp _ h).built, (hp _ h).built, (hp _ h).built]
    walking := fun h => (hwalk h).walking
    descending := fun h => (hwalk h).descending
    walkDepth := fun h => (hwalk h).depth
    emptyWalk := fun h => (hp _ h).emptyWalk
    deser := fun h => (hp _ h).balance
    awaiting := fun h => (hp _ h).awaiting }

/-- With the command in phase `p` only the clauses of that phase are asked for. -/
theorem treeInv_running {p : Phase} {s : State} (hs : s.status.phase = p) (ht : TablesInv s) (hp : PhaseInv p s) :
    TreeInv s :=
  treeInv_of_phase ht fun q hq => by
    rw [← hq.2, hs]
    exact hp

/-- With no command running none is. -/
theorem treeInv_ended {s : State} (hb : s.status.busy = false) (ht : TablesInv s) : TreeInv s :=
  treeInv_of_phase ht fun _ hr => absurd hr.1 (by simp [hb])

/-- The clauses for every phase speak of the tables, LEAF_COUNT and the node of DECODE's walk only. -/
theorem tablesInv_congr {s t : State} (hi : TablesInv s) (hw : t.work = s.work)
    (hl : t.results.leafCount = s.results.leafCount) (hc : t.loop.cursor = s.loop.cursor) : TablesInv t := by
  obtain ⟨hfreq, hslots, hleaves, hcode, hnodes, ⟨hchildren, hroot, hmembers, hframes, hcursor⟩, hwset, hstack,
    hfit⟩ := hi
  rw [← hw] at *
  rw [← hl] at hleaves
  rw [← hc] at hcursor
  exact ⟨hfreq, hslots, hleaves, hcode, hnodes, ⟨hchildren, hroot, hmembers, hframes, hcursor⟩, hwset, hstack, hfit⟩

/-! ### FREQ -/

/-- Counting a byte keeps the counters' sum equal to the bytes read; no counter wraps, for they are fewer than 2^32
(R120, R124). -/
theorem freqTotal_countSymbol_below {freq : List (Nat × Word)} {n : Nat} {len : Word} (sym : Byte)
    (hw : storeWf 0#32 256 freq) (hn : n = freqTotal freq) (hlt : n < len.toNat) :
    n + 1 = freqTotal (countSymbol sym freq) := by
  have hge := freqTotal_ge sym hw
  have hlen := len.isLt
  rw [freqTotal_countSymbol sym hw (by omega), hn]

/-- A source that is not empty has 1 to 256 symbols (R121). -/
theorem sortEntries_bounds {freq : List (Nat × Word)} (hw : storeWf 0#32 256 freq) (hne : freqTotal freq ≠ 0) :
    1 ≤ (sortEntries freq).length ∧ (sortEntries freq).length ≤ 256 := by
  rw [sortEntries_length]
  refine ⟨List.length_pos_iff.2 ?_, storeWf_length hw⟩
  rintro rfl
  exact hne rfl

/-! ### BUILD -/

/-- The slots of BUILD's leaves are leaves (R122). -/
theorem allocLeaves_kind (es : List (Nat × Word)) (nodes : List (Nat × Node)) {i : Nat} (h : i < es.length) :
    (nodeAt (allocLeaves 0 es nodes) i).kind = .leaf := by
  have hi := nodeAt_allocLeaves es 0 nodes i h
  rw [Nat.zero_add] at hi
  rw [hi]

/-- A pool of leaves alone has its slots in order. -/
theorem slotsInv_leaves {s : State} (h : ∀ i, i < s.work.nnodes → (nodeAt s.work.nodes i).kind = .leaf) :
    SlotsInv s where
  below := fun i hi hk => by
    rw [h i hi] at hk
    exact nomatch hk
  leavesFirst := fun i hi _ => h i hi

/-- A walk from ROOT has one entry. -/
theorem walkInv_walkFrom {s : State} {root : Nat} (hs : s.work.stack = walkFrom root) (hr : root < s.work.nnodes)
    (hb : s.work.nnodes + 1 = 2 * s.results.leafCount.toNat) : WalkInv s := by
  refine ⟨?_, ?_, ?_⟩ <;> rw [hs]
  · exact ⟨hr, nofun⟩
  · exact List.pairwise_singleton _ _
  · show 1 ≤ _
    omega

/-- The entries of a walk fit the stack and the indices. -/
theorem walkInv_fits {s : State} (hw : WalkInv s) (hs : s.work.nnodes ≤ Config.nodePool)
    (hl : s.results.leafCount.toNat ≤ 256) :
    s.work.stack.length ≤ Config.stackDepth ∧ ∀ f ∈ s.work.stack, f.node < Config.nodePool := by
  obtain ⟨hin, -, hdepth⟩ := hw
  refine ⟨hdepth.trans (hl.trans (by decide)), fun f hf => ?_⟩
  revert hin hf
  cases s.work.stack with
  | nil => exact nofun
  | cons top rest =>
    rintro ⟨htop, hrest⟩ hf
    rcases List.mem_cons.1 hf with rfl | hf
    · exact htop.trans_le hs
    · exact (hrest f hf).1.trans_le hs

/-- BUILD's leaves keep the tables (R122). -/
theorem buildLeaves_tables {u : State} (hi : TablesInv u) (hk : (sortEntries u.work.freq).length ≤ 256) :
    TablesInv (buildLeaves u) := by
  have hpool : (sortEntries u.work.freq).length ≤ Config.nodePool := hk.trans (by decide)
  exact {
    freqWf := by simpa using hi.freqWf
    slots := by simpa using hpool
    leaves := by
      rw [buildLeaves_results_leafCount, BitVec.toNat_ofNat]
      exact (Nat.mod_le _ _).trans hk
    codeWf := by simpa using hi.codeWf
    nodesWf := by
      rw [buildLeaves_work_nodes]
      exact storeWf_allocLeaves hi.nodesWf (by rwa [Nat.zero_add])
    indices := {
      children := fun n => by
        simp only [buildLeaves_work_nodes, allocLeaves_children]
        exact hi.indices.children n
      root := by
        rw [buildLeaves_work_root]
        split
        · exact hi.indices.root
        · decide
      members := by
        rw [buildLeaves_work_wset]
        split
        · exact fun n hn => (List.mem_range.1 hn).trans_le hpool
        · exact hi.indices.members
      frames := by
        rw [buildLeaves_work_stack]
        split
        · exact hi.indices.frames
        · simp [walkFrom]
      cursor := by simpa using hi.indices.cursor }
    wsetFits := by
      rw [buildLeaves_work_wset]
      split
      · simpa using hk
      · exact hi.wsetFits
    stackFits := by
      rw [buildLeaves_work_stack]
      split
      · exact hi.stackFits
      · simp [walkFrom]
    codesFit := by simpa using hi.codesFit }

/-- Several leaves are the working set: every source byte is accounted for (R122, R125). -/
theorem buildLeaves_merging {u : State} (hc : Counted u) (h2 : 2 ≤ (sortEntries u.work.freq).length)
    (hl : (buildLeaves u).results.leafCount.toNat = (sortEntries u.work.freq).length) : Merging (buildLeaves u) := by
  have hwset : (buildLeaves u).work.wset = List.range (sortEntries u.work.freq).length := by simp [h2]
  exact {
    leavesIn := by rw [hl, buildLeaves_work_nnodes]
    nonempty := by
      rw [hwset, Ne, List.range_eq_nil]
      omega
    allocated := by
      rw [hwset, buildLeaves_work_nnodes]
      exact fun n hn => List.mem_range.1 hn
    count := by
      rw [hl, hwset, buildLeaves_work_nnodes, List.length_range]
      omega
    total := by
      rw [hwset, buildLeaves_work_nodes, buildLeaves_latched, nodeTotal_allocLeaves]
      exact hc.1 }

/-- After BUILD's leaves, several of them are its working set, and one alone is its tree (R122, R123, R125). -/
theorem buildLeaves_treeInv {u : State} (hr : Running .build u) (hi : TablesInv u) (hc : Counted u) :
    TreeInv (buildLeaves u) := by
  have hne : freqTotal u.work.freq ≠ 0 := fun h0 => hc.2 (BitVec.eq_of_toNat_eq (hc.1.symm.trans h0))
  obtain ⟨hk, hk'⟩ := sortEntries_bounds hi.freqWf hne
  have ht := buildLeaves_tables hi hk'
  have hcount : Counted (buildLeaves u) := by
    rw [Counted, buildLeaves_work_freq, buildLeaves_latched]
    exact hc
  have hslots : SlotsInv (buildLeaves u) := slotsInv_leaves fun i hi => by
    rw [buildLeaves_work_nodes]
    exact allocLeaves_kind _ _ (by simpa using hi)
  have hleaves : (buildLeaves u).results.leafCount.toNat = (sortEntries u.work.freq).length := by
    rw [buildLeaves_results_leafCount, BitVec.toNat_ofNat]
    exact Nat.mod_eq_of_lt (by omega)
  by_cases h2 : 2 ≤ (sortEntries u.work.freq).length
  · exact treeInv_running (p := .build) (by simp [h2, hr.2]) ht
      ⟨hcount, .inr (buildLeaves_merging hc h2 hleaves), hslots⟩
  · have h1 : (sortEntries u.work.freq).length = 1 := by omega
    have hbuilt : (buildLeaves u).work.nnodes + 1 = 2 * (buildLeaves u).results.leafCount.toNat := by
      rw [hleaves, buildLeaves_work_nnodes, h1]
    have hroot : (buildLeaves u).work.root < (buildLeaves u).work.nnodes := by simp [h1]
    have hwalk := walkInv_walkFrom (s := buildLeaves u) (root := 0) (by simp [h1]) (by simp [h1]) hbuilt
    exact treeInv_running (p := .codes) (by simp [h1]) ht ⟨hcount, hslots, fun _ => hbuilt, fun _ => hroot, hwalk⟩

/-- BUILD ends with its last member as the root of a walk (R125). -/
theorem buildDone_treeInv {u : State} {a : Nat} (hi : TablesInv u) (hc : Counted u) (hm : Merging u) (hs : SlotsInv u)
    (hw : u.work.wset = [a]) : TreeInv (buildDone a u) := by
  have ha : a < u.work.nnodes := hm.allocated a (by simp [hw])
  have hb : u.work.nnodes + 1 = 2 * u.results.leafCount.toNat := by simpa [hw] using hm.count
  have hwalk : WalkInv (buildDone a u) := walkInv_walkFrom rfl ha hb
  obtain ⟨hstack, hframes⟩ := walkInv_fits hwalk hi.slots hi.leaves
  refine treeInv_running (p := .codes) rfl ?_ ⟨hc, { hs with }, fun _ => hb, fun _ => ha, hwalk⟩
  exact { hi with
    indices := { hi.indices with root := ha.trans_le hi.slots, frames := hframes }
    stackFits := hstack }

/-- A merge keeps the sum of the working set: it is below 2^32, so the merged frequency does not wrap (R124, R127). -/
theorem nodeTotal_merge {nodes : List (Nat × Node)} {w : List Nat} {a b n : Nat} {v : Node} {len : Word} (ha : a ∈ w)
    (hb : b ∈ w.erase a) (hn : ∀ x ∈ w, x < n) (hv : v.freq = (nodeAt nodes a).freq + (nodeAt nodes b).freq)
    (hsum : nodeTotal nodes w = len.toNat) :
    nodeTotal (setNode n v nodes) ((w.erase a).erase b ++ [n]) = len.toNat := by
  have h1 := nodeTotal_erase (nodes := nodes) ha
  have h2 := nodeTotal_erase (nodes := nodes) hb
  have hlen := len.isLt
  have hrest : nodeTotal (setNode n v nodes) ((w.erase a).erase b) = nodeTotal nodes ((w.erase a).erase b) :=
    nodeTotal_setNode v fun x hx => (hn x (List.mem_of_mem_erase (List.mem_of_mem_erase hx))).ne
  have hfreq : v.freq.toNat = (nodeAt nodes a).freq.toNat + (nodeAt nodes b).freq.toNat := by
    rw [hv, BitVec.toNat_add]
    exact Nat.mod_eq_of_lt (by omega)
  have happend : nodeTotal (setNode n v nodes) ((w.erase a).erase b ++ [n])
      = nodeTotal (setNode n v nodes) ((w.erase a).erase b) + v.freq.toNat := by simp [nodeTotal]
  omega

/-- A merge takes two members out and puts one in. -/
theorem length_erase_erase {w : List Nat} {a b : Nat} (ha : a ∈ w) (hb : b ∈ w.erase a) :
    ((w.erase a).erase b).length + 2 = w.length := by
  have h1 := List.length_pos_of_mem hb
  rw [List.length_erase_of_mem hb]
  rw [List.length_erase_of_mem ha] at *
  omega

/-- The members of the working set after a merge are allocated slots. -/
theorem merge_allocated {w : List Nat} {a b n : Nat} (hw : ∀ x ∈ w, x < n) :
    ∀ x ∈ (w.erase a).erase b ++ [n], x < n + 1 := fun x hx => by
  rcases List.mem_append.1 hx with hx | hx
  · exact Nat.lt_succ_of_lt (hw x (List.mem_of_mem_erase (List.mem_of_mem_erase hx)))
  · rw [List.mem_singleton.1 hx]
    exact Nat.lt_succ_self n

/-- A merge makes one node and one member fewer (R125, R129). -/
theorem mergeNodes_merging {u : State} {a b : Nat} (hm : Merging u) (ha : a ∈ u.work.wset)
    (hb : b ∈ u.work.wset.erase a) : Merging (mergeNodes a b ((u.work.wset.erase a).erase b) u) where
  leavesIn := Nat.le_succ_of_le hm.leavesIn
  nonempty := by simp
  allocated := merge_allocated hm.allocated
  count := by
    have hlen := length_erase_erase ha hb
    have hcount := hm.count
    simp only [mergeNodes_work_nnodes, mergeNodes_work_wset, mergeNodes_results, List.length_append,
      List.length_singleton]
    omega
  total := by
    rw [mergeNodes_work_nodes, mergeNodes_work_wset]
    exact nodeTotal_merge ha hb hm.allocated rfl hm.total

/-- The merged node stands above its children and after the leaves (R125, R127). -/
theorem mergeNodes_slotsInv {u : State} {a b : Nat} (hs : SlotsInv u) (hl : u.results.leafCount.toNat ≤ u.work.nnodes)
    (ha : a < u.work.nnodes) (hb : b < u.work.nnodes) (w : List Nat) : SlotsInv (mergeNodes a b w u) where
  below := fun i hlt hk => by
    rw [mergeNodes_work_nnodes] at hlt
    simp only [mergeNodes_work_nodes, nodeAt_setNode] at hk ⊢
    split
    · next he =>
      rw [he]
      exact ⟨ha, hb⟩
    · next he =>
      rw [if_neg he] at hk
      exact hs.below i (by omega) hk
  leavesFirst := fun i _ hlt => by
    rw [mergeNodes_work_nodes, nodeAt_setNode_ne _ _ (hlt.trans_le hl).ne]
    exact hs.leavesFirst i (hlt.trans_le hl) hlt

/-- One merge (R125, R127): two members remain only while a slot does. -/
theorem mergeNodes_treeInv {u : State} {a b : Nat} (hr : Running .build u) (hi : TablesInv u) (hc : Counted u)
    (hm : Merging u) (hs : SlotsInv u) (ha : a ∈ u.work.wset) (hb : b ∈ u.work.wset.erase a) :
    TreeInv (mergeNodes a b ((u.work.wset.erase a).erase b) u) := by
  have han := hm.allocated a ha
  have hbn := hm.allocated b (List.mem_of_mem_erase hb)
  have hlen := length_erase_erase ha hb
  have hn : u.work.nnodes < Config.nodePool := by
    have hcount := hm.count
    have hleaves := hi.leaves
    show _ < 511
    omega
  refine treeInv_running (p := .build) hr.2 ?_
    ⟨hc, .inr (mergeNodes_merging hm ha hb), mergeNodes_slotsInv hs hm.leavesIn han hbn _⟩
  exact { hi with
    slots := hn
    nodesWf := by
      rw [mergeNodes_work_nodes]
      exact storeWf_storeSet _ _ _ _ hi.nodesWf hn
    indices := { hi.indices with
      children := fun i => by
        simp only [mergeNodes_work_nodes, nodeAt_setNode]
        split
        · exact ⟨han.trans hn, hbn.trans hn⟩
        · exact hi.indices.children i
      members := fun x hx => (merge_allocated hm.allocated x hx).trans_le hn }
    wsetFits := by
      have hfits := hi.wsetFits
      simp only [mergeNodes_work_wset, List.length_append, List.length_singleton]
      omega }

/-! ### The walks of CODES and SER_TREE -/

/-- Where a subtree is finished the walk goes on in the tree. -/
theorem stackIn_nextSubtree {nodes : List (Nat × Node)} {n : Nat} (hc : ChildrenBelow nodes n) :
    ∀ rest : List Frame, (∀ g ∈ rest, g.node < n ∧ (nodeAt nodes g.node).kind = .internal) →
      StackIn nodes n (nextSubtree nodes rest)
  | [], _ => trivial
  | ⟨p, .left⟩ :: rest, h => by
    obtain ⟨hp, hk⟩ := h ⟨p, .left⟩ (by simp)
    refine ⟨(hc p hp hk).2.trans hp, fun g hg => ?_⟩
    rcases List.mem_cons.1 hg with rfl | hg
    · exact ⟨hp, hk⟩
    · exact h g (by simp [hg])
  | ⟨_, .right⟩ :: rest, h => stackIn_nextSubtree hc rest fun g hg => h g (by simp [hg])

/-- A step of a walk stays in the tree. -/
theorem stackIn_walkOn {nodes : List (Nat × Node)} {n : Nat} (hc : ChildrenBelow nodes n) {stack : List Frame}
    (hs : StackIn nodes n stack) : StackIn nodes n (walkOn nodes stack) := by
  cases stack with
  | nil => exact hs
  | cons f rest =>
    obtain ⟨hf, hrest⟩ := hs
    unfold walkOn
    dsimp only
    split
    · exact stackIn_nextSubtree hc rest hrest
    · next hk =>
      refine ⟨(hc _ hf hk).1.trans hf, fun g hg => ?_⟩
      rcases List.mem_cons.1 hg with rfl | hg
      · exact ⟨hf, hk⟩
      · exact hrest g hg

theorem walkInv_nil {s : State} (hs : s.work.stack = []) : WalkInv s := by
  refine ⟨?_, ?_, ?_⟩ <;> rw [hs]
  · trivial
  · exact List.Pairwise.nil
  · exact Nat.zero_le _

/-- A step of a walk in a tree of K leaves and 2·K − 1 nodes: the entries under the top are distinct internal nodes, so
the stack has at most K entries (R142, R150). -/
theorem walkInv_walkOn {s t : State} (hs : SlotsInv s) (hb : s.work.nnodes + 1 = 2 * s.results.leafCount.toNat)
    (hw : WalkInv s) (hnodes : t.work.nodes = s.work.nodes) (hn : t.work.nnodes = s.work.nnodes)
    (hl : t.results = s.results) (hst : t.work.stack = walkOn s.work.nodes s.work.stack) : WalkInv t := by
  have hin := stackIn_walkOn hs.below hw.walking
  have hdown := walkOn_descending hs.below hw.walking hw.descending
  have hlen := walk_length_le hin hdown hs.leavesFirst
  refine ⟨?_, ?_, ?_⟩ <;> rw [hst]
  · rwa [hnodes, hn]
  · exact hdown
  · rw [hl]
    omega

/-- Visiting a node writes the path to it as a leaf's code, or nothing (R140). -/
theorem visitCode_work_code (top : Frame) (rest : List Frame) (s : State) :
    (visitCode top rest s).work.code = setCode (nodeAt s.work.nodes top.node).sym (pathOf rest) s.work.code
      ∨ (visitCode top rest s).work.code = s.work.code := by
  cases hk : (nodeAt s.work.nodes top.node).kind with
  | leaf => exact .inl (by simp [visitCode, hk])
  | internal => exact .inr (by simp [visitCode, hk])

theorem pathOf_length (rest : List Frame) : (pathOf rest).length = rest.length := by
  simp [pathOf]

/-- A code is the path to a leaf, at most 255 bits under a stack of at most 256 entries (R141, R142). -/
theorem visitCode_codes {u : State} {top : Frame} {rest : List Frame} (hi : TablesInv u)
    (hlen : (top :: rest).length ≤ 256) :
    storeWf CodeEntry.cleared 256 (visitCode top rest u).work.code
      ∧ ∀ e ∈ (visitCode top rest u).work.code, e.2.bits.length ≤ Config.maxCodeLen := by
  rcases visitCode_work_code top rest u with h | h <;> rw [h]
  · refine ⟨storeWf_storeSet _ _ _ _ hi.codeWf (BitVec.isLt _), fun e he => ?_⟩
    rcases mem_storeSet he with rfl | he
    · rw [pathOf_length]
      exact Nat.le_of_succ_le_succ hlen
    · exact hi.codesFit e he
  · exact ⟨hi.codeWf, hi.codesFit⟩

/-- One node of the walk of CODES (R140). -/
theorem visitCode_treeInv {u : State} {top : Frame} {rest : List Frame} (hr : Running .codes u) (hi : TablesInv u)
    (hp : PhaseInv .codes u) (hst : u.work.stack = top :: rest) : TreeInv (visitCode top rest u) := by
  obtain ⟨hc, hs, hb, hroot, hw⟩ := hp
  have hwalk : WalkInv (visitCode top rest u) :=
    walkInv_walkOn hs (hb hc.2) hw rfl rfl rfl (by rw [hst, visitCode_work_stack])
  obtain ⟨hstack, hframes⟩ := walkInv_fits hwalk hi.slots hi.leaves
  obtain ⟨hcode, hfit⟩ := visitCode_codes (top := top) (rest := rest) hi (hst ▸ hw.depth.trans hi.leaves)
  refine treeInv_running (p := .codes) hr.2 ?_ ⟨hc, { hs with }, hb, hroot, hwalk⟩
  exact { hi with
    indices := { hi.indices with frames := hframes }
    codeWf := hcode
    codesFit := hfit
    stackFits := hstack }

/-- One token of the walk of SER_TREE (R150); for an empty source there is no walk (R171). -/
theorem serNext_treeInv {u : State} (hr : Running .serTree u) (hi : TreeInv u) : TreeInv (serNext u) := by
  obtain ⟨hs, hb, hw, hempty⟩ := treeInv_phase hi hr
  have hempty' : u.latched.srcLen = 0#32 → (serNext u).work.stack = [] := fun h0 => by
    rw [serNext_work_stack, hempty h0]
    rfl
  have hwalk : WalkInv (serNext u) := by
    by_cases h0 : u.latched.srcLen = 0#32
    · exact walkInv_nil (hempty' h0)
    · exact walkInv_walkOn hs (hb h0) hw rfl rfl rfl (serNext_work_stack u)
  obtain ⟨hstack, hframes⟩ := walkInv_fits hwalk hi.slots hi.leaves
  refine treeInv_running (p := .serTree) hr.2 ?_ ⟨{ hs with }, hb, hwalk, hempty'⟩
  exact { treeInv_tables hi with indices := { hi.indices with frames := hframes }, stackFits := hstack }

/-- SIZE goes to SER_TREE with its walk at the root, or, for an empty source, with none (R150, R171). -/
theorem sizeOk_treeInv {u : State} (hi : TablesInv u) (hp : PhaseInv .size u) (tb : Word) :
    TreeInv (State.toPhase .serTree { u with
      results := { u.results with treeBits := tb }
      work := { u.work with stack := if u.latched.srcLen = 0#32 then [] else walkFrom u.work.root } }) := by
  obtain ⟨hs, hb, hroot⟩ := hp
  generalize ht : State.toPhase .serTree _ = t
  have hempty : u.latched.srcLen = 0#32 → t.work.stack = [] := fun h0 => by
    rw [← ht]
    exact if_pos h0
  have hwalk : WalkInv t := by
    by_cases h0 : u.latched.srcLen = 0#32
    · exact walkInv_nil (hempty h0)
    · subst ht
      exact walkInv_walkFrom (if_neg h0) (hroot h0) (hb h0)
  subst ht
  obtain ⟨hstack, hframes⟩ := walkInv_fits hwalk hi.slots hi.leaves
  refine treeInv_running (p := .serTree) rfl ?_ ⟨{ hs with }, hb, hwalk, hempty⟩
  exact { hi with indices := { hi.indices with frames := hframes }, stackFits := hstack }

/-! ### DESER_TREE -/

/-- A stack of nodes on which the youngest is on top has no node twice. -/
theorem nodup_of_descending {stack : List Frame} (h : (stack.map Frame.node).Pairwise (· > ·)) :
    (stack.map Frame.node).Nodup :=
  h.imp fun hab => ne_of_gt hab

/-- An entry under the top awaits one child fewer than on top: an internal node on a stack adds one (R156, R157). -/
theorem awaited_cons_left (n : Nat) {stack : List Frame} (h : stack ≠ []) :
    awaited (⟨n, .left⟩ :: stack) = awaited stack + 1 := by
  cases stack with
  | nil => exact absurd rfl h
  | cons f rest =>
    obtain ⟨p, m⟩ := f
    cases m <;> simp [awaited, awaitedBelow] <;> omega

/-- An INTERNAL token: one slot and one more awaited child (R155, R156). -/
theorem takeInternal_treeInv {u : State} (hr : Running .deserTree u) (hi : TablesInv u) (hp : PhaseInv .deserTree u)
    (hn : u.work.nnodes < Config.nodePool) : TreeInv (takeInternal u) := by
  obtain ⟨hbalance, hdown, hbelow⟩ := hp
  have hdown' : ((⟨u.work.nnodes, .left⟩ :: u.work.stack : List Frame).map Frame.node).Pairwise (· > ·) :=
    List.Pairwise.cons (fun x hx => by
      obtain ⟨f, hf, rfl⟩ := List.mem_map.1 hx
      exact hbelow f hf) hdown
  have hbelow' : ∀ f ∈ (⟨u.work.nnodes, .left⟩ :: u.work.stack : List Frame), f.node < u.work.nnodes + 1 := by
    intro f hf
    rcases List.mem_cons.1 hf with rfl | hf
    · exact Nat.lt_succ_self _
    · exact Nat.lt_succ_of_lt (hbelow f hf)
  refine treeInv_running (p := .deserTree) hr.2 ?_ ⟨.inr ⟨by simp, ?_⟩, hdown', hbelow'⟩
  · exact { hi with
      slots := hn
      nodesWf := by
        rw [takeInternal_work_nodes]
        exact storeWf_storeSet _ _ _ _ hi.nodesWf hn
      indices := { hi.indices with
        children := fun i => by
          rw [takeInternal_work_nodes, nodeAt_setNode]
          split
          · exact hi.indices.children u.work.nnodes
          · exact hi.indices.children i
        frames := fun f hf => (hbelow' f hf).trans_le hn }
      stackFits := (stack_length_le (nodup_of_descending hdown') hbelow').trans hn }
  · rw [takeInternal_work_nnodes, countLeaves_takeInternal, takeInternal_work_stack]
    rcases hbalance with ⟨hst, h0⟩ | ⟨hst, hbal⟩
    · rw [hst, h0]
      rfl
    · rw [awaited_cons_left _ hst]
      omega

/-- A finished leaf is one leaf more; attaching it changes no node's kind (R158). -/
theorem countLeaves_takeLeaf (sym : Byte) (u : State) :
    countLeaves (takeLeaf sym u).work.nodes (u.work.nnodes + 1) = countLeaves u.work.nodes u.work.nnodes + 1 := by
  rw [takeLeaf_work_nodes, countLeaves_congr fun i _ => (attach_kind _ _ _ i).1, countLeaves_setLeaf]

/-- The balance of DESER_TREE after a LEAF token: with no awaited child left the phase is over (R155, R157). -/
theorem takeLeaf_balance {u : State} (hr : Running .deserTree u) (hp : DeserTreeInv u) (sym : Byte) :
    ((takeLeaf sym u).status.phase = .rdCount
        ∧ (takeLeaf sym u).results.leafCount
            = BitVec.ofNat 32 (countLeaves (takeLeaf sym u).work.nodes (u.work.nnodes + 1))
        ∧ 2 * countLeaves (takeLeaf sym u).work.nodes (u.work.nnodes + 1) = u.work.nnodes + 2)
      ∨ ((takeLeaf sym u).status.phase = .deserTree
        ∧ (takeLeaf sym u).results.leafCount = u.results.leafCount
        ∧ (takeLeaf sym u).work.stack ≠ []
        ∧ 2 * countLeaves (takeLeaf sym u).work.nodes (u.work.nnodes + 1) + awaited (takeLeaf sym u).work.stack
            = u.work.nnodes + 2) := by
  rw [takeLeaf_results_leafCount, ← takeLeaf_work_nodes, countLeaves_takeLeaf, takeLeaf_status_phase,
    takeLeaf_work_stack]
  obtain ⟨hnone, hawaited⟩ :=
    attach_awaited u.work.nnodes u.work.stack (setLeaf u.work.nnodes sym 0#32 u.work.nodes)
  generalize attach u.work.nnodes u.work.stack (setLeaf u.work.nnodes sym 0#32 u.work.nodes) = r at *
  by_cases hst : r.1 = []
  · have hsome : r.2.2 ≠ none := fun h => hnone.1 h hst
    refine .inl ⟨if_neg hsome, if_neg hsome, ?_⟩
    rcases hp.balance with ⟨-, h0⟩ | ⟨hne, hbal⟩
    · rw [h0]
      rfl
    · have h1 := hawaited.resolve_left fun h => hne h.1
      rw [hst] at h1
      have h0 : awaited [] = 0 := rfl
      omega
  · have hn := hnone.2 hst
    have h1 := hawaited.resolve_left fun h => hst h.2
    have hne : u.work.stack ≠ [] := fun h => by
      rw [h] at h1
      exact nomatch h1
    have hbal := (hp.balance.resolve_left fun h => hne h.1).2
    exact .inr ⟨by rw [if_pos hn, hr.2], if_pos hn, hst, by omega⟩

/-- A LEAF token: one slot, one leaf and one awaited child fewer; the last one ends the tree, of at most 256 leaves
(R155, R157, R158). -/
theorem takeLeaf_treeInv {u : State} (hr : Running .deserTree u) (hi : TablesInv u) (hp : PhaseInv .deserTree u)
    (hn : u.work.nnodes < Config.nodePool) (sym : Byte) : TreeInv (takeLeaf sym u) := by
  have hbal := takeLeaf_balance hr hp sym
  obtain ⟨-, hdown, hbelow⟩ := hp
  have hbelowPool : ∀ f ∈ u.work.stack, f.node < Config.nodePool := fun f hf => (hbelow f hf).trans hn
  have hsub := attach_nodes u.work.nnodes u.work.stack (setLeaf u.work.nnodes sym 0#32 u.work.nodes)
  rw [← takeLeaf_work_stack] at hsub
  have hdown' := hdown.sublist hsub
  have hbelow' : ∀ f ∈ (takeLeaf sym u).work.stack, f.node < u.work.nnodes := fun f hf => by
    obtain ⟨g, hg, he⟩ := List.mem_map.1 (hsub.subset (List.mem_map_of_mem hf))
    exact he ▸ hbelow g hg
  obtain ⟨hchildren, hroot⟩ := attach_bounds (nodes := setLeaf u.work.nnodes sym 0#32 u.work.nodes) hn hbelowPool
    fun i => by
      rw [(setLeaf_children _ _ _ _ i).1, (setLeaf_children _ _ _ _ i).2]
      exact hi.indices.children i
  have ht : TablesInv (takeLeaf sym u) := {
    freqWf := by simpa using hi.freqWf
    slots := by simpa using hn
    leaves := by
      rcases hbal with ⟨-, hl, hn2⟩ | ⟨-, hl, -, -⟩ <;> rw [hl]
      · have hn' : u.work.nnodes < 511 := hn
        rw [BitVec.toNat_ofNat]
        omega
      · exact hi.leaves
    codeWf := by simpa using hi.codeWf
    nodesWf := by
      rw [takeLeaf_work_nodes]
      exact storeWf_attach _ hbelowPool (storeWf_setLeaf _ _ hi.nodesWf hn)
    indices := {
      children := by simpa using hchildren
      root := by
        rw [takeLeaf_work_root]
        cases ha : (attach u.work.nnodes u.work.stack (setLeaf u.work.nnodes sym 0#32 u.work.nodes)).2.2 with
        | none => exact hi.indices.root
        | some root => exact hroot root ha
      members := by simpa using hi.indices.members
      frames := fun f hf => (hbelow' f hf).trans hn
      cursor := by simpa using hi.indices.cursor }
    wsetFits := by simpa using hi.wsetFits
    stackFits := (stack_length_le (nodup_of_descending hdown') hbelow').trans hi.slots
    codesFit := by simpa using hi.codesFit }
  rcases hbal with ⟨hphase, -, -⟩ | ⟨hphase, -, hne, hsum⟩
  · exact treeInv_running hphase ht trivial
  · refine treeInv_running hphase ht ⟨.inr ⟨hne, ?_⟩, hdown', fun f hf => ?_⟩ <;> rw [takeLeaf_work_nnodes]
    · exact hsum
    · exact Nat.lt_succ_of_lt (hbelow' f hf)

/-! ### Every move -/

/-- The node of DECODE's walk moves to ROOT or to a child, both of them slots of the pool (R194 to R196). -/
theorem cursor_treeInv {u t : State} (hi : TablesInv u) (hp : t.status.phase = .decode) (hw : t.work = u.work)
    (hl : t.results.leafCount = u.results.leafCount) (hc : t.loop.cursor < Config.nodePool) : TreeInv t := by
  have ht : TablesInv { u with loop := { u.loop with cursor := t.loop.cursor } } :=
    { hi with indices := { hi.indices with cursor := hc } }
  exact treeInv_running hp (tablesInv_congr ht hw hl rfl) trivial

/-- A failing element may leave a slot allocated (R155). -/
theorem stopAt_tables {u : State} {j a : Nat} (hi : TablesInv u) (ha : StopIn j a u) : TablesInv (stopAt j a u) :=
  { hi with
    slots := ha.2.elim (fun h0 => by rw [h0]; exact hi.slots) id
    indices := { hi.indices with } }

/-- The end of FREQ (R120): BUILD from the counters, or SIZE with no tree for an empty source. -/
theorem freqDone_treeInv {u : State} (hi : TablesInv u) (hp : PhaseInv .freq u)
    (hidx : u.loop.idx = u.latched.srcLen.toNat) : TreeInv (freqDone u) := by
  obtain ⟨h0, -, htotal⟩ := hp
  have ht : TablesInv (freqDone u) := tablesInv_congr hi rfl rfl rfl
  have hs : SlotsInv (freqDone u) := slotsInv_leaves fun i hlt => by
    rw [freqDone_work, h0] at hlt
    exact absurd hlt (Nat.not_lt_zero i)
  by_cases hlen : u.latched.srcLen = 0#32
  · exact treeInv_running (p := .size) (if_pos hlen) ht ⟨hs, fun h => absurd hlen h, fun h => absurd hlen h⟩
  · exact treeInv_running (p := .build) (if_neg hlen) ht ⟨⟨htotal.symm.trans hidx, hlen⟩, .inl h0, hs⟩

/-- The invariant says nothing of DONE, the window registers, IRQ_EN, the bit writer, memory, the host and the model's
counter. -/
theorem treeInv_of_kept {u : State} (hi : TreeInv u) (d : Bool) (v : Windows) (irq : Bool) (w : Writer)
    (m : List Host.Cell) (q : List HostMove) (r : Word) (n : Nat) :
    TreeInv { u with
      status := { u.status with done := d }
      win := v, irqEn := irq, writer := w, mem := m, host := q, rdata := r, draws := n } :=
  { hi with
    building := fun hr => (hi.building hr).imp id fun hm => { hm with }
    indices := { hi.indices with } }

/-- Every move of the engine keeps the invariant. -/
theorem engineMove_treeInv {u t : State} (h : EngineMove u t) (hm : MachineInv u) (hi : TreeInv u) : TreeInv t := by
  have ht := treeInv_tables hi
  have hp := fun p (hr : Running p u) => treeInv_phase hi hr
  cases h
  case checkBad | freqError | sizeOverflow | serError | countError | encodeBitError | encodeReadError | finalDone
      | finalError | countReadError | countTooLarge | decodeDone | decodeWriteError | decodeReadError =>
    exact treeInv_ended rfl (tablesInv_congr ht rfl rfl rfl)
  case deserError hj => exact treeInv_ended rfl (tablesInv_congr (stopAt_tables ht hj) rfl rfl rfl)
  case checkCompress hr _ _ => exact treeInv_running rfl (tablesInv_congr ht rfl rfl rfl) { hp _ hr with }
  case checkDecompress hr _ _ =>
    obtain ⟨h0, hst, -⟩ := hp _ hr
    refine treeInv_running rfl (tablesInv_congr ht rfl rfl rfl) ⟨.inl ⟨hst, h0⟩, ?_⟩
    simp [hst]
  case freqByte hr hlt =>
    obtain ⟨h0, hst, htotal⟩ := hp _ hr
    refine treeInv_running hr.2 ?_ ⟨h0, hst, freqTotal_countSymbol_below _ ht.freqWf htotal hlt⟩
    exact { ht with freqWf := storeWf_countSymbol _ ht.freqWf, indices := { ht.indices with } }
  case freqDone hr hge => exact freqDone_treeInv ht (hp _ hr) (Nat.le_antisymm hm.idxIn hge)
  case buildLeaves hr _ => exact buildLeaves_treeInv hr ht (hp _ hr).counted
  case buildEmpty hr h0 hw => exact absurd hw ((hp _ hr).building.resolve_left h0).nonempty
  case buildLast hr h0 a hw =>
    obtain ⟨hc, hmerge, hs⟩ := hp _ hr
    exact buildDone_treeInv ht hc (hmerge.resolve_left h0) hs hw
  case buildMerge hr h0 a b ha hb _ _ =>
    obtain ⟨hc, hmerge, hs⟩ := hp _ hr
    exact mergeNodes_treeInv hr ht hc (hmerge.resolve_left h0) hs ha hb
  case codesVisit hr top rest hst => exact visitCode_treeInv hr ht (hp _ hr) hst
  case codesDone hr _ =>
    obtain ⟨-, hs, hb, hroot, -⟩ := hp _ hr
    exact treeInv_running rfl (tablesInv_congr ht rfl rfl rfl) ⟨{ hs with }, hb, hroot⟩
  case sizeOk hr tb _ _ => exact sizeOk_treeInv ht (hp _ hr) _
  case serToken hr _ m w d _ _ _ =>
    exact serNext_treeInv (u := { u with mem := m, writer := w, draws := d }) hr (treeInv_of_kept hi _ _ _ w m _ _ d)
  case serDone hr _ => exact treeInv_running rfl (tablesInv_congr ht rfl rfl rfl) trivial
  case countWritten hr m w d _ _ =>
    have hphase := afterCount_status_phase { u with mem := m, writer := w, draws := d }
    refine treeInv_running hphase (tablesInv_congr ht (by simp) (by simp) (by simp)) ?_
    split <;> trivial
  case encodeBit hr _ _ _ _ _ _ _ _ => exact treeInv_running hr.2 (tablesInv_congr ht rfl rfl rfl) trivial
  case encodeByte hr _ _ =>
    exact treeInv_running (p := .encode) (by simpa using hr.2)
      (tablesInv_congr ht (by simp) (by simp) (by simp)) trivial
  case encodeDone hr _ _ => exact treeInv_running rfl (tablesInv_congr ht rfl rfl rfl) trivial
  case deserInternal hr _ hn => exact takeInternal_treeInv hr ht (hp _ hr) hn
  case deserLeaf hr _ hn sym => exact takeLeaf_treeInv hr ht (hp _ hr) hn sym
  case countRead => exact cursor_treeInv ht rfl rfl rfl ht.indices.root
  case decodeSymbol hr _ _ => exact cursor_treeInv ht hr.2 rfl rfl ht.indices.root
  case decodeBit hr _ _ n hc =>
    have hn : n < Config.nodePool := by
      rcases hc with rfl | rfl
      · exact (ht.indices.children _).1
      · exact (ht.indices.children _).2
    exact cursor_treeInv ht hr.2 rfl rfl hn

/-- Cleared tables with LEAF_COUNT 0 meet the clauses, if the node pool and ROOT do. -/
theorem tablesInv_cleared {s : State} {nodes : List (Nat × Node)} {root : Nat}
    (hw : s.work = ⟨[], nodes, 0, root, [], [], []⟩) (hl : s.results.leafCount = 0#32) (hc : s.loop.cursor = 0)
    (hnodes : storeWf Node.unwritten Config.nodePool nodes)
    (hchildren : ∀ n, (nodeAt nodes n).left < Config.nodePool ∧ (nodeAt nodes n).right < Config.nodePool)
    (hroot : root < Config.nodePool) : TablesInv s := by
  obtain ⟨hfreq, hnodes', hnn, hroot', hwset, hcode, hstack⟩ := Work.mk.inj hw
  exact {
    freqWf := by rw [hfreq]; exact storeWf_nil _ _
    slots := by rw [hnn]; exact Nat.zero_le _
    leaves := by rw [hl]; exact Nat.zero_le _
    codeWf := by rw [hcode]; exact storeWf_nil _ _
    nodesWf := by rw [hnodes']; exact hnodes
    indices := {
      children := by rw [hnodes']; exact hchildren
      root := by rw [hroot']; exact hroot
      members := by rw [hwset]; exact nofun
      frames := by rw [hstack]; exact nofun
      cursor := by rw [hc]; decide }
    wsetFits := by rw [hwset]; exact Nat.zero_le _
    stackFits := by rw [hstack]; exact Nat.zero_le _
    codesFit := by rw [hcode]; exact nofun }

/-- A command start clears the tables but for the node pool and ROOT (R211). -/
theorem startCommand_treeInv (w : Word) {u : State} (hi : TreeInv u) : TreeInv (startCommand w u) :=
  treeInv_running (p := .check) rfl
    (tablesInv_cleared rfl rfl rfl hi.nodesWf hi.indices.children hi.indices.root) ⟨rfl, rfl, rfl⟩

/-- Reset empties the tables (R260; log 9). -/
theorem resetBlock_treeInv (u : State) : TreeInv (resetBlock u) :=
  have h0 : 0 < Config.nodePool := by decide
  treeInv_ended rfl (tablesInv_cleared rfl rfl rfl (storeWf_nil _ _) (fun _ => ⟨h0, h0⟩) h0)

/-- Every move of the host keeps the invariant. -/
theorem hostEffect_treeInv {m : HostMove} {u t : State} (h : HostEffect u m t) (hi : TreeInv u) : TreeInv t := by
  rcases hostEffect_cases h with ⟨-, v, -, -, -, rfl⟩ | ⟨-, -, -, -, -, -, rfl⟩ | ⟨-, rfl⟩ | hk
  · exact startCommand_treeInv v hi
  · exact treeInv_of_kept hi _ _ _ _ _ _ _ _
  · exact resetBlock_treeInv u
  · rw [hk]
    exact treeInv_of_kept hi _ _ _ _ _ _ _ _

/-- The host's queue is not the invariant's. -/
theorem treeInv_withHost {s : State} (hi : TreeInv s) (q : List HostMove) : TreeInv { s with host := q } :=
  treeInv_of_kept hi _ _ _ _ _ _ _ _

/-- Settles O52: each move of the engine leaves the clauses of the phase it leads to (`engineMove_treeInv`), and a
move of the host leaves the tables, clears them for a new command or empties them (`hostEffect_treeInv`). -/
theorem stepKeepsTreeInv : Obligations.StepKeepsTreeInv := by
  unfold Obligations.StepKeepsTreeInv
  intro s t hm hi h
  rcases step_cases h with ⟨u, hu, -, hmove⟩ | ⟨hu, -⟩ | ⟨m, rest, hs, he⟩
  · rw [engineTurn_host hu] at hmove
    exact engineMove_treeInv hmove (machineInv_withHost hm _) (treeInv_withHost hi _)
  · rw [engineTurn_host hu]
    exact treeInv_withHost hi _
  · exact hostEffect_treeInv he (treeInv_withHost hi rest)

end Sys2Proof.Machine

/-!
The register port and the memory port (20_memory.md): which host accesses have no meaning, how a read or a write that
fails ends the command, and that the engine reads and writes inside its windows only.
-/

/-! ## Refused register accesses (R71) -/

namespace Sys2Proof.Machine

open Sys2Proof.Safety

/-- Settles O11: such an access reaches no register (`accessedReg_odd`), so the host's move is refused. -/
theorem oddRegisterAccessesRefused : Obligations.OddRegisterAccessesRefused := by
  unfold Obligations.OddRegisterAccessesRefused
  intro s addr bytes v rest hodd
  have hnone := accessedReg_odd s.platform addr bytes hodd
  refine ⟨fun hs => ?_, fun hs => ?_⟩ <;> simp only [step_host hs, hostMove, hnone]

/-! ## Failing reads (R62, R106, R107, R155) -/

/-- Of the codes a command ends with, OUTPUT_OVERFLOW alone keeps the OUT_LEN it finds (R235, R237). -/
theorem endCommand_eq {e : ErrCode} (he : e ≠ .outputOverflow) (s : State) :
    endCommand e s = { s with
      status := ⟨false, true, e, s.status.phase⟩
      results := { s.results with outLen := BitVec.ofNat 32 s.writer.outpos } } := by
  rw [endCommand, if_neg he]

/-- A bit fails with one of the reader's errors (R106). -/
theorem bitFails_readError {s : State} {k : Nat} {e : ErrCode} (h : BitFails s k e) : ReadError e :=
  peekBit_error (peekBit_fails h)

theorem ReadError.ne_outputOverflow {e : ErrCode} (h : ReadError e) : e ≠ .outputOverflow := by
  rcases h with rfl | rfl <;> decide

/-- An element of `n` bits that fails on bit `j` leaves the bits before it consumed (R106, R107). -/
theorem readStop_failsAfter {s : State} {j n : Nat} {e : ErrCode} (h : FailsAfter s j e) (hj : j < n) :
    readStop n s = stopAt j 0 s := by
  rw [readStop, (failsAfter_bits h hj).1]
  rfl

/-- A token whose flag fails leaves everything as it was (R155). -/
theorem token_flag_fails {s : State} {e : ErrCode} (h : FailsAfter s 0 e) :
    fetchToken s = .error e ∧ tokenStop s = s := by
  have hflag : peekBit s s.reader.rdpos = .error e := peekBit_fails h.2
  simp only [fetchToken, tokenStop, hflag, and_self]

/-- A LEAF token whose symbol fails leaves its slot allocated, and the bits before the failing one consumed (R155,
R158). -/
theorem token_symbol_fails {s : State} {j : Nat} {e : ErrCode} (h : FailsAfter s (j + 1) e) (hj : j < 8)
    (hflag : peekBit s s.reader.rdpos = .ok true) (hpool : s.work.nnodes < Config.nodePool) :
    fetchToken s = .error e ∧ tokenStop s = stopAt (j + 1) 1 s := by
  have hnotfull : poolFull s = false := decide_eq_false (Nat.not_le.2 hpool)
  have hshift : ∀ i, s.reader.rdpos + 1 + i = s.reader.rdpos + (i + 1) := fun i => by omega
  obtain ⟨hread, hpeek⟩ := bitsRead_fails (pos := s.reader.rdpos + 1) hj
    (fun i hi => by rw [hshift]; exact peekBit_readable (h.1 (i + 1) (by omega)))
    (by rw [hshift]; exact peekBit_fails h.2)
  simp only [fetchToken, tokenStop, hflag, hnotfull, hpeek, hread, Nat.add_comm 1 j]
  exact ⟨rfl, rfl⟩

/-- Settles O22: the failing read is the fetch's error (`failsAfter_bits`, `token_symbol_fails`), which ends the command
in the state the reads before it left. -/
theorem readErrors : Obligations.ReadErrors := by
  unfold Obligations.ReadErrors
  intro s u hu
  refine ⟨fun hr hi hf => ?_, fun e j hfail => ?_⟩
  · have hread : readSource u u.loop.idx = .error .busError := if_pos hf
    rcases hr with hr | ⟨hr, hc⟩
    · simp only [step_phase hu hr, phaseStep, freqStep, if_pos hi, hread, raise,
        endCommand_eq (e := .busError) (by decide)]
      rfl
    · simp only [step_phase hu hr, phaseStep, encodeStep, hc, if_pos hi, hread, raise,
        endCommand_eq (e := .busError) (by decide)]
      rfl
  · have hended := fun v => endCommand_eq (bitFails_readError hfail.2).ne_outputOverflow v
    refine ⟨fun hr hj => ?_, fun hr hpool hflag hj hj8 => ?_, fun hr hj => ?_, fun hr hn hk hj => ?_⟩
    · subst hj
      obtain ⟨hfetch, hstop⟩ := token_flag_fails hfail
      simp only [step_phase hu hr, phaseStep, deserTreeStep, execFetched, hfetch, hstop, raise, hended]
      rfl
    · obtain ⟨i, rfl⟩ : ∃ i, j = i + 1 := ⟨j - 1, by omega⟩
      obtain ⟨hfetch, hstop⟩ := token_symbol_fails hfail (by omega) hflag hpool
      simp only [step_phase hu hr, phaseStep, deserTreeStep, execFetched, hfetch, hstop, raise, hended]
    · simp only [step_phase hu hr, phaseStep, rdCountStep, execFetched, fetchCount, (failsAfter_bits hfail hj).2,
        readStop_failsAfter hfail hj, raise, hended]
    · subst hj
      simp only [step_phase hu hr, phaseStep, decodeStep, if_neg (Nat.not_le.2 hn), hk, execFetched, fetchPayload,
        (failsAfter_bits hfail Nat.one_pos).2, readStop_failsAfter hfail Nat.one_pos, raise, hended]

/-! ## Failing writes (R63, R100, R103, R194) -/

theorem putBits_singleton (b : Bool) (s : State) : putBits [b] s = putBit b s := by
  rw [putBits]
  cases putBit b s <;> rfl

/-- The element of the stream that a phase of COMPRESS writes is written as its encoding, and a bus error ends the
command (R86, R83, R88, R100). -/
theorem exec_writes {s : State} {i : Instr}
    (h : Running .serTree s ∧ i.format = .treeToken ∨ Running .wrCount s ∧ i.format = .count32
      ∨ Running .encode s ∧ i.format = .payloadBit) :
    ∃ k, exec i s = orBusError (putBits (encode i) s) k := by
  rcases h with ⟨hr, hi⟩ | ⟨hr, hi⟩ | ⟨hr, hi⟩ <;> have ha := active_running hr <;> cases i <;> cases hi
  case inl.tokenInternal.refl => exact ⟨_, by simp only [exec, execTokenInternal, ha, emitInternal_eq]; rfl⟩
  case inl.tokenLeaf.refl => exact ⟨_, by simp only [exec, execTokenLeaf, ha, emitLeaf_eq]; rfl⟩
  case inr.inl.count.refl => exact ⟨_, by simp only [exec, execCount, ha, writeBits]; rfl⟩
  case inr.inr.payloadLeft.refl =>
    exact ⟨_, by simp only [exec, execPayloadLeft, ha, emitPayload, encode, putBits_singleton]; rfl⟩
  case inr.inr.payloadRight.refl =>
    exact ⟨_, by simp only [exec, execPayloadRight, ha, emitPayload, encode, putBits_singleton]; rfl⟩

/-- Settles O39: an element stops at the byte that fails (`putBits_fault`); the flush and a symbol write one byte
(`memWrite_fault`). -/
theorem writeBusError : Obligations.WriteBusError := by
  unfold Obligations.WriteBusError
  refine ⟨fun s i k hfault hi => ?_, fun s u hu hr hf => ?_⟩
  · obtain ⟨g, hexec⟩ := exec_writes hi
    obtain ⟨t, hput, hframe, rfl, hdest, hacc, hwbits, hmem⟩ := putBits_fault (encode i) hfault
    refine ⟨endCommand .busError t, by rw [hexec, hput]; rfl, ?_, rfl, hdest, hacc, hwbits, hmem⟩
    rw [hframe]
    rfl
  · have hend : step s = .next (endCommand .busError { u with
        mem := writeByte (dstByteAddr u u.writer.outpos).toNat (Config.freeByte u.draws) u.mem
        draws := u.draws + 1 }) := by
      rcases hr with ⟨hr, hn, hlt⟩ | ⟨hr, hlt, hk⟩
      · simp only [step_phase hu hr, phaseStep, finalStep, finalize, if_neg hn, flushByte_fault hlt hf, orBusError, raise]
      · simp only [step_phase hu hr, phaseStep, decodeStep, if_neg (Nat.not_le.2 hlt), hk, emitSymbol,
          memWrite_fault _ hf, orBusError, raise]
    exact ⟨_, hend, rfl, fun a ha => readByte_writeByte_ne _ _ ha⟩

/-! ## Writes stay in the destination window (R67, R66, R32) -/

/-- CHECK writes no memory (R212). -/
theorem engineMove_check_mem {u t : State} (h : EngineMove u t) (hc : Running .check u) : t.mem = u.mem := by
  cases h
  case checkBad | checkCompress | checkDecompress => rfl
  all_goals
    rename Running _ u => hr
    exact nomatch hc.2.symm.trans hr.2

/-- An engine move writes destination bytes of the window only (R67, R104; in DECODE by R193). -/
theorem engineMove_outside {u t : State} (h : EngineMove u t)
    (hn : Running .decode u → u.results.symCount.toNat ≤ u.latched.dstCap.toNat) {a : Nat}
    (ha : ∀ j, j < u.latched.dstCap.toNat → a ≠ (dstByteAddr u j).toNat) : readByte a t.mem = readByte a u.mem := by
  cases h
  case serToken hf _ _ | serError hf | countError hf | encodeBit hf _ | encodeBitError hf | finalDone hf
      | finalError hf =>
    exact hf.outside a ha
  case countWritten hf _ => simpa using hf.outside a ha
  case decodeSymbol hr hlt _ | decodeWriteError hr hlt _ _ =>
    exact readByte_writeByte_ne _ _ (ha _ (hlt.trans_le (hn hr)))
  all_goals simp

/-- A byte outside the destination window is none of its bytes (R66). -/
theorem ne_dstByteAddr {s : State} {a : Nat} (hp : passesTop s.latched.dstAddr s.latched.dstCap = false)
    (ha : inDest s.latched a = false) : ∀ j, j < s.latched.dstCap.toNat → a ≠ (dstByteAddr s j).toNat := by
  rintro j hj rfl
  simp [inDest, dstByteAddr_toNat hp hj] at ha
  omega

/-- A byte of the source window is not in the destination window (R66, R212 (d)). -/
theorem inDest_of_inSource {w : Windows} {a : Nat} (ho : overlap w = false) (ha : inSource w a = true) :
    inDest w a = false := by
  simp [overlap, inSource, inDest] at ho ha ⊢
  omega

/-- Settles O53: past CHECK the windows are legal, so what `engineMove_outside` leaves unchanged is all but the
destination window, the source window included. -/
theorem writesStayInTheDestinationWindow : Obligations.WritesStayInTheDestinationWindow := by
  unfold Obligations.WritesStayInTheDestinationWindow
  intro s u t hi hu hs
  cases hb : u.status.busy with
  | false =>
    rw [step_engine hu, engineStep_idle hb] at hs
    cases hs
    exact ⟨fun _ _ => rfl, fun _ _ => rfl⟩
  | true =>
    have hm := engineMove_of_step hu hb hs
    by_cases hc : u.status.phase = .check
    · rw [engineMove_check_mem hm ⟨hb, hc⟩]
      exact ⟨fun _ _ => rfl, fun _ _ => rfl⟩
    · have hiu : MachineInv u := by
        rw [engineTurn_host hu]
        exact machineInv_withHost hi _
      obtain ⟨-, htop, hover⟩ := windowsLegal_iff.1 (hiu.windows hb hc)
      have houtside : ∀ a, inDest u.latched a = false → readByte a t.mem = readByte a u.mem := fun a ha =>
        engineMove_outside hm hiu.decodeCap (ne_dstByteAddr htop ha)
      exact ⟨houtside, fun a ha => houtside a (inDest_of_inSource hover ha)⟩

/-! ## Reads stay in the source window (R67, R108) -/

/-! ### A move on another memory -/

/-- The state on memory `m`. -/
def withMem (m : List Host.Cell) (s : State) : State :=
  { s with mem := m }

section
variable (m : List Host.Cell) (s : State)

@[simp] theorem withMem_cmd : (withMem m s).cmd = s.cmd := rfl
@[simp] theorem withMem_status : (withMem m s).status = s.status := rfl
@[simp] theorem withMem_results : (withMem m s).results = s.results := rfl
@[simp] theorem withMem_latched : (withMem m s).latched = s.latched := rfl
@[simp] theorem withMem_work : (withMem m s).work = s.work := rfl
@[simp] theorem withMem_writer : (withMem m s).writer = s.writer := rfl
@[simp] theorem withMem_reader : (withMem m s).reader = s.reader := rfl
@[simp] theorem withMem_loop : (withMem m s).loop = s.loop := rfl
@[simp] theorem withMem_platform : (withMem m s).platform = s.platform := rfl
@[simp] theorem withMem_active : (withMem m s).active = s.active := rfl
@[simp] theorem withMem_poolFull : poolFull (withMem m s) = poolFull s := rfl
@[simp] theorem withMem_serToken : serToken (withMem m s) = serToken s := rfl
@[simp] theorem withMem_srcByteAddr (i : Nat) : srcByteAddr (withMem m s) i = srcByteAddr s i := rfl
@[simp] theorem withMem_dstByteAddr (j : Nat) : dstByteAddr (withMem m s) j = dstByteAddr s j := rfl

end

/-- What a move from `s` to `t` on the state's memory, and from `m` to `m'` on another, have in common: each byte is
afterwards the same in both or as it was in each, the bytes completed are the same, and no other byte changes but the
one after them. -/
structure MemAlike (s : State) (m : List Host.Cell) (t : State) (m' : List Host.Cell) : Prop where
  alike : ∀ a, readByte a m' = readByte a t.mem ∨ (readByte a m' = readByte a m ∧ readByte a t.mem = readByte a s.mem)
  completed : ∀ j, s.writer.outpos ≤ j → j < t.writer.outpos →
    readByte (dstByteAddr s j).toNat m' = readByte (dstByteAddr s j).toNat t.mem
  outside : ∀ a, (∀ j, s.writer.outpos ≤ j → j ≤ t.writer.outpos → a ≠ (dstByteAddr s j).toNat) →
    readByte a m' = readByte a m ∧ readByte a t.mem = readByte a s.mem

/-- A move that writes nothing. -/
theorem memAlike_kept {s t : State} (m : List Host.Cell) (hm : t.mem = s.mem)
    (ho : t.writer.outpos ≤ s.writer.outpos) : MemAlike s m t m where
  alike := fun _ => .inr ⟨rfl, by rw [hm]⟩
  completed := fun _ h h' => absurd (h.trans_lt h') (Nat.not_lt.2 ho)
  outside := fun _ _ => ⟨rfl, by rw [hm]⟩

/-- A move that writes the next destination byte, and counts it as completed or not. -/
theorem memAlike_write {s t : State} (m : List Host.Cell) (v : Byte)
    (hm : t.mem = writeByte (dstByteAddr s s.writer.outpos).toNat v s.mem)
    (hlo : s.writer.outpos ≤ t.writer.outpos) (hhi : t.writer.outpos ≤ s.writer.outpos + 1) :
    MemAlike s m t (writeByte (dstByteAddr s s.writer.outpos).toNat v m) where
  alike := fun a => by
    rw [hm, readByte_writeByte, readByte_writeByte]
    split
    · exact .inl rfl
    · exact .inr ⟨rfl, rfl⟩
  completed := fun j h h' => by
    obtain rfl : j = s.writer.outpos := by omega
    rw [hm, readByte_writeByte_self, readByte_writeByte_self]
  outside := fun a ha => by
    have hne := ha _ (Nat.le_refl _) hlo
    rw [hm]
    exact ⟨readByte_writeByte_ne _ _ hne, readByte_writeByte_ne _ _ hne⟩

/-- One move after another of the writer. -/
theorem MemAlike.trans {s t u : State} {m m' m'' : List Host.Cell} (h : MemAlike s m t m') (h' : MemAlike t m' u m'')
    (hf : WriterFrame s t) (hf' : WriterFrame t u) : MemAlike s m u m'' := by
  have hd : ∀ j, dstByteAddr t j = dstByteAddr s j := fun j => by unfold dstByteAddr; rw [hf.latched]
  have hst := hf.outMono
  have htu := hf'.outMono
  have hcompleted := h'.completed
  have houtside := h'.outside
  simp only [hd] at hcompleted houtside
  refine ⟨fun a => ?_, fun j hj hj' => ?_, fun a ha => ?_⟩
  · rcases h'.alike a with he | ⟨he, he'⟩
    · exact .inl he
    · rw [he, he']
      exact h.alike a
  · by_cases hjt : j < t.writer.outpos
    · rcases h'.alike (dstByteAddr s j).toNat with he | ⟨he, he'⟩
      · exact he
      · rw [he, he']
        exact h.completed j hj hjt
    · exact hcompleted j (Nat.not_lt.1 hjt) hj'
  · obtain ⟨he, he'⟩ := houtside a fun j hj hj' => ha j (hst.trans hj) hj'
    rw [he, he']
    exact h.outside a fun j hj hj' => ha j hj (hj'.trans htu)

/-- An update that leaves memory and OUTPOS, and does not look at memory. -/
structure MemBlind (g : State → State) : Prop where
  mem : ∀ s, (g s).mem = s.mem
  outpos : ∀ s, (g s).writer.outpos = s.writer.outpos
  comm : ∀ s m, g (withMem m s) = withMem m (g s)

theorem MemAlike.update {s t : State} {m m' : List Host.Cell} {g : State → State} (hg : MemBlind g)
    (h : MemAlike s m t m') : MemAlike s m (g t) m' := by
  obtain ⟨halike, hcompleted, houtside⟩ := h
  rw [← hg.mem t] at halike hcompleted houtside
  rw [← hg.outpos t] at hcompleted houtside
  exact ⟨halike, hcompleted, houtside⟩

/-! ### Outcomes -/

/-- An outcome of a step from `s` and one of the same step on memory `m` differ in memory only. -/
def OutAlike (s : State) (m : List Host.Cell) (o o' : Out) : Prop :=
  ∀ t, o = .next t → ∃ m', o' = .next (withMem m' t) ∧ MemAlike s m t m'

/-- The same of a writer operation. -/
def WriterAlike (s : State) (m : List Host.Cell) (r r' : Except State State) : Prop :=
  ∃ t m', WriterFrame s t ∧ MemAlike s m t m'
    ∧ ((r = .ok t ∧ r' = .ok (withMem m' t)) ∨ (r = .error t ∧ r' = .error (withMem m' t)))

theorem outAlike_next {s t t' : State} {m m' : List Host.Cell} (ht : t' = withMem m' t)
    (h : MemAlike s m t m') : OutAlike s m (.next t) (.next t') := by
  rintro _ ⟨⟩
  exact ⟨m', by rw [ht], h⟩

/-- Nothing written, on either memory. -/
theorem outAlike_kept {s t t' : State} {m : List Host.Cell} (ht : t' = withMem m t) (hm : t.mem = s.mem)
    (ho : t.writer.outpos ≤ s.writer.outpos) : OutAlike s m (.next t) (.next t') :=
  outAlike_next ht (memAlike_kept m hm ho)

theorem outAlike_blind {g : State → State} (hg : MemBlind g) (s : State) (m : List Host.Cell) :
    OutAlike s m (.next (g s)) (.next (g (withMem m s))) :=
  outAlike_kept (hg.comm s m) (hg.mem s) (hg.outpos s).le

theorem outAlike_refused (s : State) (m : List Host.Cell) (r : Refusal) : OutAlike s m (.refused r) (.refused r) := by
  rintro t ⟨⟩

theorem outAlike_fault (s : State) (m : List Host.Cell) (r : Fault) : OutAlike s m (.fault r) (.fault r) := by
  rintro t ⟨⟩

/-- The end of a command leaves memory (R235). -/
theorem endCommand_blind (e : ErrCode) : MemBlind (endCommand e) :=
  ⟨fun _ => rfl, fun _ => rfl, fun _ _ => rfl⟩

theorem raise_alike (e : ErrCode) (s : State) (m : List Host.Cell) :
    OutAlike s m (raise e s) (raise e (withMem m s)) :=
  outAlike_blind (endCommand_blind e) s m

/-- Writer operations that differ in memory only, each followed by the same update or by the end with BUS_ERROR. -/
theorem orBusError_alike {s : State} {m : List Host.Cell} {r r' : Except State State} {g : State → State}
    (h : WriterAlike s m r r') (hg : MemBlind g) :
    OutAlike s m (orBusError r fun t => .next (g t)) (orBusError r' fun t => .next (g t)) := by
  obtain ⟨t, m', -, ha, ⟨rfl, rfl⟩ | ⟨rfl, rfl⟩⟩ := h
  · exact outAlike_next (hg.comm t m') (ha.update hg)
  · exact outAlike_next rfl (ha.update (endCommand_blind .busError))

/-! ### The writer -/

/-- A flush writes ACC, or the free byte of the same draw (log 7), at the same address. -/
theorem flushByte_alike (s : State) (m : List Host.Cell) :
    WriterAlike s m (flushByte s) (flushByte (withMem m s)) := by
  by_cases hlt : s.writer.outpos < s.latched.dstCap.toNat
  · cases hf : busFault s.platform .write (dstByteAddr s s.writer.outpos) with
    | false =>
      exact ⟨_, _, writerFrame_write _ ⟨0#8, 0#3, s.writer.outpos + 1, s.writer.wbits⟩ s.draws hlt (Nat.le_succ _) hlt,
        memAlike_write m _ rfl (Nat.le_succ _) (Nat.le_refl _),
        .inl ⟨flushByte_ok hlt hf, flushByte_ok (s := withMem m s) hlt hf⟩⟩
    | true =>
      exact ⟨_, _, writerFrame_write _ s.writer (s.draws + 1) hlt (Nat.le_refl _) hlt.le,
        memAlike_write m _ rfl (Nat.le_refl _) (Nat.le_succ _),
        .inr ⟨flushByte_fault hlt hf, flushByte_fault (s := withMem m s) hlt hf⟩⟩
  · exact ⟨{ s with writer := ⟨0#8, 0#3, s.writer.outpos, s.writer.wbits⟩ }, m,
      ⟨rfl, id, Nat.le_refl _, id, fun _ _ => rfl⟩, memAlike_kept m rfl (Nat.le_refl _),
      .inl ⟨if_neg hlt, if_neg hlt⟩⟩

theorem putBit_alike (b : Bool) (s : State) (m : List Host.Cell) :
    WriterAlike s m (putBit b s) (putBit b (withMem m s)) := by
  unfold putBit
  rw [withMem_writer]
  split
  · obtain ⟨t, m', hf, ⟨halike, hcompleted, houtside⟩, hr⟩ := flushByte_alike (fillBit b s) m
    exact ⟨t, m', (fillBit_frame b s).trans hf, ⟨halike, hcompleted, houtside⟩, hr⟩
  · exact ⟨fillBit b s, m, fillBit_frame b s, memAlike_kept m rfl (Nat.le_refl _), .inl ⟨rfl, rfl⟩⟩

theorem putBits_alike (bs : Bits) (s : State) (m : List Host.Cell) :
    WriterAlike s m (putBits bs s) (putBits bs (withMem m s)) := by
  induction bs generalizing s m with
  | nil => exact ⟨s, m, .refl s, memAlike_kept m rfl (Nat.le_refl _), .inl ⟨rfl, rfl⟩⟩
  | cons b bs ih =>
    obtain ⟨t, m', hf, ha, ⟨h, h'⟩ | ⟨h, h'⟩⟩ := putBit_alike b s m <;> simp only [putBits, h, h']
    · obtain ⟨u, m'', hf', ha', hr⟩ := ih t m'
      exact ⟨u, m'', hf.trans hf', ha.trans ha' hf hf', hr⟩
    · exact ⟨t, m', hf, ha, .inr ⟨rfl, rfl⟩⟩

theorem finalize_alike (s : State) (m : List Host.Cell) :
    WriterAlike s m (finalize s) (finalize (withMem m s)) := by
  unfold finalize
  rw [withMem_writer]
  split
  · exact ⟨s, m, .refl s, memAlike_kept m rfl (Nat.le_refl _), .inl ⟨rfl, rfl⟩⟩
  · exact flushByte_alike s m

/-! ### Executing an instruction reads no memory -/

theorem serNext_blind : MemBlind serNext :=
  ⟨fun _ => rfl, fun _ => rfl, fun _ _ => rfl⟩

theorem afterCount_blind : MemBlind afterCount :=
  ⟨afterCount_mem, fun s => by rw [afterCount_writer], fun s m => by
    unfold afterCount; rw [withMem_latched]; split <;> rfl⟩

theorem takeLeaf_blind (sym : Byte) : MemBlind (takeLeaf sym) :=
  ⟨fun s => takeLeaf_mem s sym, fun s => by rw [takeLeaf_writer], fun s m => by
    unfold takeLeaf; dsimp only; rw [withMem_work]; split <;> rfl⟩

theorem checkCapacity_alike (n : Word) (s : State) (m : List Host.Cell) :
    OutAlike s m (checkCapacity n (takeCount n s)) (checkCapacity n (takeCount n (withMem m s))) := by
  unfold checkCapacity
  rw [takeCount_latched, takeCount_latched, withMem_latched]
  split <;> exact outAlike_kept rfl rfl (Nat.le_refl _)

theorem emitPayload_alike (b : Bool) (s : State) (m : List Host.Cell) :
    OutAlike s m (emitPayload b s) (emitPayload b (withMem m s)) :=
  orBusError_alike (putBit_alike b s m) ⟨fun _ => rfl, fun _ => rfl, fun _ _ => rfl⟩

theorem commandWrite_alike (w : Word) (s : State) (m : List Host.Cell) :
    OutAlike s m (.next (commandWrite w s)) (.next (commandWrite w (withMem m s))) := by
  unfold commandWrite
  rw [withMem_status]
  split
  · exact outAlike_kept rfl rfl (Nat.le_refl _)
  · exact outAlike_kept rfl rfl (Nat.zero_le _)

/-- No meaning looks at memory: what an element reads is in its operand. -/
theorem exec_alike (i : Instr) (s : State) (m : List Host.Cell) :
    OutAlike s m (exec i s) (exec i (withMem m s)) := by
  cases i with
  | compress | decompress => exact commandWrite_alike _ s m
  | tokenInternal =>
    simp only [exec, execTokenInternal, emitInternal_eq]
    rw [withMem_active, withMem_poolFull]
    split
    · exact orBusError_alike (putBits_alike _ s m) serNext_blind
    · split <;> exact outAlike_kept rfl rfl (Nat.le_refl _)
    · exact outAlike_refused s m _
  | tokenLeaf sym =>
    simp only [exec, execTokenLeaf, emitLeaf_eq]
    rw [withMem_active, withMem_poolFull]
    split
    · exact orBusError_alike (putBits_alike _ s m) serNext_blind
    · split
      · exact outAlike_kept rfl rfl (Nat.le_refl _)
      · exact outAlike_blind (takeLeaf_blind sym) s m
    · exact outAlike_refused s m _
  | count n =>
    simp only [exec, execCount, withMem_active]
    split
    · exact orBusError_alike (putBits_alike _ s m) afterCount_blind
    · exact checkCapacity_alike n s m
    · exact outAlike_refused s m _
  | payloadLeft | payloadRight =>
    simp only [exec, execPayloadLeft, execPayloadRight, withMem_active]
    split
    · exact emitPayload_alike _ s m
    · exact outAlike_kept rfl rfl (Nat.le_refl _)
    · exact outAlike_refused s m _

/-! ### Source bytes and stream bits -/

/-- Memory `m` holds the source bytes of `s`. -/
def SameSource (s : State) (m : List Host.Cell) : Prop :=
  ∀ i, i < s.latched.srcLen.toNat → readByte (srcByteAddr s i).toNat m = readByte (srcByteAddr s i).toNat s.mem

/-- A memory that agrees on the source window holds the same source bytes (R65, R66). -/
theorem sameSource_of_agree {s : State} {m : List Host.Cell}
    (hp : passesTop s.latched.srcAddr s.latched.srcLen = false)
    (h : ∀ a, inSource s.latched a = true → readByte a m = readByte a s.mem) : SameSource s m := by
  intro i hi
  refine h _ ?_
  rw [srcByteAddr_toNat hp hi]
  simp [inSource, hi]

section
variable {s : State} {m : List Host.Cell} (hm : SameSource s m)
include hm

theorem readSource_sameSource {i : Nat} (hi : i < s.latched.srcLen.toNat) :
    readSource (withMem m s) i = readSource s i := by
  unfold readSource memRead
  rw [withMem_platform, withMem_srcByteAddr]
  split
  · rfl
  · exact congrArg _ (hm i hi)

variable (hr : s.reader.rdlimit = 8 * s.latched.srcLen.toNat)
include hr

/-- The stream bits before RDLIMIT are source bits (R106, R108). -/
theorem peekBit_sameSource (pos : Nat) : peekBit (withMem m s) pos = peekBit s pos := by
  unfold peekBit
  rw [withMem_reader]
  split
  · rfl
  · rw [show memRead (srcByteAddr (withMem m s) (pos / 8)) (withMem m s) = memRead (srcByteAddr s (pos / 8)) s from
      readSource_sameSource hm (by omega)]

theorem peekBits_sameSource (n pos : Nat) : peekBits (withMem m s) pos n = peekBits s pos n := by
  induction n generalizing pos with
  | zero => rfl
  | succ n ih => simp only [peekBits, peekBit_sameSource hm hr, ih]

theorem bitsRead_sameSource (n pos : Nat) : bitsRead (withMem m s) pos n = bitsRead s pos n := by
  induction n generalizing pos with
  | zero => rfl
  | succ n ih => simp only [bitsRead, peekBit_sameSource hm hr, ih]

theorem fetchToken_sameSource : fetchToken (withMem m s) = fetchToken s := by
  simp only [fetchToken, peekBit_sameSource hm hr, peekBits_sameSource hm hr, withMem_poolFull, withMem_reader]

theorem readStop_sameSource (n : Nat) : readStop n (withMem m s) = withMem m (readStop n s) := by
  simp only [readStop, bitsRead_sameSource hm hr]
  rfl

theorem tokenStop_sameSource : tokenStop (withMem m s) = withMem m (tokenStop s) := by
  unfold tokenStop
  rw [withMem_reader, peekBit_sameSource hm hr, bitsRead_sameSource hm hr, withMem_poolFull]
  split
  · rfl
  · split <;> rfl

end

/-- A fetched element is executed, or its error ends the command where the reads before it stopped. -/
theorem execFetched_alike (f : Format) (bits : Except ErrCode Bits) {s stop stop' : State} {m : List Host.Cell}
    (hstop' : stop' = withMem m stop) {j a : Nat} (hstop : stop = stopAt j a s) :
    OutAlike s m (execFetched f bits stop s) (execFetched f bits stop' (withMem m s)) := by
  subst hstop' hstop
  unfold execFetched
  split
  · exact outAlike_kept rfl rfl (Nat.le_refl _)
  · split
    · exact outAlike_kept rfl rfl (Nat.le_refl _)
    · exact exec_alike _ s m

/-! ### The phases -/

theorem checkStep_alike (s : State) (m : List Host.Cell) :
    OutAlike s m (checkStep s) (checkStep (withMem m s)) := by
  unfold checkStep
  rw [withMem_cmd, withMem_latched]
  split
  · exact raise_alike _ s m
  · next i _ =>
    split
    · exact raise_alike _ s m
    · split
      · exact raise_alike _ s m
      · split
        · exact raise_alike _ s m
        · cases i <;> exact outAlike_kept rfl rfl (Nat.le_refl _)

theorem freqStep_alike {s : State} {m : List Host.Cell} (hm : SameSource s m) :
    OutAlike s m (freqStep s) (freqStep (withMem m s)) := by
  unfold freqStep
  rw [withMem_loop, withMem_latched]
  split
  · next hi =>
    rw [readSource_sameSource hm hi]
    split
    · exact raise_alike _ s m
    · exact outAlike_kept rfl rfl (Nat.le_refl _)
  · exact outAlike_kept rfl rfl (Nat.le_refl _)

theorem buildLeaves_blind : MemBlind buildLeaves :=
  ⟨buildLeaves_mem, fun s => by rw [buildLeaves_writer], fun s m => by
    unfold buildLeaves; dsimp only; rw [withMem_work]; split <;> rfl⟩

theorem buildStep_alike (s : State) (m : List Host.Cell) :
    OutAlike s m (buildStep s) (buildStep (withMem m s)) := by
  unfold buildStep
  rw [withMem_work]
  split
  · exact outAlike_blind buildLeaves_blind s m
  · split
    · exact outAlike_kept rfl rfl (Nat.le_refl _)
    · split <;> exact outAlike_kept rfl rfl (Nat.le_refl _)

theorem codesStep_alike (s : State) (m : List Host.Cell) :
    OutAlike s m (codesStep s) (codesStep (withMem m s)) := by
  unfold codesStep
  rw [withMem_work]
  split <;> exact outAlike_kept rfl rfl (Nat.le_refl _)

theorem sizeCheck_alike (tb need : Nat) (stack : List Frame) (s : State) (m : List Host.Cell) :
    OutAlike s m (sizeCheck tb need stack s) (sizeCheck tb need stack (withMem m s)) := by
  unfold sizeCheck
  rw [withMem_latched]
  split <;> exact outAlike_kept rfl rfl (Nat.le_refl _)

theorem sizeStep_alike (s : State) (m : List Host.Cell) :
    OutAlike s m (sizeStep s) (sizeStep (withMem m s)) := by
  unfold sizeStep
  rw [withMem_latched]
  split <;> exact sizeCheck_alike _ _ _ s m

theorem serTreeStep_alike (s : State) (m : List Host.Cell) :
    OutAlike s m (serTreeStep s) (serTreeStep (withMem m s)) := by
  unfold serTreeStep
  rw [withMem_serToken]
  split
  · exact exec_alike _ s m
  · exact outAlike_kept rfl rfl (Nat.le_refl _)

/-- Taking up the code of a source byte (R176). -/
theorem nextCode_blind (sym : Byte) :
    MemBlind fun s => loadCode sym { s with loop := { s.loop with idx := s.loop.idx + 1 } } :=
  ⟨fun _ => loadCode_mem _ sym, fun _ => by rw [loadCode_writer], fun s m => by
    unfold loadCode; dsimp only; rw [withMem_work]; split <;> rfl⟩

theorem encodeStep_alike {s : State} {m : List Host.Cell} (hm : SameSource s m) :
    OutAlike s m (encodeStep s) (encodeStep (withMem m s)) := by
  unfold encodeStep
  rw [withMem_loop, withMem_latched]
  split
  · exact exec_alike _ s m
  · split
    · next hi =>
      rw [readSource_sameSource hm hi]
      split
      · exact raise_alike _ s m
      · exact outAlike_blind (nextCode_blind _) s m
    · exact outAlike_kept rfl rfl (Nat.le_refl _)

theorem finalStep_alike (s : State) (m : List Host.Cell) :
    OutAlike s m (finalStep s) (finalStep (withMem m s)) :=
  orBusError_alike (finalize_alike s m) ⟨fun _ => rfl, fun _ => rfl, fun _ _ => rfl⟩

theorem emitSymbol_alike (s : State) (m : List Host.Cell) :
    OutAlike s m (emitSymbol s) (emitSymbol (withMem m s)) := by
  unfold emitSymbol
  rw [withMem_dstByteAddr, withMem_writer, withMem_work, withMem_loop]
  cases hf : busFault s.platform .write (dstByteAddr s s.writer.outpos) with
  | false =>
    rw [memWrite_ok _ hf, memWrite_ok (s := withMem m s) _ hf]
    refine outAlike_next rfl (memAlike_write m _ rfl ?_ ?_)
    · exact Nat.le_succ _
    · exact Nat.le_refl _
  | true =>
    rw [memWrite_fault _ hf, memWrite_fault (s := withMem m s) _ hf]
    refine outAlike_next rfl (memAlike_write m _ rfl ?_ ?_)
    · exact Nat.le_refl _
    · exact Nat.le_succ _

theorem decodeStep_alike {s : State} {m : List Host.Cell} (hm : SameSource s m)
    (hr : s.reader.rdlimit = 8 * s.latched.srcLen.toNat) :
    OutAlike s m (decodeStep s) (decodeStep (withMem m s)) := by
  unfold decodeStep
  rw [withMem_results, withMem_writer, withMem_work, withMem_loop]
  split
  · exact outAlike_kept rfl rfl (Nat.le_refl _)
  · split
    · exact emitSymbol_alike s m
    · rw [show fetchPayload (withMem m s) = fetchPayload s from peekBits_sameSource hm hr _ _]
      obtain ⟨j, hj, -⟩ := readStop_cases 1 s
      exact execFetched_alike _ _ (readStop_sameSource hm hr 1) hj

/-- A phase past CHECK reads source bytes only, and CHECK reads none. -/
theorem phaseStep_alike {p : Phase} {s : State} {m : List Host.Cell} (hm : p ≠ .check → SameSource s m)
    (hr : s.reader.rdlimit = 8 * s.latched.srcLen.toNat) :
    OutAlike s m (phaseStep p s) (phaseStep p (withMem m s)) := by
  cases p with
  | idle => exact outAlike_fault s m _
  | check => exact checkStep_alike s m
  | freq => exact freqStep_alike (hm nofun)
  | build => exact buildStep_alike s m
  | codes => exact codesStep_alike s m
  | size => exact sizeStep_alike s m
  | serTree => exact serTreeStep_alike s m
  | wrCount => exact exec_alike (.count s.latched.srcLen) s m
  | encode => exact encodeStep_alike (hm nofun)
  | final => exact finalStep_alike s m
  | deserTree =>
    simp only [phaseStep, deserTreeStep, fetchToken_sameSource (hm nofun) hr]
    obtain ⟨j, a, hj, -⟩ := tokenStop_cases s
    exact execFetched_alike _ _ (tokenStop_sameSource (hm nofun) hr) hj
  | rdCount =>
    simp only [phaseStep, rdCountStep, fetchCount, peekBits_sameSource (hm nofun) hr]
    obtain ⟨j, hj, -⟩ := readStop_cases 32 s
    exact execFetched_alike _ _ (readStop_sameSource (hm nofun) hr 32) hj
  | decode => exact decodeStep_alike (hm nofun) hr

/-- An engine move on a memory with the same source window. -/
theorem engineStep_alike {s : State} {m : List Host.Cell} (hi : MachineInv s)
    (hm : ∀ a, inSource s.latched a = true → readByte a m = readByte a s.mem) :
    OutAlike s m (engineStep s) (engineStep (withMem m s)) := by
  cases hb : s.status.busy with
  | false =>
    rw [engineStep_idle hb, engineStep_idle (s := withMem m s) hb]
    exact outAlike_kept rfl rfl (Nat.le_refl _)
  | true =>
    have hrun : Running s.status.phase s := ⟨hb, rfl⟩
    rw [engineStep_running hrun, engineStep_running (s := withMem m s) hrun]
    refine phaseStep_alike (fun hc => ?_) hi.readerIn.2
    exact sameSource_of_agree (windowsLegal_iff.1 (hi.windows hb hc)).1 hm

/-- It is the engine's turn whatever memory holds. -/
theorem engineTurn_withMem {s u : State} (h : EngineTurn s u) (m : List Host.Cell) :
    EngineTurn (withMem m s) (withMem m u) := by
  rcases h with ⟨h, rfl⟩ | ⟨rest, h, rfl⟩
  · exact .inl ⟨h, rfl⟩
  · exact .inr ⟨rest, h, rfl⟩

/-- Settles O54: the two moves go through the same cases with the same bytes read (`engineStep_alike`), so they write
the same bytes at the same addresses. -/
theorem readsStayInTheSourceWindow : Obligations.ReadsStayInTheSourceWindow := by
  unfold Obligations.ReadsStayInTheSourceWindow
  intro s u t m hi hu hm hs
  rw [step_engine hu] at hs
  have hstep : step (withMem m s) = engineStep (withMem m u) := step_engine (engineTurn_withMem hu m)
  rw [engineTurn_host hu] at hs hstep
  obtain ⟨m', hs', halike, hcompleted, houtside⟩ := engineStep_alike (machineInv_withHost hi u.host) hm t hs
  exact ⟨m', hstep.trans hs', halike, hcompleted, houtside⟩

end Sys2Proof.Machine

/-!
The encodings (30_encoding.md): for every format the decoder and the encoder are inverse to each other
(`decode_encode`, `decode_eq_encode`); a step executes the element it decodes; and COMPRESS writes the stream of its
tree and codes.
-/

/-! ## The decoder and the encoder (R81, R83, R86, R88) -/

namespace Sys2Proof.Machine

open Sys2Proof.Safety

/-- The first n bits are the number they were written from. -/
theorem splitBits_msbBits {n : Nat} (v : BitVec n) (rest : Bits) :
    splitBits n (msbBits v.toNat n ++ rest) = .ok (v.toNat, rest) := by
  have hlen : (msbBits v.toNat n).length = n := msbBits_length _ _
  have hval : natOfBits (msbBits v.toNat n) = v.toNat := by
    rw [natOfBits_msbBits, Nat.mod_eq_of_lt v.isLt]
  rw [splitBits, if_neg (by simp), List.take_left' hlen, List.drop_left' hlen, hval]

/-- A number taken from the first n bits has them as its own. -/
theorem eq_msbBits_of_splitBits {n v : Nat} {bs rest : Bits} (h : splitBits n bs = .ok (v, rest)) :
    bs = msbBits (BitVec.ofNat n v).toNat n ++ rest := by
  unfold splitBits at h
  split at h
  · exact nomatch h
  · next hlt =>
    cases h
    have hlen : (bs.take n).length = n := List.length_take_of_le (Nat.not_lt.1 hlt)
    have hval := natOfBits_lt (bs.take n)
    have hbits := msbBits_natOfBits (bs.take n)
    rw [hlen] at hval hbits
    rw [BitVec.toNat_ofNat, Nat.mod_eq_of_lt hval, hbits, List.take_append_drop]

/-- A command word laid out as bits decodes as the word does. -/
theorem decodeCmdBits_msbBits {w : Word} {i : Instr} (h : decodeCmd w = .ok i) (rest : Bits) :
    decodeCmdBits (msbBits w.toNat 32 ++ rest) = .ok (i, rest) := by
  simp only [decodeCmdBits, splitBits_msbBits, BitVec.ofNat_toNat, BitVec.setWidth_eq, h]

/-- Decoding, in its own format, the encoding of an instruction gives it back and leaves the bits after it. -/
theorem decode_encode (i : Instr) (rest : Bits) : decode i.format (encode i ++ rest) = .ok (i, rest) := by
  cases i with
  | compress => exact decodeCmdBits_msbBits (decodeCmd_compress.2 rfl) rest
  | decompress => exact decodeCmdBits_msbBits (decodeCmd_decompress.2 rfl) rest
  | tokenInternal => rfl
  | tokenLeaf sym =>
    simp only [Instr.format, encode, List.cons_append, decode, decodeToken, splitBits_msbBits, BitVec.ofNat_toNat,
      BitVec.setWidth_eq]
  | count n =>
    simp only [Instr.format, encode, decode, decodeCount, splitBits_msbBits, BitVec.ofNat_toNat, BitVec.setWidth_eq]
  | payloadLeft => rfl
  | payloadRight => rfl

/-- A word that decodes is a command, and the command's encoding. -/
theorem encode_of_decodeCmd {w : Word} {i : Instr} (h : decodeCmd w = .ok i) :
    i.format = .cmd ∧ msbBits w.toNat 32 = encode i := by
  rcases decodeCmd_cases w with ⟨rfl, hw⟩ | ⟨rfl, hw⟩ | ⟨_, _, e, hw⟩ <;> rw [hw] at h <;> cases h
  · exact ⟨rfl, rfl⟩
  · exact ⟨rfl, rfl⟩

/-- Bits that decode are the encoding of an instruction of the format asked for, and the rest. -/
theorem decode_eq_encode {f : Format} {bs rest : Bits} {i : Instr} (h : decode f bs = .ok (i, rest)) :
    i.format = f ∧ bs = encode i ++ rest := by
  cases f with
  | cmd =>
    simp only [decode, decodeCmdBits] at h
    split at h
    · exact nomatch h
    · next v r hv =>
      split at h
      · exact nomatch h
      · next j hj =>
        cases h
        obtain ⟨hformat, hword⟩ := encode_of_decodeCmd hj
        exact ⟨hformat, by rw [← hword]; exact eq_msbBits_of_splitBits hv⟩
  | treeToken =>
    match bs with
    | [] => exact nomatch h
    | false :: r => cases h; exact ⟨rfl, rfl⟩
    | true :: r =>
      simp only [decode, decodeToken] at h
      split at h
      · exact nomatch h
      · next v r' hv =>
        cases h
        exact ⟨rfl, congrArg (true :: ·) (eq_msbBits_of_splitBits hv)⟩
  | count32 =>
    simp only [decode, decodeCount] at h
    split at h
    · exact nomatch h
    · next v r hv =>
      cases h
      exact ⟨rfl, eq_msbBits_of_splitBits hv⟩
  | payloadBit =>
    match bs with
    | [] => exact nomatch h
    | false :: r => cases h; exact ⟨rfl, rfl⟩
    | true :: r => cases h; exact ⟨rfl, rfl⟩

theorem wellFormed_iff {f : Format} {i : Instr} : i.wellFormed f = true ↔ i.format = f := by
  simp [Instr.wellFormed]

/-- Settles O1: an instruction may stand only where its own format is read, and there `decode_encode` holds. -/
theorem decodeEncodeRoundTrip : Obligations.DecodeEncodeRoundTrip := by
  unfold Obligations.DecodeEncodeRoundTrip
  intro f i rest hwf
  rw [← wellFormed_iff.1 hwf]
  exact decode_encode i rest

/-- Settles O2, by `decode_eq_encode`. -/
theorem decodedBitsAreTheEncoding : Obligations.DecodedBitsAreTheEncoding := by
  unfold Obligations.DecodedBitsAreTheEncoding
  intro f bs i rest h
  obtain ⟨hformat, hbits⟩ := decode_eq_encode h
  exact ⟨wellFormed_iff.2 hformat, hbits⟩

/-- Settles O4: the legal words are encodings (`decode_encode`); the two reserved command words are looked up. -/
theorem sampleWordsDecode : Obligations.SampleWordsDecode := by
  unfold Obligations.SampleWordsDecode
  refine ⟨decodeCmd_compress.2 rfl, decodeCmd_decompress.2 rfl, by decide, by decide, ?_, ?_, ?_, ?_, ?_⟩
  · exact decode_encode (.tokenLeaf 0x41#8) [true]
  · exact decode_encode .tokenInternal [true]
  · exact decode_encode .payloadLeft [true]
  · exact decode_encode .payloadRight []
  · exact decode_encode (.count 10#32) []

/-! ## The command word in CHECK (R81, R212 (a)) -/

/-- Settles O3: `decodeCmd` gives the commands for their two words alone, and CHECK lets no other word pass
(`checkStep_cases`). -/
theorem commandWordsExact : Obligations.CommandWordsExact := by
  unfold Obligations.CommandWordsExact
  refine ⟨fun w => ⟨decodeCmd_compress, decodeCmd_decompress⟩, fun s u hu hr hc hd => ?_⟩
  rw [step_phase hu hr, phaseStep]
  rcases checkStep_cases u with h | ⟨_, hcmd, _⟩ | ⟨_, hcmd, _⟩
  · exact ⟨_, h, by rw [← hr.2]; rfl, rfl⟩
  · exact absurd hcmd hc
  · exact absurd hcmd hd

/-! ## A step executes what it decodes (R80, R155, R192, R194, R150, R175, R176) -/

theorem execFetched_decoded {f : Format} {bs r : Bits} {i : Instr} (h : decode f bs = .ok (i, r)) (stop s : State) :
    execFetched f (.ok bs) stop s = exec i s := by
  simp only [execFetched, h]

/-- A host write of a command word executes the instruction it is (R211). -/
theorem hostWriteCmd_decoded {w : Word} {i : Instr} (h : decodeCmd w = .ok i) (s : State) :
    hostWriteCmd w s = exec i s := by
  simp only [hostWriteCmd, h]

/-- Settles O5: the host's write of CMD is `hostWriteCmd`, a reading phase executes what it has fetched
(`execFetched_decoded`), and a writing phase executes its next element. -/
theorem stepRunsTheDecodedInstruction : Obligations.StepRunsTheDecodedInstruction := by
  unfold Obligations.StepRunsTheDecodedInstruction
  refine ⟨fun s w rest i hs hw => ?_, fun s u hu => ⟨?_, ?_, ?_, ?_, ?_, ?_⟩⟩
  · exact (step_host hs).trans ((hostMove_write (s := { s with host := rest }) w (by decide)).trans
      (hostWriteCmd_decoded hw _))
  · intro bs i r hr hf hd
    rw [step_phase hu hr, phaseStep, deserTreeStep, hf, execFetched_decoded hd]
  · intro bs i r hr hf hd
    rw [step_phase hu hr, phaseStep, rdCountStep, hf, execFetched_decoded hd]
  · intro bs i r hr hn hk hf hd
    rw [step_phase hu hr, phaseStep, decodeStep, if_neg (Nat.not_le.2 hn), hk, hf]
    exact execFetched_decoded hd _ _
  · intro i hr hi
    rw [step_phase hu hr, phaseStep, serTreeStep, hi]
  · intro hr
    rw [step_phase hu hr, phaseStep, wrCountStep]
  · intro b bs hr hc
    rw [step_phase hu hr, phaseStep, encodeStep, hc]

/-! ## COMPRESS (R83, R171, R173 to R177) -/

/-- Settles O58, by `compress_writes`: COMPRESS with no command running is a command start. -/
theorem compressWritesTheStream : Obligations.CompressWritesTheStream := by
  unfold Obligations.CompressWritesTheStream
  intro s0 s hidle hcmd hh hl hs
  obtain ⟨tree, code, hsize, hfollow, hwrites⟩ := compress_writes (exec_compress_idle hidle hcmd) hh hl hs
  exact ⟨tree, code, hsize, hfollow, hwrites _ _ rfl rfl⟩

end Sys2Proof.Machine

/-!
The bit stream (40_bitstream.md): a payload bit is appended, FINAL flushes the last byte, and which bit a read gives.
-/

/-! ## The payload bits in ENCODE (R102, R176) -/

namespace Sys2Proof.Machine

open Sys2Proof.Safety

/-- One round of `write_code`'s loop (R102) with room for its bit. -/
theorem emitPayload_appends (b : Bool) {s : State} (h : CanAppend s 1) :
    ∃ t, emitPayload b s = .next t
      ∧ t = { s with
          mem := t.mem, writer := t.writer, loop := { s.loop with codeRest := s.loop.codeRest.tail } }
      ∧ Appended s t [b] := by
  obtain ⟨u, hput, hframe, happ⟩ := putBit_appends b h
  refine ⟨{ u with loop := { u.loop with codeRest := u.loop.codeRest.tail } }, ?_, ?_, happ⟩
  · rw [emitPayload, hput, orBusError]
  · rw [hframe]

/-- Settles O38: in ENCODE both payload instructions are `emitPayload`, each of its bit. -/
theorem payloadBitsWritten : Obligations.PayloadBitsWritten := by
  unfold Obligations.PayloadBitsWritten
  intro s hr hc
  have hact := active_running hr
  have hleft : exec .payloadLeft s = emitPayload false s := by simp only [exec, execPayloadLeft, hact]
  have hright : exec .payloadRight s = emitPayload true s := by simp only [exec, execPayloadRight, hact]
  rw [hleft, hright]
  exact ⟨emitPayload_appends false hc, emitPayload_appends true hc⟩

/-! ## FINAL (R103, R177) -/

/-- FINAL ends the command without error, with the stream length `finalize` returns in OUT_LEN (R177). -/
theorem finalStep_ends {s t : State} (h : finalize s = .ok t) :
    finalStep s = .next { t with
      status := ⟨false, true, .noError, t.status.phase⟩
      results := { t.results with outLen := BitVec.ofNat 32 t.writer.outpos } } := by
  rw [finalStep, h, orBusError, raise, endCommand_eq (by decide)]

/-- A clean ACC, written at OUTPOS, makes the destination bytes the written bits and zero padding (R103). -/
theorem destBits_flushed {s t : State} (hl : t.latched = s.latched)
    (hp : passesTop s.latched.dstAddr s.latched.dstCap = false) (hlt : s.writer.outpos < s.latched.dstCap.toNat)
    (hbyte : readByte (dstByteAddr s s.writer.outpos).toNat t.mem = s.writer.acc)
    (hrest : ∀ a, a ≠ (dstByteAddr s s.writer.outpos).toNat → readByte a t.mem = readByte a s.mem)
    (hclean : AccClean s.writer) :
    destBits t (s.writer.outpos + 1) = writtenBits s ++ List.replicate (8 - s.writer.nacc.toNat) false := by
  have hold : destBits t s.writer.outpos = destBits s s.writer.outpos := destBits_congr hl fun j hj =>
    hrest _ (by rw [dstByteAddr_toNat hp hlt, dstByteAddr_toNat hp (hj.trans hlt)]; omega)
  have haddr : dstByteAddr t s.writer.outpos = dstByteAddr s s.writer.outpos := by rw [dstByteAddr, hl, dstByteAddr]
  rw [destBits_succ, hold, haddr, hbyte, accClean_bits hclean, writtenBits, List.append_assoc]

/-- Settles O41: `finalize` has nothing to write, or it writes ACC (`flushByte_ok`), whose unfilled bits pad the stream
(`destBits_flushed`). -/
theorem finalFlushes : Obligations.FinalFlushes := by
  unfold Obligations.FinalFlushes
  intro s u hu hr
  rw [step_phase hu hr, phaseStep]
  refine ⟨fun hn => ?_, fun hn hlt hok => ?_⟩
  · have hfin : finalize u = .ok u := if_pos hn
    exact ⟨_, finalStep_ends hfin, by rw [hr.2], rfl, rfl⟩
  · have hfin := (if_neg hn : finalize u = flushByte u).trans (flushByte_ok hlt hok)
    have hbyte := readByte_writeByte_self (dstByteAddr u u.writer.outpos).toNat u.writer.acc u.mem
    have hrest := fun a (ha : a ≠ (dstByteAddr u u.writer.outpos).toNat) =>
      readByte_writeByte_ne u.writer.acc u.mem ha
    exact ⟨_, finalStep_ends hfin, by rw [hr.2], rfl, hbyte, hrest,
      fun hclean hp => destBits_flushed rfl hp hlt hbyte hrest hclean⟩

/-! ## Which bit a read gives (R106, R65) -/

/-- Settles O42: of the three outcomes of a read (`peekBit_cases`), a bit before RDLIMIT in a readable byte has the
last. -/
theorem readBitOrder : Obligations.ReadBitOrder := by
  unfold Obligations.ReadBitOrder
  intro s k hk hok
  rcases peekBit_cases s k with ⟨hlimit, _⟩ | ⟨_, hfault, _⟩ | ⟨_, _, hbit⟩
  · exact absurd hk (Nat.not_lt.2 hlimit)
  · rw [hok] at hfault
    exact nomatch hfault
  · exact hbit

end Sys2Proof.Machine

/-!
The tree builder (41_tree_builder.md): FREQ counts the source; BUILD's two orders, that of the leaves and that of
`extract_min`, are one lexicographic order of (count, index); the leaves stand in it, and a merge joins its two least.
-/

/-! ## FREQ (R120) -/

namespace Sys2Proof.Machine

open Sys2Proof.Safety

/-- A step of FREQ that reads a source byte counts it. -/
theorem step_freq_byte {s u : State} {b : Byte} (hu : EngineTurn s u) (hr : Running .freq u)
    (hi : u.loop.idx < u.latched.srcLen.toNat) (hb : readSource u u.loop.idx = .ok b) :
    step s = .next { u with
      work := { u.work with freq := countSymbol b u.work.freq }, loop := { u.loop with idx := u.loop.idx + 1 } } := by
  rw [step_phase hu hr, phaseStep, freqStep, if_pos hi, hb]

/-- Settles O23: the byte's counter alone goes up (`freqAt_countSymbol`); past the last byte the step is `freqDone`. -/
theorem freqStepCountsOneByte : Obligations.FreqStepCountsOneByte := by
  unfold Obligations.FreqStepCountsOneByte
  intro s u hu hr
  refine ⟨fun b hi hb => ⟨_, step_freq_byte hu hr hi hb, ?_, fun c hc => ?_⟩, fun hi => ?_⟩
  · rw [freqAt_countSymbol, if_pos rfl]
  · rw [freqAt_countSymbol, if_neg hc]
  · rw [step_phase hu hr, phaseStep, freqStep, if_neg (Nat.not_lt.2 hi)]
    rfl

/-- Settles O24, by `freq_counts_source`, the induction over the source. -/
theorem freqCountsTheSource : Obligations.FreqCountsTheSource := by
  unfold Obligations.FreqCountsTheSource
  intro s hr hh hi hf hs
  exact freq_counts_source hr hh hi hf hs

/-! ## The order of (count, index) (R122, R126) -/

/-- The key of an entry of the frequency table (R122): its count, then its symbol, compared lexicographically. -/
def entryKey (e : Nat × Word) : ℕ ×ₗ ℕ := toLex (e.2.toNat, e.1)

/-- The key of a member of the working set (R126): its frequency, then its index. -/
def nodeKey (nodes : List (Nat × Node)) (n : Nat) : ℕ ×ₗ ℕ := entryKey (n, (nodeAt nodes n).freq)

theorem entryKey_lt_iff {a b : Nat × Word} :
    entryKey a < entryKey b ↔ a.2.toNat < b.2.toNat ∨ (a.2.toNat = b.2.toNat ∧ a.1 < b.1) :=
  Prod.Lex.toLex_lt_toLex

theorem entryBefore_iff {a b : Nat × Word} : entryBefore a b = true ↔ entryKey a < entryKey b := by
  simp [entryBefore, entryKey_lt_iff]

theorem keyBefore_iff {nodes : List (Nat × Node)} {a b : Nat} :
    keyBefore nodes a b = true ↔ nodeKey nodes a < nodeKey nodes b :=
  entryBefore_iff (a := (a, (nodeAt nodes a).freq)) (b := (b, (nodeAt nodes b).freq))

/-- Keys tell indices apart. -/
theorem entryKey_ne {a b : Nat × Word} (h : a.1 ≠ b.1) : entryKey a ≠ entryKey b := fun hk =>
  h (congrArg (fun k => (ofLex k).2) hk)

/-! ## `extract_min` (R126) -/

/-- No member has a smaller key than the one the scan ends with. -/
theorem minMember_le (nodes : List (Nat × Node)) (best : Nat) (l : List Nat) :
    ∀ x ∈ best :: l, nodeKey nodes (minMember nodes best l) ≤ nodeKey nodes x := by
  induction l generalizing best with
  | nil =>
    intro x hx
    rw [List.mem_singleton.1 hx]
    exact le_rfl
  | cons y rest ih =>
    rw [minMember]
    split
    · next hlt =>
      have hmin := ih y
      have hbest := (hmin y List.mem_cons_self).trans (keyBefore_iff.1 hlt).le
      exact List.forall_mem_cons.2 ⟨hbest, hmin⟩
    · next hge =>
      obtain ⟨hbest, hrest⟩ := List.forall_mem_cons.1 (ih best)
      have hy := hbest.trans (not_lt.1 fun h => hge (keyBefore_iff.2 h))
      exact List.forall_mem_cons.2 ⟨hbest, List.forall_mem_cons.2 ⟨hy, hrest⟩⟩

/-- `extract_min` removes what it returns, a member with the least key. -/
theorem extractMin_least {nodes : List (Nat × Node)} {w w' : List Nat} {m : Nat}
    (h : extractMin nodes w = some (m, w')) :
    m ∈ w ∧ w' = w.erase m ∧ ∀ x ∈ w, x ≠ m → nodeKey nodes m < nodeKey nodes x := by
  cases w with
  | nil => exact nomatch h
  | cons x rest =>
    cases h
    exact ⟨minMember_mem nodes x rest, rfl, fun y hy hne =>
      (minMember_le nodes x rest y hy).lt_of_ne (entryKey_ne hne.symm)⟩

theorem extractMin_eq_none_iff {nodes : List (Nat × Node)} {w : List Nat} : extractMin nodes w = none ↔ w = [] := by
  cases w with
  | nil => simp [extractMin_nil]
  | cons x rest => simp [extractMin]

/-- Settles O25, by `extractMin_least`. -/
theorem extractMinIsLeast : Obligations.ExtractMinIsLeast := by
  unfold Obligations.ExtractMinIsLeast
  intro nodes w
  refine ⟨extractMin_eq_none_iff, fun m w' h => ?_⟩
  obtain ⟨hmem, hrest, hleast⟩ := extractMin_least h
  exact ⟨hmem, hrest, fun x hx hne => entryKey_lt_iff.1 (hleast x hx hne)⟩

/-! ## The sorted entries (R121, R122) -/

theorem insertEntry_sorted {e : Nat × Word} {l : List (Nat × Word)}
    (h : l.Pairwise fun a b => entryKey a ≤ entryKey b) :
    (insertEntry e l).Pairwise fun a b => entryKey a ≤ entryKey b := by
  induction l with
  | nil => exact List.pairwise_singleton _ _
  | cons x rest ih =>
    obtain ⟨hx, hrest⟩ := List.pairwise_cons.1 h
    rw [insertEntry]
    split
    · next hlt =>
      have hex := (entryBefore_iff.1 hlt).le
      exact List.pairwise_cons.2 ⟨List.forall_mem_cons.2 ⟨hex, fun y hy => hex.trans (hx y hy)⟩, h⟩
    · next hge =>
      have hxe := not_lt.1 fun hlt => hge (entryBefore_iff.2 hlt)
      refine List.pairwise_cons.2 ⟨fun y hy => ?_, ih hrest⟩
      rcases List.mem_cons.1 ((insertEntry_perm e rest).mem_iff.1 hy) with rfl | hy
      · exact hxe
      · exact hx y hy

theorem sortEntries_sorted (freq : List (Nat × Word)) :
    (sortEntries freq).Pairwise fun a b => entryKey a ≤ entryKey b := by
  induction freq with
  | nil => exact List.Pairwise.nil
  | cons e rest ih => exact insertEntry_sorted ih

/-- Entries of distinct symbols are sorted strictly. -/
theorem sortEntries_strict {freq : List (Nat × Word)} (hw : storeWf 0#32 256 freq) :
    (sortEntries freq).Pairwise fun a b => entryKey a < entryKey b := by
  have hne : freq.Pairwise fun a b => entryKey a ≠ entryKey b :=
    (List.pairwise_map.1 hw.1).imp fun h => entryKey_ne h.ne
  have hne' := (sortEntries_perm freq).symm.pairwise hne fun h => h.symm
  exact (sortEntries_sorted freq).imp₂ (fun _ _ hle hne => hle.lt_of_ne hne) hne'

/-! ## The entries of the frequency table (R41, log 10) -/

/-- In a store with rising indices an entry is what its index holds. -/
theorem storeGet_of_mem {α : Type} (d : α) {l : List (Nat × α)} (hs : (l.map Prod.fst).Pairwise (· < ·))
    {e : Nat × α} (he : e ∈ l) : storeGet d e.1 l = e.2 := by
  induction l with
  | nil => exact nomatch he
  | cons x rest ih =>
    rw [List.map_cons, List.pairwise_cons] at hs
    obtain ⟨hx, hrest⟩ := hs
    rw [storeGet]
    rcases List.mem_cons.1 he with rfl | he
    · exact if_pos rfl
    · rw [if_neg (hx _ (List.mem_map_of_mem he)).ne', ih hrest he]

/-- An index that does not hold the default is listed. -/
theorem mem_of_storeGet_ne {α : Type} {d : α} {k : Nat} {l : List (Nat × α)} (h : storeGet d k l ≠ d) :
    (k, storeGet d k l) ∈ l := by
  induction l with
  | nil => exact absurd rfl h
  | cons x rest ih =>
    rw [storeGet] at h ⊢
    split
    · next hk =>
      rw [hk]
      exact List.mem_cons_self
    · next hk =>
      rw [if_neg hk] at h
      exact List.mem_cons_of_mem _ (ih h)

/-- An entry's index is its symbol. -/
theorem toNat_symbol {freq : List (Nat × Word)} {e : Nat × Word} (hw : storeWf 0#32 256 freq) (he : e ∈ freq) :
    (BitVec.ofNat 8 e.1).toNat = e.1 := by
  rw [BitVec.toNat_ofNat, Nat.mod_eq_of_lt (hw.2 e he).2]

theorem freqAt_of_mem {freq : List (Nat × Word)} {e : Nat × Word} (hw : storeWf 0#32 256 freq) (he : e ∈ freq) :
    freqAt freq (BitVec.ofNat 8 e.1) = e.2 := by
  rw [freqAt, toNat_symbol hw he]
  exact storeGet_of_mem _ hw.1 he

/-! ## BUILD's leaves (R122, R123, R125) -/

/-- The first step of BUILD makes the leaves. -/
theorem step_leaves {s u : State} (hu : EngineTurn s u) (hr : Running .build u) (h0 : u.work.nnodes = 0) :
    step s = .next (buildLeaves u) := by
  rw [step_phase hu hr, phaseStep, buildStep, if_pos h0]

/-- Leaf slot `j` holds the sorted entry `j` (R122). -/
theorem nodeAt_buildLeaves {u : State} {j : Nat} (hj : j < (sortEntries u.work.freq).length) :
    nodeAt (buildLeaves u).work.nodes j = { nodeAt u.work.nodes j with
      kind := .leaf
      sym := BitVec.ofNat 8 (sortEntries u.work.freq)[j].1
      freq := (sortEntries u.work.freq)[j].2 } := by
  have h := nodeAt_allocLeaves (sortEntries u.work.freq) 0 u.work.nodes j hj
  rwa [Nat.zero_add, ← buildLeaves_work_nodes] at h

theorem nodeAt_buildLeaves_ne {u : State} {i : Nat} (hi : (buildLeaves u).work.nnodes ≤ i) :
    nodeAt (buildLeaves u).work.nodes i = nodeAt u.work.nodes i := by
  rw [buildLeaves_work_nnodes] at hi
  rw [buildLeaves_work_nodes, nodeAt_allocLeaves_ne _ _ _ _ (.inr (by rwa [Nat.zero_add]))]

/-- A leaf has a counted symbol and its count (R121, R122). -/
theorem buildLeaves_leaf {u : State} (hw : storeWf 0#32 256 u.work.freq) {j : Nat}
    (hj : j < (buildLeaves u).work.nnodes) :
    (nodeAt (buildLeaves u).work.nodes j).kind = .leaf
      ∧ (nodeAt (buildLeaves u).work.nodes j).freq
          = freqAt u.work.freq (nodeAt (buildLeaves u).work.nodes j).sym
      ∧ (nodeAt (buildLeaves u).work.nodes j).freq ≠ 0#32 := by
  rw [buildLeaves_work_nnodes] at hj
  have he := (sortEntries_perm _).mem_iff.1 (List.getElem_mem hj)
  rw [nodeAt_buildLeaves hj]
  exact ⟨rfl, (freqAt_of_mem hw he).symm, (hw.2 _ he).1⟩

/-- The leaves ascend by (count, symbol) (R122). -/
theorem buildLeaves_ascending {u : State} (hw : storeWf 0#32 256 u.work.freq) {i j : Nat} (hij : i < j)
    (hj : j < (buildLeaves u).work.nnodes) :
    (nodeAt (buildLeaves u).work.nodes i).freq.toNat < (nodeAt (buildLeaves u).work.nodes j).freq.toNat
      ∨ ((nodeAt (buildLeaves u).work.nodes i).freq = (nodeAt (buildLeaves u).work.nodes j).freq
          ∧ (nodeAt (buildLeaves u).work.nodes i).sym.toNat < (nodeAt (buildLeaves u).work.nodes j).sym.toNat) := by
  rw [buildLeaves_work_nnodes] at hj
  have hi := hij.trans hj
  have hsym : ∀ k, (hk : k < (sortEntries u.work.freq).length) →
      (BitVec.ofNat 8 (sortEntries u.work.freq)[k].1).toNat = (sortEntries u.work.freq)[k].1 := fun k hk =>
    toNat_symbol hw ((sortEntries_perm _).mem_iff.1 (List.getElem_mem hk))
  rw [nodeAt_buildLeaves hi, nodeAt_buildLeaves hj]
  dsimp only
  rw [hsym i hi, hsym j hj, ← BitVec.toNat_inj]
  exact entryKey_lt_iff.1 (List.pairwise_iff_getElem.1 (sortEntries_strict hw) i j hi hj hij)

/-- Every counted symbol has a leaf (R121, R122). -/
theorem buildLeaves_complete {u : State} {sym : Byte} (h : freqAt u.work.freq sym ≠ 0#32) :
    ∃ j, j < (buildLeaves u).work.nnodes ∧ (nodeAt (buildLeaves u).work.nodes j).sym = sym := by
  have hmem := (sortEntries_perm _).mem_iff.2 (mem_of_storeGet_ne h)
  obtain ⟨j, hj, he⟩ := List.getElem_of_mem hmem
  refine ⟨j, by rwa [buildLeaves_work_nnodes], ?_⟩
  rw [nodeAt_buildLeaves hj, he]
  exact (BitVec.ofNat_toNat 8 sym).trans (BitVec.setWidth_eq sym)

/-- Several leaves form the working set (R125). -/
theorem buildLeaves_of_two {u : State} (h : 2 ≤ u.work.freq.length) :
    buildLeaves u = { u with
      work := { u.work with
        nodes := (buildLeaves u).work.nodes, nnodes := u.work.freq.length, wset := List.range u.work.freq.length }
      results := { u.results with leafCount := BitVec.ofNat 32 u.work.freq.length } } := by
  rw [buildLeaves_work_nodes]
  simp only [buildLeaves, sortEntries_length, if_pos h]

/-- Settles O26: the leaves are the entries sorted strictly (`buildLeaves_ascending`), all of them
(`buildLeaves_complete`), and two or more are the working set (`buildLeaves_of_two`). -/
theorem leavesInOrder : Obligations.LeavesInOrder := by
  unfold Obligations.LeavesInOrder
  intro s u hu hr h0 hw
  have hlen := sortEntries_length u.work.freq
  have hcount : (buildLeaves u).results.leafCount.toNat = u.work.freq.length := by
    rw [buildLeaves_results_leafCount, hlen, BitVec.toNat_ofNat]
    exact Nat.mod_eq_of_lt ((storeWf_length hw).trans_lt (by decide))
  exact ⟨_, step_leaves hu hr h0, (buildLeaves_work_nnodes u).trans hlen, hcount, fun _ => buildLeaves_leaf hw,
    fun _ _ => buildLeaves_ascending hw, fun _ => buildLeaves_complete, fun _ => nodeAt_buildLeaves_ne,
    buildLeaves_of_two⟩

/-- Settles O27: one entry alone is sorted, so its leaf is slot 0, and fewer than two leaves end BUILD. -/
theorem singleLeafTree : Obligations.SingleLeafTree := by
  unfold Obligations.SingleLeafTree
  intro s u sym c hu hr h0 hfreq
  have hsort : sortEntries u.work.freq = [(sym.toNat, c)] := by
    rw [hfreq]
    rfl
  have hleaf := nodeAt_buildLeaves (u := u) (j := 0) (by simp [hsort])
  refine ⟨_, step_leaves hu hr h0, ⟨by simp [hr.1], by simp [hsort]⟩, by simp [hsort], by simp [hsort],
    by simp [hsort], ?_⟩
  rw [hleaf]
  simp [hsort]

/-! ## A merge (R125, R127) -/

/-- A step of BUILD with two members or more merges the two it extracts. -/
theorem step_merge {s u : State} {a b : Nat} {w w' : List Nat} (hu : EngineTurn s u) (hr : Running .build u)
    (h0 : u.work.nnodes ≠ 0) (ha : extractMin u.work.nodes u.work.wset = some (a, w))
    (hb : extractMin u.work.nodes w = some (b, w')) : step s = .next (mergeNodes a b w' u) := by
  simp only [step_phase hu hr, phaseStep, buildStep, if_neg h0, ha, hb]

/-- A step of BUILD with one member ends BUILD. -/
theorem step_last_member {s u : State} {r : Nat} (hu : EngineTurn s u) (hr : Running .build u)
    (h0 : u.work.nnodes ≠ 0) (hw : u.work.wset = [r]) : step s = .next (buildDone r u) := by
  simp only [step_phase hu hr, phaseStep, buildStep, if_neg h0, hw, extractMin_single, extractMin_nil]

/-- Settles O28: the merge writes the next slot alone (`nodeAt_setNode_self`, `nodeAt_setNode_ne`). -/
theorem mergeStep : Obligations.MergeStep := by
  unfold Obligations.MergeStep
  intro s u hu hr h0
  refine ⟨fun a b w w' ha hb => ?_, fun r hw => ?_⟩
  · refine ⟨_, step_merge hu hr h0 ha hb, rfl, ?_⟩
    rw [mergeNodes_work_nodes, nodeAt_setNode_self]
    exact ⟨rfl, rfl, rfl, BitVec.toNat_add_of_lt, fun i hi => nodeAt_setNode_ne _ _ hi⟩
  · exact ⟨_, step_last_member hu hr h0 hw, ⟨hr.1, rfl⟩, rfl, rfl, rfl⟩

end Sys2Proof.Machine

/-!
The code table (42_code_table.md): the stepwise walk of CODES and the recursive walk give the same table
(`codes_walk`); the entries of that table are the paths to the leaves (`codeAt_assignCodes`).
-/

/-! ## The walk of CODES (R140) -/

namespace Sys2Proof.Machine

/-- Settles O29, by `codes_walk`, the induction over the tree: the run below an internal node is its own step, the walk
of its left subtree and that of its right one. -/
theorem codesWalkIsRecursiveWalk : Obligations.CodesWalkIsRecursiveWalk := by
  unfold Obligations.CodesWalkIsRecursiveWalk
  exact codes_walk

end Sys2Proof.Machine

/-!
The tree codec (43_tree_codec.md): what a token appends when it is written and what it allocates when it is read; the
walk of SER_TREE and DESER_TREE whole; and the measure by which every move of the engine leaves less work.
-/

/-! ## Tokens written (R151, R152) -/

namespace Sys2Proof.Machine

open Sys2Proof.Safety

/-- In SER_TREE a token is written as its encoding, and the walk goes on (R150 to R152). -/
theorem exec_token_serTree {s : State} {i : Instr} (hr : Running .serTree s) (hi : i.format = .treeToken) :
    exec i s = orBusError (putBits (encode i) s) fun t => .next (serNext t) := by
  have hact := active_running hr
  cases i with
  | tokenInternal => simp only [exec, execTokenInternal, hact, emitInternal_eq]
  | tokenLeaf sym => simp only [exec, execTokenLeaf, hact, emitLeaf_eq]
  | compress | decompress | count | payloadLeft | payloadRight => exact nomatch hi

/-- A token in SER_TREE with room for its bits. -/
theorem exec_token_appends {s : State} {i : Instr} (hr : Running .serTree s) (hi : i.format = .treeToken)
    (hc : CanAppend s (encode i).length) :
    ∃ t, exec i s = .next t
      ∧ t = { s with
          mem := t.mem, writer := t.writer
          work := { s.work with stack := walkOn s.work.nodes s.work.stack } }
      ∧ Appended s t (encode i) := by
  obtain ⟨m, w, hput, happ⟩ := putBits_written hc
  exact ⟨serNext { s with mem := m, writer := w }, by rw [exec_token_serTree hr hi, hput, orBusError], rfl, happ⟩

/-- Settles O35: a LEAF token's encoding has nine bits, and they are what is appended (`exec_token_appends`). -/
theorem tokenLeafWritten : Obligations.TokenLeafWritten := by
  unfold Obligations.TokenLeafWritten
  intro s sym hr hc
  exact exec_token_appends (i := .tokenLeaf sym) hr rfl hc

/-- Settles O36: an INTERNAL token's encoding is the bit 0 (`exec_token_appends`). -/
theorem tokenInternalWritten : Obligations.TokenInternalWritten := by
  unfold Obligations.TokenInternalWritten
  intro s hr hc
  exact exec_token_appends (i := .tokenInternal) hr rfl hc

/-- Settles O30, by `serTree_walk`, the induction over the tree; the length is `serialize_length`. -/
theorem serializerWritesTheTree : Obligations.SerializerWritesTheTree := by
  unfold Obligations.SerializerWritesTheTree
  intro tree s top rest hr hh h0 hs ht hc
  rw [← serialize_length] at hc
  obtain ⟨m, w, hrun, happ⟩ := serTree_walk tree s top rest hr hh h0 hs ht hc
  exact ⟨_, hrun, rfl, happ, serialize_length tree⟩

/-! ## Tokens read (R155 to R158) -/

/-- With a slot free a LEAF token is taken (R158). -/
theorem exec_tokenLeaf_deserTree {s : State} (sym : Byte) (hr : Running .deserTree s)
    (hn : s.work.nnodes < Config.nodePool) : exec (.tokenLeaf sym) s = .next (takeLeaf sym s) := by
  have hfree : ¬ poolFull s = true := by simpa [poolFull] using hn
  simp only [exec, execTokenLeaf, active_running hr, if_neg hfree]

/-- With a slot free an INTERNAL token is taken (R156). -/
theorem exec_tokenInternal_deserTree {s : State} (hr : Running .deserTree s)
    (hn : s.work.nnodes < Config.nodePool) : exec .tokenInternal s = .next (takeInternal s) := by
  have hfree : ¬ poolFull s = true := by simpa [poolFull] using hn
  simp only [exec, execTokenInternal, active_running hr, if_neg hfree]

/-- With no slot free a token's flag is consumed and the rest of the token is not read (R157). -/
theorem deserTreeStep_full {s : State} {flag : Bool} (hn : Config.nodePool ≤ s.work.nnodes)
    (hflag : peekBit s s.reader.rdpos = .ok flag) :
    deserTreeStep s = .next (endCommand .treeOverflow (s.advance 1)) := by
  have hfull : poolFull s = true := decide_eq_true hn
  simp only [deserTreeStep, fetchToken, tokenStop, hflag, if_pos hfull, execFetched, raise]

/-- Settles O32, by `deserTreeStep_full`. -/
theorem treeOverflow : Obligations.TreeOverflow := by
  unfold Obligations.TreeOverflow
  intro s u flag hu hr hn hflag
  rw [step_phase hu hr, phaseStep, deserTreeStep_full hn hflag, endCommand_eq (by decide), advance_status, hr.2]
  rfl

/-- Settles O44: `takeInternal` writes the next slot alone (`nodeAt_setNode_self`, `nodeAt_setNode_ne`). -/
theorem tokenInternalRead : Obligations.TokenInternalRead := by
  unfold Obligations.TokenInternalRead
  intro s hr hn
  refine ⟨takeInternal s, exec_tokenInternal_deserTree hr hn, rfl, ?_⟩
  rw [takeInternal_work_nodes, nodeAt_setNode_self]
  exact ⟨rfl, rfl, fun i hi => nodeAt_setNode_ne _ _ hi⟩

/-- A leaf that leaves a node awaiting its right child: the phase goes on (R156). -/
theorem takeLeaf_awaiting {s : State} {sym : Byte}
    (h : (attach s.work.nnodes s.work.stack (setLeaf s.work.nnodes sym 0#32 s.work.nodes)).2.2 = none) :
    takeLeaf sym s = { s with
      reader := { s.reader with rdpos := s.reader.rdpos + 9 }
      work := { s.work with
        nodes := (takeLeaf sym s).work.nodes, nnodes := s.work.nnodes + 1
        stack := (takeLeaf sym s).work.stack } } := by
  rw [takeLeaf_work_nodes, takeLeaf_work_stack]
  simp only [takeLeaf, h, State.advance]

/-- The tree's last leaf finds the root and ends the phase (R155). -/
theorem takeLeaf_last {s : State} {sym : Byte} {root : Nat}
    (h : (attach s.work.nnodes s.work.stack (setLeaf s.work.nnodes sym 0#32 s.work.nodes)).2.2 = some root) :
    takeLeaf sym s = { s with
      status := { s.status with phase := .rdCount }
      results := { s.results with
        leafCount := BitVec.ofNat 32 (countLeaves (takeLeaf sym s).work.nodes (s.work.nnodes + 1))
        treeBits := BitVec.ofNat 32 (s.reader.rdpos + 9) }
      reader := { s.reader with rdpos := s.reader.rdpos + 9 }
      work := { s.work with
        nodes := (takeLeaf sym s).work.nodes, nnodes := s.work.nnodes + 1, root := root
        stack := (takeLeaf sym s).work.stack } } := by
  rw [takeLeaf_work_nodes, takeLeaf_work_stack]
  simp only [takeLeaf, h, State.advance, deserDone, State.toPhase]

/-- Under no node that awaits its right child, attaching a subtree changes at most the node on top (R156). -/
theorem attach_nodes_ne {rest : List Frame} (hrest : ∀ f rest', rest = f :: rest' → f.mark = .left) (n : Nat)
    (nodes : List (Nat × Node)) {i : Nat} (hi : ∀ p rest', rest = ⟨p, .left⟩ :: rest' → i ≠ p) :
    nodeAt (attach n rest nodes).2.1 i = nodeAt nodes i := by
  cases rest with
  | nil => rfl
  | cons f rest' =>
    obtain ⟨p, m⟩ := f
    obtain rfl : m = .left := hrest _ _ rfl
    exact nodeAt_setNode_ne _ _ (hi p rest' rfl)

/-- Settles O43: `attach` finishes the nodes that await their right child (`attach_closed`) and then meets a node that
awaits its left one, which the last finished subtree becomes (`takeLeaf_awaiting`), or none (`takeLeaf_last`). -/
theorem tokenLeafRead : Obligations.TokenLeafRead := by
  unfold Obligations.TokenLeafRead
  intro s sym closed rest hr hn hst hclosed hrest hdown hbelow n finished top
  -- the slots on the stack are distinct, and none of them is the new leaf's
  have hnew : ∀ p ∈ s.work.stack.map Frame.node, p ≠ n := fun p hp => by
    obtain ⟨f, hf, rfl⟩ := List.mem_map.1 hp
    exact Nat.ne_of_lt (hbelow f hf)
  have hnodup := nodup_of_descending hdown
  rw [hst, List.map_append] at hnew hnodup
  obtain ⟨hdistinct, -, hdisjoint⟩ := List.nodup_append.1 hnodup
  obtain ⟨nodes', hatt, hright, hother⟩ :=
    attach_closed closed rest hclosed hdistinct n (setLeaf n sym 0#32 s.work.nodes)
  rw [← hst] at hatt
  have hnodes : (takeLeaf sym s).work.nodes = (attach top rest nodes').2.1 := by rw [takeLeaf_work_nodes, hatt]
  have hstack : (takeLeaf sym s).work.stack = (attach top rest nodes').1 := by rw [takeLeaf_work_stack, hatt]
  have hleaf : nodeAt (takeLeaf sym s).work.nodes n
      = { nodeAt s.work.nodes n with kind := .leaf, sym := sym, freq := 0#32 } := by
    rw [takeLeaf_work_nodes, attach_frame _ _ _ _ fun f hf => Nat.ne_of_gt (hbelow f hf), nodeAt_setLeaf, if_pos rfl]
  have hold : ∀ {p}, p ≠ n → nodeAt (setLeaf n sym 0#32 s.work.nodes) p = nodeAt s.work.nodes p := fun hp => by
    rw [nodeAt_setLeaf, if_neg hp]
  refine ⟨takeLeaf sym s, exec_tokenLeaf_deserTree sym hr hn, by rw [hleaf], by rw [hleaf], by rw [hleaf],
    fun i p c hp hc => ?_, fun i hi hic hir => ?_, fun p rest' hp => ?_, fun hnil => ?_⟩
  · have hmem := List.mem_of_getElem? hp
    rw [hnodes, attach_nodes_ne hrest, hright i p c hp hc, hold (hnew p (List.mem_append_left _ hmem))]
    rintro q rest' rfl
    exact hdisjoint p hmem q (by simp)
  · rw [hnodes, attach_nodes_ne hrest _ _ hir, hother i hic, hold hi]
  · subst hp
    refine ⟨?_, (takeLeaf_awaiting (by rw [hatt]; rfl)).trans (by rw [hstack]; rfl)⟩
    have hpc : ∀ f ∈ closed, p ≠ f.node := fun f hf he =>
      hdisjoint f.node (List.mem_map_of_mem hf) p (by simp) he.symm
    rw [hnodes, attach, nodeAt_setNode_self, hother p hpc, hold (hnew p (by simp))]
  · subst hnil
    exact (takeLeaf_last (by rw [hatt]; rfl)).trans (by rw [hstack]; rfl)

/-- Settles O31, by `deser_tree`; the length is `serialize_length`. -/
theorem deserializerReadsTheTree : Obligations.DeserializerReadsTheTree := by
  unfold Obligations.DeserializerReadsTheTree
  intro tree s hr hh hstack h0 hpos hsize hp
  rw [← serialize_length] at hp ⊢
  obtain ⟨nodes, hrun, hrep⟩ := deser_tree hr hh hstack h0 hpos hsize hp
  exact ⟨_, hrun, ⟨hr.1, rfl⟩, hrep, rfl, rfl, rfl, rfl, rfl, rfl, rfl, hh, rfl, rfl, rfl⟩

/-! ## The work left (R160, R197, R270) -/

/-! ### Walks -/

/-- Where a subtree is finished, what is still to be walked is what was pending. -/
theorem walkWork_nextSubtree (nodes : List (Nat × Node)) :
    ∀ rest : List Frame, walkWork nodes (nextSubtree nodes rest) = pendingWork nodes rest
  | [] => rfl
  | ⟨p, .left⟩ :: rest => by simp [nextSubtree, walkWork, pendingWork]
  | ⟨p, .right⟩ :: rest => by simp [nextSubtree, pendingWork, walkWork_nextSubtree nodes rest]

theorem walkOn_leaf {nodes : List (Nat × Node)} {f : Frame} (rest : List Frame)
    (hk : (nodeAt nodes f.node).kind = .leaf) : walkOn nodes (f :: rest) = nextSubtree nodes rest := by
  simp only [walkOn, hk]

theorem walkOn_internal {nodes : List (Nat × Node)} {f : Frame} (rest : List Frame)
    (hk : (nodeAt nodes f.node).kind = .internal) :
    walkOn nodes (f :: rest) = ⟨(nodeAt nodes f.node).left, .left⟩ :: ⟨f.node, .left⟩ :: rest := by
  simp only [walkOn, hk]

/-- Two children weigh less than their parent. -/
theorem three_pow_add_lt {a b n : Nat} (ha : a < n) (hb : b < n) : 3 ^ a + 3 ^ b < 3 ^ n := by
  obtain ⟨m, rfl⟩ : ∃ m, n = m + 1 := ⟨n - 1, by omega⟩
  have ha' : 3 ^ a ≤ 3 ^ m := Nat.pow_le_pow_right (by decide) (Nat.le_of_lt_succ ha)
  have hb' : 3 ^ b ≤ 3 ^ m := Nat.pow_le_pow_right (by decide) (Nat.le_of_lt_succ hb)
  have hpos : 0 < 3 ^ m := Nat.pow_pos (by decide)
  rw [Nat.pow_succ]
  omega

/-- A step of a walk leaves less to be walked: a leaf is gone, and an internal node is replaced by its two children. -/
theorem walkWork_walkOn_lt {nodes : List (Nat × Node)} {n : Nat} {stack : List Frame} (hc : ChildrenBelow nodes n)
    (hs : StackIn nodes n stack) (hne : stack ≠ []) : walkWork nodes (walkOn nodes stack) < walkWork nodes stack := by
  cases stack with
  | nil => exact absurd rfl hne
  | cons f rest =>
    cases hk : (nodeAt nodes f.node).kind with
    | leaf =>
      rw [walkOn_leaf rest hk, walkWork_nextSubtree, walkWork]
      exact Nat.lt_add_of_pos_left (Nat.pow_pos (Nat.succ_pos 2))
    | internal =>
      obtain ⟨hl, hr⟩ := hc f.node hs.1 hk
      have hlt := three_pow_add_lt hl hr
      rw [walkOn_internal rest hk]
      simp only [walkWork, pendingWork, if_true]
      omega

/-! ### The measure, phase by phase -/

theorem phaseWork_freq {s : State} (h : s.status.phase = .freq) :
    phaseWork s = (s.latched.srcLen.toNat - s.loop.idx, 0) := by simp only [phaseWork, h]

theorem phaseWork_build_leaves {s : State} (h : s.status.phase = .build) (h0 : s.work.nnodes = 0) :
    phaseWork s = (1, 0) := by simp only [phaseWork, h, if_pos h0]

theorem phaseWork_build_merge {s : State} (h : s.status.phase = .build) (h0 : s.work.nnodes ≠ 0) :
    phaseWork s = (0, s.work.wset.length) := by simp only [phaseWork, h, if_neg h0]

theorem phaseWork_codes {s : State} (h : s.status.phase = .codes) :
    phaseWork s = (walkWork s.work.nodes s.work.stack, 0) := by simp only [phaseWork, h]

theorem phaseWork_serTree_empty {s : State} (h : s.status.phase = .serTree) (h0 : s.latched.srcLen = 0#32) :
    phaseWork s = (if s.writer.wbits = 0 then 1 else 0, 0) := by simp only [phaseWork, h, if_pos h0]

theorem phaseWork_serTree_walk {s : State} (h : s.status.phase = .serTree) (h0 : s.latched.srcLen ≠ 0#32) :
    phaseWork s = (walkWork s.work.nodes s.work.stack, 0) := by simp only [phaseWork, h, if_neg h0]

theorem phaseWork_encode {s : State} (h : s.status.phase = .encode) :
    phaseWork s = (s.latched.srcLen.toNat - s.loop.idx, s.loop.codeRest.length) := by simp only [phaseWork, h]

theorem phaseWork_deserTree {s : State} (h : s.status.phase = .deserTree) :
    phaseWork s = (s.reader.rdlimit - s.reader.rdpos, 0) := by simp only [phaseWork, h]

theorem phaseWork_decode {s : State} (h : s.status.phase = .decode) :
    phaseWork s = ((s.results.symCount.toNat - s.writer.outpos) + (s.reader.rdlimit - s.reader.rdpos), 0) := by
  simp only [phaseWork, h]

/-- A move to a later phase leaves less work. -/
theorem lessWork_later {t u : State} {p q : Phase} (ht : t.status.phase = q) (hu : Running p u)
    (h : phaseRank q < phaseRank p) : LessWork t u :=
  .inr (.inl (by rw [ht, hu.2]; exact h))

/-- A move inside a phase that brings the first part of its work down. -/
theorem lessWork_first {t u : State} {p : Phase} {a b c d : Nat} (ht : t.status.phase = p) (hu : Running p u)
    (htw : phaseWork t = (a, b)) (huw : phaseWork u = (c, d)) (h : a < c) : LessWork t u :=
  .inr (.inr ⟨ht.trans hu.2.symm, .inl (by rw [htw, huw]; exact h)⟩)

/-- A move inside a phase that keeps the first part of its work and brings the second down. -/
theorem lessWork_second {t u : State} {p : Phase} {a b c : Nat} (ht : t.status.phase = p) (hu : Running p u)
    (htw : phaseWork t = (a, b)) (huw : phaseWork u = (a, c)) (h : b < c) : LessWork t u :=
  .inr (.inr ⟨ht.trans hu.2.symm, .inr (by rw [htw, huw]; exact ⟨rfl, h⟩)⟩)

/-! ### Every move leaves less work -/

/-- The leaves of BUILD: merges follow, or CODES after a single leaf (R122, R123). -/
theorem buildLeaves_lessWork {u : State} (hr : Running .build u) (h0 : u.work.nnodes = 0) :
    LessWork (buildLeaves u) u := by
  have hphase := buildLeaves_status_phase u
  by_cases hk : 2 ≤ (sortEntries u.work.freq).length
  · rw [if_pos hk, hr.2] at hphase
    have hn : (buildLeaves u).work.nnodes ≠ 0 := by
      rw [buildLeaves_work_nnodes]
      omega
    exact lessWork_first hphase hr (phaseWork_build_merge hphase hn) (phaseWork_build_leaves hr.2 h0) (by decide)
  · rw [if_neg hk] at hphase
    exact lessWork_later hphase hr (by decide)

/-- A merge takes two members out of the working set and puts one in (R125). -/
theorem mergeNodes_lessWork {u : State} (hr : Running .build u) (h0 : u.work.nnodes ≠ 0) {a b : Nat}
    (ha : a ∈ u.work.wset) (hb : b ∈ u.work.wset.erase a) :
    LessWork (mergeNodes a b ((u.work.wset.erase a).erase b) u) u := by
  refine lessWork_second hr.2 hr (phaseWork_build_merge hr.2 (Nat.succ_ne_zero _)) (phaseWork_build_merge hr.2 h0) ?_
  have hla := List.length_erase_of_mem ha
  have hlb := List.length_erase_of_mem hb
  have hpos := List.length_pos_of_mem hb
  rw [mergeNodes_work_wset, List.length_append, List.length_singleton]
  omega

/-- A token of SER_TREE takes a node off the walk, or is the empty source's only one (R150, R171). -/
theorem serNext_lessWork {u : State} (hr : Running .serTree u) (hi : TreeInv u) (ht : serToken u ≠ none)
    {m : List Host.Cell} {w : Writer} {d : Nat} (hw : u.writer.wbits < w.wbits) :
    LessWork (serNext { u with mem := m, writer := w, draws := d }) u := by
  by_cases h0 : u.latched.srcLen = 0#32
  · have hfirst : u.writer.wbits = 0 := by
      by_contra hne
      exact ht (by rw [serToken, if_pos h0, if_neg hne])
    refine lessWork_first hr.2 hr (phaseWork_serTree_empty hr.2 h0) (phaseWork_serTree_empty hr.2 h0) ?_
    rw [if_pos hfirst, serNext_writer, if_neg (show w.wbits ≠ 0 by omega)]
    decide
  · have hne : u.work.stack ≠ [] := fun hst => ht (by rw [serToken, if_neg h0, hst])
    exact lessWork_first hr.2 hr (phaseWork_serTree_walk hr.2 h0) (phaseWork_serTree_walk hr.2 h0)
      (walkWork_walkOn_lt (treeInv_slots hi (.inr (.inr (.inr hr)))).below (treeInv_walk hi (.inr hr)).walking hne)

/-- ENCODE takes up the next source byte (R176). -/
theorem loadCode_lessWork {u : State} (hr : Running .encode u) (hlt : u.loop.idx < u.latched.srcLen.toNat)
    (sym : Byte) : LessWork (loadCode sym { u with loop := { u.loop with idx := u.loop.idx + 1 } }) u := by
  have hphase : (loadCode sym { u with loop := { u.loop with idx := u.loop.idx + 1 } }).status.phase = .encode := by
    rw [loadCode_status, hr.2]
  refine lessWork_first hphase hr (phaseWork_encode hphase) (phaseWork_encode hr.2) ?_
  rw [loadCode_latched, loadCode_loop_idx]
  exact Nat.sub_succ_lt_self _ _ hlt

/-- A LEAF token consumes nine bits, and the last one ends the phase (R155, R158). -/
theorem takeLeaf_lessWork {u : State} (hr : Running .deserTree u) (hb : u.reader.rdpos + 9 ≤ u.reader.rdlimit)
    (sym : Byte) : LessWork (takeLeaf sym u) u := by
  have hphase := takeLeaf_status_phase u sym
  split at hphase
  · rw [hr.2] at hphase
    refine lessWork_first hphase hr (phaseWork_deserTree hphase) (phaseWork_deserTree hr.2) ?_
    rw [takeLeaf_reader_rdlimit, takeLeaf_reader_rdpos]
    omega
  · exact lessWork_later hphase hr (by decide)

/-- Every move of the engine leaves less work. -/
theorem engineMove_lessWork {u t : State} (h : EngineMove u t) (hi : TreeInv u) : LessWork t u := by
  cases h
  -- the command has ended
  case checkBad | freqError | sizeOverflow | serError | countError | encodeBitError | encodeReadError | finalDone
      | finalError | deserError | countReadError | countTooLarge | decodeDone | decodeWriteError | decodeReadError =>
    exact .inl rfl
  -- a later phase
  case checkCompress hr _ _ | checkDecompress hr _ _ | buildEmpty hr _ _ | buildLast hr _ _ _ | codesDone hr _
      | sizeOk hr _ _ _ | serDone hr _ | encodeDone hr _ _ | countRead hr _ _ _ =>
    exact lessWork_later rfl hr (by simp [phaseRank])
  case freqDone hr _ => exact lessWork_later (freqDone_status_phase u) hr (by split <;> decide)
  case countWritten hr _ _ _ _ _ => exact lessWork_later (afterCount_status_phase _) hr (by split <;> decide)
  -- further on in the same phase
  case freqByte hr hlt =>
    exact lessWork_first hr.2 hr (phaseWork_freq hr.2) (phaseWork_freq hr.2) (Nat.sub_succ_lt_self _ _ hlt)
  case buildLeaves hr h0 => exact buildLeaves_lessWork hr h0
  case buildMerge hr h0 _ _ ha hb _ _ => exact mergeNodes_lessWork hr h0 ha hb
  case codesVisit hr top rest hst =>
    refine lessWork_first hr.2 hr (phaseWork_codes hr.2) (phaseWork_codes hr.2) ?_
    rw [visitCode_work_nodes, visitCode_work_stack, ← hst]
    exact walkWork_walkOn_lt (treeInv_slots hi (.inr (.inl hr))).below (treeInv_walk hi (.inl hr)).walking
      (by simp [hst])
  case serToken hr ht _ _ _ _ hw _ => exact serNext_lessWork hr hi ht hw
  case encodeBit hr _ bs hc _ _ _ _ _ =>
    refine lessWork_second hr.2 hr (phaseWork_encode hr.2) (phaseWork_encode hr.2) ?_
    rw [hc]
    exact Nat.lt_succ_self bs.length
  case encodeByte hr _ hlt => exact loadCode_lessWork hr hlt _
  case deserInternal hr hb _ =>
    exact lessWork_first hr.2 hr (phaseWork_deserTree hr.2) (phaseWork_deserTree hr.2) (Nat.sub_succ_lt_self _ _ hb)
  case deserLeaf hr hb _ sym => exact takeLeaf_lessWork hr hb sym
  case decodeSymbol hr hlt _ =>
    exact lessWork_first hr.2 hr (phaseWork_decode hr.2) (phaseWork_decode hr.2)
      (Nat.add_lt_add_right (Nat.sub_succ_lt_self _ _ hlt) _)
  case decodeBit hr _ hb _ _ =>
    exact lessWork_first hr.2 hr (phaseWork_decode hr.2) (phaseWork_decode hr.2)
      (Nat.add_lt_add_left (Nat.sub_succ_lt_self _ _ hb) _)

/-- Settles O56, by `engineMove_lessWork`; the host's queue, all in which `s` and `u` differ, is not the invariant's. -/
theorem engineMovesLeaveLessWork : Obligations.EngineMovesLeaveLessWork := by
  unfold Obligations.EngineMovesLeaveLessWork
  intro s u t _ hi hu hb hs
  refine engineMove_lessWork (engineMove_of_step hu hb hs) ?_
  rw [engineTurn_host hu]
  exact treeInv_withHost hi u.host

end Sys2Proof.Machine

/-!
The encoder (44_encoder.md): the phases in their order, SIZE's length of the stream and its capacity check, the count
written, the stream of an empty source, ENCODE between two codes, and the elements of a stream out of their phases.
-/

/-! ## The phases after FREQ and WR_COUNT (R170, R172) -/

namespace Sys2Proof.Machine

open Sys2Proof.Safety

/-- FREQ goes on, or SIZE follows for an empty source and BUILD for any other (R120, R171). -/
theorem freqStep_phase {u t : State} (hr : Running .freq u) (hs : freqStep u = .next t)
    (hb : t.status.busy = true) :
    t.status.phase = .freq ∨ t.status.phase = if u.latched.srcLen = 0#32 then .size else .build := by
  rcases freqStep_cases u with ⟨_, _, h⟩ | ⟨_, _, h⟩ | ⟨_, h⟩ <;> rw [h] at hs <;> cases hs
  · exact nomatch hb
  · exact .inl hr.2
  · exact .inr (freqDone_status_phase u)

/-- FINAL follows WR_COUNT for an empty source, ENCODE for any other (R172). -/
theorem wrCountStep_phase {u t : State} (hr : Running .wrCount u) (hs : wrCountStep u = .next t)
    (hb : t.status.busy = true) :
    t.status.phase = if u.latched.srcLen = 0#32 then .final else .encode := by
  obtain ⟨v, hf, ⟨_, h⟩ | h⟩ := wrCountStep_cases hr <;> rw [h] at hs <;> cases hs
  · rw [afterCount_status_phase, hf.latched]
  · exact nomatch hb

/-- Settles O19: any move keeps the order (`engineMove_status`); where L decides, `freqStep_phase` and
`wrCountStep_phase` say how. -/
theorem phaseOrder : Obligations.PhaseOrder := by
  unfold Obligations.PhaseOrder
  intro s u t hu hb hs hb'
  have hfreq (hp : u.status.phase = .freq) :=
    freqStep_phase ⟨hb, hp⟩ ((step_phase hu ⟨hb, hp⟩).symm.trans hs) hb'
  have hcount (hp : u.status.phase = .wrCount) :=
    wrCountStep_phase ⟨hb, hp⟩ ((step_phase hu ⟨hb, hp⟩).symm.trans hs) hb'
  refine ⟨?_, fun hp ht h0 => ?_, fun hp ht => ?_, fun hp ht h0 => ?_, fun hp ht => ?_⟩
  · rcases engineMove_status (engineMove_of_step hu hb hs) with ⟨e, h⟩ | ⟨p, h, hp⟩
    · rw [h] at hb'
      exact nomatch hb'
    · rw [h]
      exact hp
  · simpa [ht, h0] using hfreq hp
  · simpa [ht] using hfreq hp
  · simpa [ht, h0] using hcount hp
  · simpa [ht] using hcount hp

/-! ## SIZE (R171, R173) -/

/-- A stream that does not fit ends the command, the bytes it needs in OUT_LEN. -/
theorem sizeCheck_overflows {tb need : Nat} {u : State} (stack : List Frame) (hr : Running .size u)
    (h : u.latched.dstCap.toNat < need) :
    sizeCheck tb need stack u = .next { u with
      status := ⟨false, true, .outputOverflow, .size⟩
      results := { u.results with
        treeBits := BitVec.ofNat 32 tb, outLen := BitVec.ofNat 32 (min need 0xFFFFFFFF) } } := by
  rw [sizeCheck, if_pos h, raise, ← hr.2]
  rfl

/-- SER_TREE follows where the stream fits. -/
theorem sizeCheck_fits {tb need : Nat} {u : State} (stack : List Frame) (h : need ≤ u.latched.dstCap.toNat) :
    sizeCheck tb need stack u = .next { u with
      status := { u.status with phase := .serTree }
      results := { u.results with treeBits := BitVec.ofNat 32 tb }
      work := { u.work with stack := stack } } :=
  if_neg (Nat.not_lt.2 h)

/-- SIZE for an empty source: the marker has 9 bits, its stream 6 bytes (R87, R171). -/
theorem step_size_empty {s u : State} (hu : EngineTurn s u) (hr : Running .size u) (h0 : u.latched.srcLen = 0#32) :
    step s = sizeCheck 9 6 [] u := by
  rw [step_phase hu hr, phaseStep, sizeStep, if_pos h0]

/-- SIZE for a source that is not empty (R173). -/
theorem step_size_source {s u : State} (hu : EngineTurn s u) (hr : Running .size u)
    (h0 : u.latched.srcLen ≠ 0#32) :
    step s = sizeCheck (treeBitsOf u.results.leafCount.toNat) (streamBytes u) (walkFrom u.work.root) u := by
  rw [step_phase hu hr, phaseStep, sizeStep, if_neg h0]

/-- SIZE's recursion is the sum of R173 over the entries of CODE, whose indices are symbols. -/
theorem payloadBits_eq_sum (freq : List (Nat × Word)) {code : List (Nat × CodeEntry)} (hc : ∀ e ∈ code, e.1 < 256) :
    payloadBits freq code = (code.map fun e =>
      if e.2.valid then (freqAt freq (BitVec.ofNat 8 e.1)).toNat * e.2.bits.length else 0).sum := by
  induction code with
  | nil => rfl
  | cons e rest ih =>
    have hsym : (BitVec.ofNat 8 e.1).toNat = e.1 := by
      rw [BitVec.toNat_ofNat, Nat.mod_eq_of_lt (hc e List.mem_cons_self)]
    rw [payloadBits, List.map_cons, List.sum_cons, freqAt, hsym, ih fun x hx => hc x (List.mem_cons_of_mem e hx)]

/-- Settles O33: `need` is the model's `streamBytes` (`payloadBits_eq_sum`), and the check has its two outcomes. -/
theorem sizePhase : Obligations.SizePhase := by
  unfold Obligations.SizePhase
  intro s u hu hr h0 tb p need hw
  have hneed : streamBytes u = need := by
    rw [streamBytes, payloadBits_eq_sum _ fun e he => (hw.2 e he).2]
    rfl
  rw [step_size_source hu hr h0, hneed]
  exact ⟨sizeCheck_overflows _ hr, sizeCheck_fits _⟩

/-! ## The count in WR_COUNT (R175) -/

/-- For an empty source FINAL follows the count. -/
theorem afterCount_empty {s : State} (h0 : s.latched.srcLen = 0#32) : afterCount s = s.toPhase .final :=
  if_pos h0

/-- For any other source ENCODE follows, from its first byte. -/
theorem afterCount_source {s : State} (h0 : s.latched.srcLen ≠ 0#32) :
    afterCount s = State.toPhase .encode { s with loop := ⟨0, [], s.loop.cursor⟩ } :=
  if_neg h0

/-- Settles O37: the count's bits are appended (`putBits_written`), and the phase after them depends on L. -/
theorem countWritten : Obligations.CountWritten := by
  unfold Obligations.CountWritten
  intro s n hr hc
  obtain ⟨m, w, hput, happ⟩ := putBits_written (s := s) (bs := msbBits n.toNat 32) (by rwa [msbBits_length])
  let u : State := { s with mem := m, writer := w }
  refine ⟨afterCount u, ?_, ?_, fun h0 => ?_, fun h0 => ?_⟩
  · simp only [exec, execCount, active_running hr, writeBits, hput, orBusError]
    rfl
  · have hkept := appended_nil (afterCount_latched u) (afterCount_mem u) (afterCount_writer u)
    simpa only [List.append_nil] using appended_trans (s := s) (t := u) rfl happ hkept
  · rw [afterCount_empty (s := u) h0]
    rfl
  · rw [afterCount_source (s := u) h0]
    rfl

/-! ## The stream of an empty source (R87, R171) -/

/-- Byte `j` of a list of bytes is the bits 8·j to 8·j + 7 of their stream (R65). -/
theorem bitsOfBytes_byte : ∀ (l : List Byte) {j : Nat} (hj : j < l.length),
    ((bitsOfBytes l).drop (8 * j)).take 8 = msbBits l[j].toNat 8
  | b :: l, 0, _ => by
    rw [bitsOfBytes, Nat.mul_zero, List.drop_zero, List.take_left' (msbBits_length _ _), List.getElem_cons_zero]
  | b :: l, j + 1, hj => by
    rw [bitsOfBytes, Nat.mul_succ, Nat.add_comm, ← List.drop_drop, List.drop_left' (msbBits_length _ _),
      List.getElem_cons_succ]
    exact bitsOfBytes_byte l (Nat.lt_of_succ_lt_succ hj)

/-- The destination bytes whose stream bits are those of `l` are `l`. -/
theorem readByte_of_destBits {t : State} {l : List Byte} (h : destBits t l.length = bitsOfBytes l) {j : Nat}
    (hj : j < l.length) : readByte (dstByteAddr t j).toNat t.mem = l[j] :=
  msbBits_byte_inj (by rw [← destBits_byte t hj, h, bitsOfBytes_byte l hj])

/-- An engine move that leaves the command running keeps the unfilled bits of ACC 0 (R100). -/
theorem accClean_step {s t : State} (hh : s.host = []) (hb : s.status.busy = true) (hs : step s = .next t)
    (hb' : t.status.busy = true) (hcl : AccClean s.writer) : AccClean t.writer :=
  accClean_engineMove (engineMove_of_step (engineTurn_self hh) hb hs) hcl hb'

/-- From SER_TREE an empty source's stream, the marker and a count of 0, is appended in three steps (R171). -/
theorem empty_stream_appended {s : State} (hr : Running .serTree s) (hh : s.host = [])
    (h0 : s.latched.srcLen = 0#32) (hw : s.writer = ⟨0#8, 0#3, 0, 0⟩) (hc : CanAppend s 41) :
    ∃ m w, run 3 s = .next (State.toPhase .final (serNext { s with mem := m, writer := w })) ∧ AccClean w
      ∧ Appended s { s with mem := m, writer := w } ((FullTree.leaf 0#8).stream []) := by
  have hmarker : serToken s = some (.tokenLeaf 0#8) := by simp [serToken, h0, hw]
  obtain ⟨m, w, hstep₁, happ₁⟩ :=
    step_serToken hh hr hmarker (canAppend_left (n := 32) hc : CanAppend s (encode (.tokenLeaf 0#8)).length)
  let u : State := serNext { s with mem := m, writer := w }
  have hdone : serToken u = none := by
    obtain ⟨-, hbits, -⟩ := happ₁
    have hwbits : u.writer.wbits = 9 := by
      rw [hw] at hbits
      exact hbits
    simp [serToken, show u.latched.srcLen = 0#32 from h0, hwbits]
  have hstep₂ : step u = .next (u.toPhase .wrCount) := step_serTree_done hh hr hdone
  have hclean₁ : AccClean u.writer := accClean_step hh hr.1 hstep₁ hr.1 (by rw [hw]; exact accClean_zero _ _ _)
  obtain ⟨m', w', hstep₃, happ₂⟩ :=
    step_wrCount (s := u.toPhase .wrCount) hh ⟨hr.1, rfl⟩ (canAppend_written (n := 32) happ₁ hc :)
  replace hstep₃ := hstep₃.trans (congrArg Host.Outcome.next (afterCount_empty h0))
  refine ⟨m', w', ?_, accClean_step (s := u.toPhase .wrCount) hh hr.1 hstep₃ hr.1 hclean₁, ?_⟩
  · rw [run_succ _ hstep₁, run_succ _ hstep₂, run_one, hstep₃]
    rfl
  · have hcount : msbBits (u.toPhase .wrCount).latched.srcLen.toNat 32 = msbBits 0 32 := by
      rw [show (u.toPhase .wrCount).latched.srcLen = 0#32 from h0]
      rfl
    rw [hcount] at happ₂
    exact (appended_written happ₁ happ₂ :)

/-- The six bytes R171 gives for an empty source. -/
def emptyStreamBytes : List Byte :=
  0x80#8 :: List.replicate 5 0x00#8

/-- They are the stream of the marker and a count of 0, padded (R83, R87). -/
theorem bitsOfBytes_emptyStreamBytes :
    bitsOfBytes emptyStreamBytes = (FullTree.leaf 0#8).stream [] ++ List.replicate 7 false := by decide

/-- A writer that holds nothing has written nothing. -/
theorem writtenBits_fresh {s : State} (hw : s.writer = ⟨0#8, 0#3, 0, 0⟩) : writtenBits s = [] := by
  rw [writtenBits, hw]
  rfl

/-- From SER_TREE an empty source's command ends in four steps, its six bytes written (R171, R177). -/
theorem empty_stream_written {s : State} (hr : Running .serTree s) (hh : s.host = [])
    (h0 : s.latched.srcLen = 0#32) (hw : s.writer = ⟨0#8, 0#3, 0, 0⟩) (hcap : 6 ≤ s.latched.dstCap.toNat)
    (hp : passesTop s.latched.dstAddr s.latched.dstCap = false) (hok : DestWritable s 6) :
    ∃ t, run 4 s = .next t ∧ t.status = ⟨false, true, .noError, .final⟩
      ∧ t.results = { s.results with outLen := 6#32 }
      ∧ (∀ j, (hj : j < 6) → readByte (dstByteAddr s j).toNat t.mem = emptyStreamBytes[j])
      ∧ ∀ a, (∀ j, j < 6 → a ≠ (dstByteAddr s j).toNat) → readByte a t.mem = readByte a s.mem := by
  have hbytes : s.writer.outpos + bytesCompleted s 41 = 5 := by
    rw [bytesCompleted, hw]
    rfl
  have hroom : CanAppend s 41 := by
    rw [CanAppend, hbytes]
    exact ⟨hp, Nat.le_of_succ_le hcap, fun j _ hj => hok j (Nat.lt_succ_of_lt hj)⟩
  obtain ⟨m, w, hrun, hclean, hbits, -, hout, hmem⟩ := empty_stream_appended hr hh h0 hw hroom
  let u : State := State.toPhase .final (serNext { s with mem := m, writer := w })
  rw [writtenBits_fresh hw, List.nil_append] at hbits
  have hstream : writtenBits u = (FullTree.leaf 0#8).stream [] := hbits
  obtain ⟨t, hfinal, hstatus, hres, hlat, hdest, hmem'⟩ :=
    step_final (s := u) (n := 6) hh ⟨hr.1, rfl⟩ hclean hp (by rw [hstream]; rfl) hcap hok
  rw [hstream] at hdest
  have haddr (j : Nat) : dstByteAddr t j = dstByteAddr s j := by
    rw [dstByteAddr, hlat]
    rfl
  refine ⟨t, by rw [run_add 1 hrun, run_one, hfinal], hstatus, hres, fun j hj => ?_, fun a ha => ?_⟩
  · rw [← haddr]
    exact readByte_of_destBits (hdest.trans bitsOfBytes_emptyStreamBytes.symm) hj
  · rw [hmem' a ha]
    exact hmem a fun j _ hj => ha j (Nat.lt_succ_of_lt (lt_of_lt_of_eq hj (hout.trans hbytes)))

/-- Settles O34: SIZE's check decides (`step_size_empty`), and where the stream fits it is written
(`empty_stream_written`). -/
theorem emptySourceStream : Obligations.EmptySourceStream := by
  unfold Obligations.EmptySourceStream
  intro s hr hh h0 hw
  have hsize := step_size_empty (engineTurn_self hh) hr h0
  refine ⟨fun hlt => hsize.trans (sizeCheck_overflows [] hr hlt), fun hcap hp hok => ?_⟩
  let u : State := { s with
    status := { s.status with phase := .serTree }
    results := { s.results with treeBits := 9#32 }
    work := { s.work with stack := [] } }
  have hstep : step s = .next u := hsize.trans (sizeCheck_fits [] hcap)
  obtain ⟨t, hrun, hstatus, hres, hbyte, hmem⟩ := empty_stream_written (s := u) ⟨hr.1, rfl⟩ hh h0 hw hcap hp hok
  refine ⟨t, (run_succ 4 hstep).trans hrun, hstatus, hres, hbyte 0 (Nat.succ_pos 5), fun j h1 hj => ?_, hmem⟩
  obtain ⟨i, rfl⟩ := Nat.exists_eq_add_of_le' h1
  exact (hbyte _ hj).trans (List.getElem_replicate _)

/-! ## ENCODE between two codes (R176) -/

/-- A valid entry's code is taken up whole. -/
theorem loadCode_valid {sym : Byte} {s : State} (h : (codeAt s.work.code sym).valid = true) :
    loadCode sym s = { s with loop := { s.loop with codeRest := (codeAt s.work.code sym).bits } } :=
  if_pos h

/-- Settles O40: with no bit of a code left ENCODE reads the next source byte (`loadCode_valid`), or it has none. -/
theorem encodeTakesUpTheNextCode : Obligations.EncodeTakesUpTheNextCode := by
  unfold Obligations.EncodeTakesUpTheNextCode
  intro s u hu hr hc
  rw [step_phase hu hr, phaseStep, encodeStep, hc]
  refine ⟨fun b hlt hb hv => ?_, fun hle => if_neg (Nat.not_lt.2 hle)⟩
  simp only [if_pos hlt, hb]
  exact congrArg Host.Outcome.next (loadCode_valid hv)

/-! ## Elements out of their phases (R172, R191; log 14) -/

theorem active_eq_some_iff {p : Phase} {s : State} : s.active = some p ↔ Running p s := by
  simp [State.active, Running]

theorem exec_token_refused {s : State} {i : Instr} (hi : i.format = .treeToken) (hw : ¬Running .serTree s)
    (hr : ¬Running .deserTree s) : exec i s = .refused .elementOutOfPhase := by
  rw [← active_eq_some_iff] at hw hr
  cases i with
  | tokenInternal =>
    rw [exec, execTokenInternal]
    split <;> [exact absurd ‹_› hw; exact absurd ‹_› hr; rfl]
  | tokenLeaf sym =>
    rw [exec, execTokenLeaf]
    split <;> [exact absurd ‹_› hw; exact absurd ‹_› hr; rfl]
  | compress | decompress | count | payloadLeft | payloadRight => exact nomatch hi

theorem exec_count_refused {s : State} (n : Word) (hw : ¬Running .wrCount s) (hr : ¬Running .rdCount s) :
    exec (.count n) s = .refused .elementOutOfPhase := by
  rw [← active_eq_some_iff] at hw hr
  rw [exec, execCount]
  split <;> [exact absurd ‹_› hw; exact absurd ‹_› hr; rfl]

theorem exec_payload_refused {s : State} {i : Instr} (hi : i.format = .payloadBit) (hw : ¬Running .encode s)
    (hr : ¬Running .decode s) : exec i s = .refused .elementOutOfPhase := by
  rw [← active_eq_some_iff] at hw hr
  cases i with
  | payloadLeft =>
    rw [exec, execPayloadLeft]
    split <;> [exact absurd ‹_› hw; exact absurd ‹_› hr; rfl]
  | payloadRight =>
    rw [exec, execPayloadRight]
    split <;> [exact absurd ‹_› hw; exact absurd ‹_› hr; rfl]
  | compress | decompress | tokenInternal | tokenLeaf | count => exact nomatch hi

/-- Settles O47, format by format; with BUSY = 0 no phase runs. -/
theorem elementsOutOfPhaseRefused : Obligations.ElementsOutOfPhaseRefused := by
  unfold Obligations.ElementsOutOfPhaseRefused
  intro s
  refine ⟨fun hb i hi => ?_, fun hw hr => ⟨exec_token_refused rfl hw hr, fun _ => exec_token_refused rfl hw hr⟩,
    fun hw hr n => exec_count_refused n hw hr,
    fun hw hr => ⟨exec_payload_refused rfl hw hr, exec_payload_refused rfl hw hr⟩⟩
  have hidle (p : Phase) : ¬Running p s := fun h => Bool.false_ne_true (hb.symm.trans h.1)
  cases i with
  | compress | decompress => exact absurd rfl hi
  | tokenInternal | tokenLeaf => exact exec_token_refused rfl (hidle _) (hidle _)
  | count n => exact exec_count_refused n (hidle _) (hidle _)
  | payloadLeft | payloadRight => exact exec_payload_refused rfl (hidle _) (hidle _)

end Sys2Proof.Machine

/-!
The decoder (45_decoder.md): what the count and a payload bit do when they are read, the code of one symbol, the end of
DECODE, and DECOMPRESS whole.
-/

namespace Sys2Proof.Machine

open Sys2Proof.Safety

/-! ## Whole DECOMPRESS (R190 to R198) -/

/-- Settles O59, by `decompress_decodes`: DECOMPRESS with no command running is a command start. -/
theorem decompressDecodesTheStream : Obligations.DecompressDecodesTheStream := by
  unfold Obligations.DecompressDecodesTheStream
  intro s0 s tree paths syms pad hidle hcmd hh hl hs hw hsize hfollow hcap hsrc
  exact decompress_decodes (exec_decompress_idle hidle hcmd) hh hl hs hw hsize hfollow hcap hsrc

/-! ## DECODE (R194 to R196) -/

/-- Settles O48, by `decode_code`: the path's bits lead down to the leaf (`decode_path`, the induction over the tree), and
one more step writes its symbol. -/
theorem decodeFollowsACode : Obligations.DecodeFollowsACode := by
  unfold Obligations.DecodeFollowsACode
  intro tree path sym s hr hh ho hroot htree hfollow hpeek hok
  exact decode_code hr hh ho hroot htree hfollow hpeek hok

/-- Settles O46: in DECODE the payload element of a bit is the walk step to that bit's child
(`exec_payload_decode`). -/
theorem payloadBitsWalk : Obligations.PayloadBitsWalk := by
  unfold Obligations.PayloadBitsWalk
  intro s hr
  exact ⟨exec_payload_decode false hr, exec_payload_decode true hr⟩

/-- With all symbols written DECODE ends the command, and OUT_LEN = OUTPOS is their number (R194, R235). -/
theorem decodeStep_done {s : State} (ho : s.writer.outpos = s.results.symCount.toNat) :
    decodeStep s = .next { s with
      status := ⟨false, true, .noError, s.status.phase⟩
      results := { s.results with outLen := s.results.symCount } } := by
  rw [decodeStep, if_pos (Nat.le_of_eq ho.symm), raise, endCommand_eq (by decide), ho, BitVec.ofNat_toNat,
    BitVec.setWidth_eq]

/-- Settles O49, by `decodeStep_done`. -/
theorem decodeEnds : Obligations.DecodeEnds := by
  unfold Obligations.DecodeEnds
  intro s u hu hr ho
  rw [step_phase hu hr, phaseStep, decodeStep_done ho, hr.2]

/-! ## RD_COUNT (R192, R193) -/

/-- In RD_COUNT the count is stored, and the capacity check decides how the command goes on. -/
theorem exec_count_rdCount {s : State} (n : Word) (hr : Running .rdCount s) :
    exec (.count n) s = checkCapacity n (takeCount n s) := by
  simp only [exec, execCount, active_running hr]

/-- Settles O45: the capacity check passes up to N = DST_CAP (R193), and its overflow keeps the OUT_LEN it has just
written (R235). -/
theorem countRead : Obligations.CountRead := by
  unfold Obligations.CountRead
  intro s n hr
  rw [exec_count_rdCount n hr, checkCapacity, takeCount_latched]
  refine ⟨fun hfits => if_neg (Nat.not_lt.2 hfits), fun hover => ?_⟩
  rw [if_pos hover, raise, ← hr.2]
  rfl

end Sys2Proof.Machine

/-!
The host interface (46_host_interface.md): the command start, host writes of the registers, what CHECK refuses, and that
an engine turn always has a next state.
-/

/-! ## Host writes of the registers (R210) -/

namespace Sys2Proof.Machine

open Sys2Proof.Safety

/-- A write of a register of the block, as a step. -/
theorem step_write {s : State} {k : Nat} {v : Word} {rest : List HostMove} (hk : k < 16)
    (hs : s.host = .write (regAddr s.platform k) 4 v :: rest) :
    step s = hostWrite (regAt k) v { s with host := rest } :=
  (step_host hs).trans (hostMove_write (s := { s with host := rest }) v hk)

/-- With BUSY = 1 a host write reaches no register but IRQ_EN (R213, R214, R215, R37). -/
theorem hostWrite_busy {r : Reg} {s : State} (v : Word) (hb : s.status.busy = true) (hr : r ≠ .irqEn) :
    hostWrite r v s = .next s := by
  cases r with
  | cmd => exact (hostWriteCmd_eq v s).trans (congrArg _ (commandWrite_busy v hb))
  | status | srcAddr | srcLen | dstAddr | dstCap => exact congrArg _ (if_pos hb)
  | irqEn => exact absurd rfl hr
  | outLen | symCount | leafCount | treeBits | id | reserved => rfl

/-- With BUSY = 0 a host write of CMD starts a command, whatever the word (R211). -/
theorem hostWrite_cmd_idle {s : State} (v : Word) (hb : s.status.busy = false) :
    hostWrite .cmd v s = .next (startCommand v s) :=
  (hostWriteCmd_eq v s).trans (congrArg _ (commandWrite_idle v hb))

/-- The read-only and the reserved offsets ignore every write (R214, R39). -/
theorem hostWrite_readOnly {k : Nat} (v : Word) (s : State) (h : 6 ≤ k ∧ k ≤ 9 ∨ 11 ≤ k) :
    hostWrite (regAt k) v s = .next s := by
  rcases show (k = 6 ∨ k = 7 ∨ k = 8 ∨ k = 9 ∨ k = 11) ∨ 12 ≤ k by omega with hk | hk
  · rcases hk with rfl | rfl | rfl | rfl | rfl <;> rfl
  · rw [regAt_reserved hk]
    rfl

/-- Settles O6: with BUSY = 0 the two instructions and the host's write of CMD are `startCommand`, whose fields the
statement writes out; with BUSY = 1 they do nothing (`commandWrite_busy`, `hostWrite_busy`). -/
theorem commandStart : Obligations.CommandStart := by
  unfold Obligations.CommandStart
  intro started s
  refine ⟨fun hb => ⟨?_, ?_, fun w => rfl, fun w rest hs => ?_⟩, fun hb => ⟨?_, ?_, fun w rest hs => ?_⟩⟩
  · exact congrArg _ (commandWrite_idle _ hb)
  · exact congrArg _ (commandWrite_idle _ hb)
  · exact (step_write (by decide) hs).trans (hostWrite_cmd_idle (s := { s with host := rest }) w hb)
  · exact congrArg _ (commandWrite_busy _ hb)
  · exact congrArg _ (commandWrite_busy _ hb)
  · exact (step_write (by decide) hs).trans (hostWrite_busy (s := { s with host := rest }) w hb (by decide))

/-- Settles O7, register by register (`step_write`): the window registers ask BUSY, the read-only and reserved offsets
drop the word (`hostWrite_readOnly`). -/
theorem registerWrites : Obligations.RegisterWrites := by
  unfold Obligations.RegisterWrites
  intro s k v rest hk hs u
  rw [step_write hk hs]
  refine ⟨fun hb => ?_, fun hb hwin => hostWrite_busy (s := u) v hb ?_, hostWrite_readOnly v u, ?_⟩
  · have hidle : ¬u.status.busy = true := Bool.eq_false_iff.1 hb
    refine ⟨?_, ?_, ?_, ?_⟩ <;> rintro rfl <;> exact congrArg _ (if_neg hidle)
  · rcases hwin with rfl | rfl | rfl | rfl <;> decide
  · rintro rfl
    rfl

/-- Settles O8: bit 1 of the word decides, and with BUSY = 1 nothing happens (`hostWrite_busy`). -/
theorem statusWriteClearsDone : Obligations.StatusWriteClearsDone := by
  unfold Obligations.StatusWriteClearsDone
  intro s v rest hs
  rw [step_write (by decide) hs]
  refine ⟨fun hb hv => ?_, fun hb hv => ?_, fun hb => hostWrite_busy (s := { s with host := rest }) v hb (by decide)⟩
  · exact congrArg _ ((if_neg (Bool.eq_false_iff.1 hb)).trans (if_pos hv))
  · exact congrArg _ ((if_neg (Bool.eq_false_iff.1 hb)).trans (if_neg (Bool.eq_false_iff.1 hv)))

/-! ## CHECK (R212) -/

/-- Clauses (b), (c) and (d) of R212, in addresses. -/
theorem windowsLegal_eq_false_iff {w : Windows} : windowsLegal w = false ↔
    2 ^ 32 < w.srcAddr.toNat + w.srcLen.toNat
      ∨ 2 ^ 32 < w.dstAddr.toNat + w.dstCap.toNat
      ∨ (0 < w.srcLen.toNat ∧ 0 < w.dstCap.toNat ∧ w.srcAddr.toNat < w.dstAddr.toNat + w.dstCap.toNat
          ∧ w.dstAddr.toNat < w.srcAddr.toNat + w.srcLen.toNat) := by
  simp only [windowsLegal, Bool.and_eq_false_iff, Bool.not_eq_false', or_assoc, passesTop, overlap, Bool.and_eq_true,
    decide_eq_true_eq, and_assoc, Config.addressSpace]

/-- CHECK refuses an illegal command word, and windows that are not legal. -/
theorem checkStep_refuses {s : State}
    (h : (s.cmd ≠ 0x00000001#32 ∧ s.cmd ≠ 0x00000002#32) ∨ windowsLegal s.latched = false) :
    checkStep s = .next (endCommand .invalidArgument s) := by
  rcases checkStep_cases s with hs | ⟨hl, hc, -⟩ | ⟨hl, hc, -⟩
  · exact hs
  all_goals simp [hl, hc] at h

/-- A command word in legal windows passes CHECK. -/
theorem checkStep_passes {s : State} {i : Instr} (hl : windowsLegal s.latched = true)
    (hc : decodeCmd s.cmd = .ok i) : checkStep s = .next (startPhases i s) := by
  obtain ⟨hsrc, hdst, hover⟩ := windowsLegal_iff.1 hl
  simp [checkStep, hc, hsrc, hdst, hover]

/-- Settles O18: CHECK refuses by the word or by the windows (`checkStep_refuses`), whose clauses are
`windowsLegal_eq_false_iff`, and passes everything else (`checkStep_passes`). -/
theorem checkPhase : Obligations.CheckPhase := by
  unfold Obligations.CheckPhase
  intro s u hu hr w bad
  have hbad : bad ↔ (u.cmd ≠ 0x00000001#32 ∧ u.cmd ≠ 0x00000002#32) ∨ windowsLegal w = false :=
    or_congr_right windowsLegal_eq_false_iff.symm
  have hlegal (h : ¬bad) : windowsLegal w = true := eq_true_of_ne_false fun hw => h (hbad.2 (.inr hw))
  rw [step_phase hu hr, phaseStep]
  refine ⟨fun h => ?_, fun h hc => checkStep_passes (hlegal h) (decodeCmd_compress.2 hc),
    fun h hc => checkStep_passes (hlegal h) (decodeCmd_decompress.2 hc)⟩
  rw [checkStep_refuses (hbad.1 h), endCommand_eq (by decide), hr.2]

/-! ## The engine always moves (R210, R235, R236) -/

/-- Settles O55: a running command has a phase (`MachineInv.busyPhase`), and every phase has a move
(`phaseStep_moves`). -/
theorem engineAlwaysMoves : Obligations.EngineAlwaysMoves := by
  unfold Obligations.EngineAlwaysMoves
  intro s u hi hu
  cases hb : u.status.busy with
  | false => exact ⟨u, (step_engine hu).trans (engineStep_idle hb)⟩
  | true =>
    have hr : Running u.status.phase u := ⟨hb, rfl⟩
    have hphase : u.status.phase ≠ .idle := by
      rw [engineTurn_status hu] at hb ⊢
      exact hi.busyPhase hb
    obtain ⟨t, ht, -⟩ := phaseStep_moves hr hphase
    exact ⟨t, (step_phase hu hr).trans ht⟩

end Sys2Proof.Machine

/-!
Command ends and reset (60_exceptions.md, 70_reset_and_hazards.md): a running command ends, what its end writes and in
which phase, the level of `irq`, and what reset and the host's memory accesses do.
-/

/-! ## A running command ends (R270) -/

namespace Sys2Proof.Machine

open Sys2Proof.Safety

/-- The work left, in one well-founded order: the phases to come, then the two parts inside the phase. -/
def workLeft (s : State) : ℕ ×ₗ ℕ ×ₗ ℕ :=
  toLex (phaseRank s.status.phase, toLex (phaseWork s))

/-- Less work is smaller in that order, for a command that still runs. -/
theorem workLeft_lt {t s : State} (h : LessWork t s) (hb : t.status.busy = true) : workLeft t < workLeft s := by
  rcases h with h | h | ⟨hphase, h⟩
  · exact nomatch h.symm.trans hb
  · exact Prod.Lex.toLex_lt_toLex.2 (.inl h)
  · exact Prod.Lex.toLex_lt_toLex.2 (.inr ⟨congrArg phaseRank hphase, Prod.Lex.toLex_lt_toLex.2 h⟩)

/-- The engine leaves the host's queue alone (log 2). -/
theorem engineMove_host {u t : State} (h : EngineMove u t) : t.host = u.host := by
  cases h <;> simp

/-- A command that has stopped running has ended: DONE is set (R24, R25). -/
theorem engineMove_done {u t : State} (h : EngineMove u t) (hu : u.status.busy = true) (ht : t.status.busy = false) :
    t.status.done = true := by
  rcases engineMove_status h with ⟨e, hs⟩ | ⟨p, hs, -⟩
  · rw [hs]
  · rw [hs] at ht
    exact nomatch hu.symm.trans ht

/-- Settles O57, by induction on the work left: the engine always moves (`engineAlwaysMoves`), a move ends the command
or leaves less work (`engineMove_lessWork`), and the invariants carry on (`stepKeepsInv`, `stepKeepsTreeInv`). -/
theorem everyCommandEnds : Obligations.EveryCommandEnds := by
  unfold Obligations.EveryCommandEnds
  intro s hm hi hh hb
  induction hw : workLeft s using WellFoundedLT.induction generalizing s with
  | ind w ih =>
    subst hw
    obtain ⟨t, hs⟩ := engineAlwaysMoves s s hm (engineTurn_self hh)
    have hmove : EngineMove s t := engineMove_of_step (engineTurn_self hh) hb hs
    cases hbt : t.status.busy with
    | false => exact ⟨1, t, (run_one s).trans hs, hbt, engineMove_done hmove hb hbt⟩
    | true =>
      have hless : workLeft t < workLeft s := workLeft_lt (engineMove_lessWork hmove hi) hbt
      obtain ⟨k, v, hrun, hend⟩ := ih (workLeft t) hless t (stepKeepsInv s t hm hs) (stepKeepsTreeInv s t hm hi hs)
        ((engineMove_host hmove).trans hh) hbt rfl
      exact ⟨k + 1, v, (run_succ k hs).trans hrun, hend⟩

/-! ## The command end (R230, R235) -/

/-- The one way a command ends (R235): `end_command` of a code that its phase raises (R230), after a move that has
reached nothing but results, tables, memory, bit writer and bit reader, and no memory where the code is
OUTPUT_OVERFLOW. -/
theorem engineMove_ends {u t : State} (h : EngineMove u t) (hb : t.status.busy = false) :
    ∃ e v, t = endCommand e v ∧ codeRaisedIn e u.status.phase = true
      ∧ v = { u with
          results := v.results, work := v.work, mem := v.mem
          writer := v.writer, reader := v.reader, draws := v.draws }
      ∧ (e = .outputOverflow → v.mem = u.mem) := by
  cases h
  case checkBad hr | freqError hr | serError hr _ _ _ _ | countError hr _ _ _ _ | encodeBitError hr _ _ _ _
      | encodeReadError hr | finalDone hr _ _ _ _ | finalError hr _ _ _ _ | decodeDone hr _
      | decodeWriteError hr _ _ _ =>
    exact ⟨_, _, rfl, by rw [hr.2]; rfl, rfl, nofun⟩
  case sizeOverflow hr _ _ _ | countTooLarge hr _ _ _ => exact ⟨_, _, rfl, by rw [hr.2]; rfl, rfl, fun _ => rfl⟩
  case deserError hr e he j a _ =>
    refine ⟨_, _, rfl, ?_, rfl, fun _ => rfl⟩
    rw [hr.2]
    rcases he with (rfl | rfl) | rfl <;> rfl
  case countReadError hr e he j _ | decodeReadError hr e he j _ =>
    refine ⟨_, _, rfl, ?_, rfl, fun _ => rfl⟩
    rw [hr.2]
    rcases he with rfl | rfl <;> rfl
  all_goals
    rename Running _ u => hr
    simp [hr.1] at hb

/-- Settles O20: every end is `endCommand` (`engineMove_ends`). -/
theorem commandEnd : Obligations.CommandEnd := by
  unfold Obligations.CommandEnd
  intro s u t hu hb hs ht
  obtain ⟨e, v, rfl, -, hv, hmem⟩ := engineMove_ends (engineMove_of_step hu hb hs) ht
  refine ⟨rfl, ?_, fun he => if_neg he, hmem, ?_, ?_, ?_⟩ <;> rw [hv] <;> rfl

/-- Settles O21: the code of an end is one its phase raises (`engineMove_ends`). -/
theorem errorCodesByPhase : Obligations.ErrorCodesByPhase := by
  unfold Obligations.ErrorCodesByPhase
  intro s u t hu hb hs ht
  obtain ⟨e, v, rfl, hcode, -⟩ := engineMove_ends (engineMove_of_step hu hb hs) ht
  exact hcode

/-- Settles O17: with BUSY = 0 the engine's step is the state itself (`engineStep_idle`). -/
theorem idleEngineChangesNothing : Obligations.IdleEngineChangesNothing := by
  unfold Obligations.IdleEngineChangesNothing
  exact fun s u hu hb => (step_engine hu).trans (engineStep_idle hb)

/-! ## Reset (R260, R261) -/

/-- A reset of the platform, as a step. -/
theorem step_reset {s : State} {rest : List HostMove} (hs : s.host = .reset :: rest) :
    step s = .next (resetBlock { s with host := rest }) :=
  step_host hs

/-- One more byte of the destination window becomes free, unless it is a source byte or there is no such address. -/
theorem freeDest_succ (w : Windows) (draw n : Nat) (m : List Host.Cell) :
    freeDest w draw (n + 1) m
      = if w.dstAddr.toNat + n < Config.addressSpace ∧ inSource w (w.dstAddr.toNat + n) = false then
          writeByte (w.dstAddr.toNat + n) (Config.freeByte (draw + n)) (freeDest w draw n m)
        else freeDest w draw n m := rfl

/-- Freeing the first `n` bytes of the destination window keeps a source byte, and every byte that is none of them. -/
theorem readByte_freeDest_kept {w : Windows} {a n : Nat} (draw : Nat) (m : List Host.Cell)
    (h : inSource w a = true ∨ ∀ j, j < n → a ≠ w.dstAddr.toNat + j) :
    readByte a (freeDest w draw n m) = readByte a m := by
  induction n with
  | zero => rfl
  | succ n ih =>
    have hrest := ih (h.imp_right fun hne j hj => hne j (Nat.lt_succ_of_lt hj))
    rw [freeDest_succ]
    split
    · next hfree =>
      have hne : a ≠ w.dstAddr.toNat + n := by
        rcases h with hsrc | hne
        · rintro rfl
          exact nomatch hsrc.symm.trans hfree.2
        · exact hne n (Nat.lt_succ_self n)
      exact (readByte_writeByte_ne _ _ hne).trans hrest
    · exact hrest

/-- Byte `j` of the destination window, an address that is no source byte's, gets the value of draw `draw + j`. -/
theorem readByte_freeDest_free {w : Windows} {j n : Nat} (draw : Nat) (m : List Host.Cell) (hj : j < n)
    (ha : w.dstAddr.toNat + j < Config.addressSpace) (hsrc : inSource w (w.dstAddr.toNat + j) = false) :
    readByte (w.dstAddr.toNat + j) (freeDest w draw n m) = Config.freeByte (draw + j) := by
  induction n with
  | zero => exact absurd hj (Nat.not_lt_zero j)
  | succ n ih =>
    rw [freeDest_succ]
    rcases Nat.lt_succ_iff_lt_or_eq.1 hj with hlt | rfl
    · split
      · exact (readByte_writeByte_ne _ _ (by omega)).trans (ih hlt)
      · exact ih hlt
    · rw [if_pos ⟨ha, hsrc⟩, readByte_writeByte_self]

/-- With BUSY = 0 reset leaves memory as it is (R261). -/
theorem resetBlock_mem_idle {s : State} (hb : s.status.busy = false) : (resetBlock s).mem = s.mem := by
  simp [resetBlock, hb, freeDest]

/-- With BUSY = 1 reset frees the destination window (R261). -/
theorem resetBlock_mem_busy {s : State} (hb : s.status.busy = true) :
    (resetBlock s).mem = freeDest s.latched s.draws s.latched.dstCap.toNat s.mem := by
  simp [resetBlock, hb]

/-- A byte outside the destination window is none of its bytes. -/
theorem ne_of_not_inDest {w : Windows} {a : Nat} (h : inDest w a = false) (j : Nat) (hj : j < w.dstCap.toNat) :
    a ≠ w.dstAddr.toNat + j := by
  simp only [inDest, Bool.and_eq_false_iff, decide_eq_false_iff_not] at h
  omega

/-- Reset keeps the source window and every byte outside the destination window (R261). -/
theorem readByte_resetBlock_kept {s : State} {a : Nat}
    (h : inSource s.latched a = true ∨ inDest s.latched a = false) :
    readByte a (resetBlock s).mem = readByte a s.mem := by
  cases hb : s.status.busy with
  | false => rw [resetBlock_mem_idle hb]
  | true =>
    rw [resetBlock_mem_busy hb]
    exact readByte_freeDest_kept _ _ (h.imp_right ne_of_not_inDest)

/-- Settles O15: the registers are those of State.reset, and memory is freed in the destination window of a running
command only (`readByte_resetBlock_kept`, `readByte_freeDest_free`). -/
theorem resetReturnsTheBlock : Obligations.ResetReturnsTheBlock := by
  unfold Obligations.ResetReturnsTheBlock
  intro s rest hs
  let u : State := { s with host := rest }
  refine ⟨resetBlock u, step_reset hs, rfl, rfl, rfl, rfl, rfl, rfl, rfl, rfl, resetBlock_mem_idle (s := u),
    fun a => readByte_resetBlock_kept (s := u), fun hb j hj ha hsrc => ?_⟩
  rw [resetBlock_mem_busy (s := u) hb]
  exact readByte_freeDest_free _ _ hj ha hsrc

/-- Settles O50: the reset state is what reset makes of it, and reset gives both invariants (`resetBlock_machineInv`,
`resetBlock_treeInv`). -/
theorem invariantsHoldAtReset : Obligations.InvariantsHoldAtReset := by
  unfold Obligations.InvariantsHoldAtReset
  have hreset : resetBlock State.reset = State.reset := rfl
  rw [← hreset]
  exact ⟨resetBlock_machineInv memWf_reset, resetBlock_treeInv _⟩

/-! ## The level of `irq` (R53, R240) -/

/-- Without DONE there is no interrupt (R53). -/
theorem irq_eq_false {s : State} (h : s.status.done = false) : irq s = false := by
  rw [irq, h, Bool.false_and]

/-- With DONE the interrupt is DONE_IE (R53). -/
theorem irq_eq_irqEn {s : State} (h : s.status.done = true) : irq s = s.irqEn := by
  rw [irq, h, Bool.true_and]

/-- Settles O12: `irq` is DONE and DONE_IE; an end sets DONE and keeps DONE_IE (`commandEnd`), the three moves that
clear DONE leave no interrupt, and a write of IRQ_EN keeps DONE. -/
theorem interruptLevel : Obligations.InterruptLevel := by
  unfold Obligations.InterruptLevel
  refine ⟨fun s u t hu hb hs ht => ?_,
    fun s rest v => ⟨fun hb hs hv => ?_, fun hb hs => ?_, fun hs => ?_, fun hs hd => ?_⟩⟩
  · obtain ⟨hdone, -, -, -, -, -, hie⟩ := commandEnd s u t hu hb hs ht
    rw [irq_eq_irqEn hdone, hie]
  · exact ⟨_, (statusWriteClearsDone s v rest hs).1 hb hv, irq_eq_false rfl⟩
  · exact ⟨_, (step_write (by decide) hs).trans (hostWrite_cmd_idle (s := { s with host := rest }) v hb),
      irq_eq_false rfl⟩
  · exact ⟨_, step_reset hs, irq_eq_false rfl⟩
  · exact ⟨_, step_write (by decide) hs, irq_eq_irqEn hd⟩

/-! ## The host's memory accesses (R266) -/

/-- Settles O16: the guards of the two accesses are the duties, and an access that passes its guard reads or writes one
byte. -/
theorem hostMemoryDuties : Obligations.HostMemoryDuties := by
  unfold Obligations.HostMemoryDuties
  intro s a v rest
  refine ⟨fun hs => ?_, fun hs => ?_⟩
  · rw [step_host hs]
    exact ⟨fun hduty => if_pos (by simpa using hduty), fun hfree => ⟨_, if_neg (by simpa using hfree),
      readByte_writeByte_self _ _ _, fun b => readByte_writeByte_ne v s.mem⟩⟩
  · rw [step_host hs]
    refine ⟨fun hduty => if_pos (by simpa using hduty), fun hfree => ⟨_, if_neg (by simpa using hfree), ?_⟩⟩
    rw [BitVec.toNat_setWidth]
    exact Nat.mod_eq_of_lt (by omega)

end Sys2Proof.Machine
